-- ==== Sys2Proof/Word.lean ====
section
/-! DEFINITION. The word types of QOA-CORE and the two fixed groupings of registers: four taps
(10_state.md R21), eight channels (00_scope.md R5, `MAX_CHANNELS`). -/

namespace Sys2Proof

/-- A byte of `BSIN` or `BSOUT` (20_memory.md R50). -/
abbrev Byte := BitVec 8

/-- A 16-bit two's-complement value: an LMS register or a PCM sample (10_state.md R21, 20_memory.md R50).
Its `int16` reading is `BitVec.toInt`. -/
abbrev Sample := BitVec 16

/-- A 32-bit command word on the `CMD` port (30_encoding.md R71). -/
abbrev CommandWord := BitVec 32

/-- A 64-bit unit of the byte stream (30_encoding.md R70). -/
abbrev WireWord := BitVec 64

/-- Four things of one kind, indices 0 to 3: the taps of `history[4]` and `weights[4]`. -/
structure Quad (α : Type) where
  t0 : α
  t1 : α
  t2 : α
  t3 : α
deriving DecidableEq, Repr

/-- One thing of a kind for each of the eight channels. -/
structure Bank (α : Type) where
  c0 : α
  c1 : α
  c2 : α
  c3 : α
  c4 : α
  c5 : α
  c6 : α
  c7 : α
deriving DecidableEq, Repr

end Sys2Proof
end

