-- ==== Sys2Proof/Syntax.lean ====
section
/-! DEFINITION. The instructions: the twenty command words of 30_encoding.md R73 and the five wire words of R74 to
R78, one constructor per row of spec/opcode_table.json, in the table's order.

A command carries the fields its row uses, as wide as the command word has them (R71), so that an out-of-range
channel or immediate is a term too and is turned away by its meaning with the sub-cause R72 gives it.
A wire word carries its fields and, where its format alone does not say it, the place in the stream that selects it
(R81). DESIGN CHOICE (notes/assumptions/11.md, 12.md). -/

namespace Sys2Proof

/-- Who reads a frame header: `DEC.OPEN`, which peeks at the first one (44_stream.md R191), or `DEC.FRAME`, which
starts a frame with it (43_frame.md R171). -/
inductive HeaderRole where
  | peek
  | frame
deriving DecidableEq, Repr

/-- The place of a slice word in its frame (20_memory.md R68): slice number `s`, channel `c`, and the number of
samples it holds. -/
structure SlicePos where
  s   : Nat
  c   : Fin 8
  len : Nat
deriving DecidableEq, Repr

/-- The place of a wire word in the stream, which is all that tells its format (30_encoding.md R70, R81). -/
inductive WirePos where
  | fileHeader
  | frameHeader (role : HeaderRole)
  | history (c : Fin 8)
  | weights (c : Fin 8)
  | slice (p : SlicePos)
deriving DecidableEq, Repr

inductive Instr where
  /-- `NOP` -/
  | nop
  /-- `RDREG r` -/
  | rdreg (r : BitVec 16)
  /-- `FN.CLAMP` -/
  | fnClamp
  /-- `FN.CLAMPS16` -/
  | fnClamps16
  /-- `FN.DIVIDE sf` -/
  | fnDivide (sf : BitVec 4)
  /-- `TBL.RECIP sf` -/
  | tblRecip (sf : BitVec 4)
  /-- `TBL.QUANT i` -/
  | tblQuant (i : BitVec 16)
  /-- `TBL.DEQUANT sf, q` -/
  | tblDequant (sf : BitVec 4) (q : BitVec 16)
  /-- `LMS.INIT` -/
  | lmsInit
  /-- `LMS.LOAD c` -/
  | lmsLoad (c : BitVec 4)
  /-- `LMS.STORE c` -/
  | lmsStore (c : BitVec 4)
  /-- `LMS.PREDICT c` -/
  | lmsPredict (c : BitVec 4)
  /-- `LMS.UPDATE c` -/
  | lmsUpdate (c : BitVec 4)
  /-- `DEC.SLICE c, len` -/
  | decSlice (c : BitVec 4) (len : BitVec 16)
  /-- `ENC.TRIAL c, sf, len` -/
  | encTrial (c : BitVec 4) (sf : BitVec 4) (len : BitVec 16)
  /-- `ENC.SLICE c, len` -/
  | encSlice (c : BitVec 4) (len : BitVec 16)
  /-- `ENC.OPEN` -/
  | encOpen
  /-- `ENC.FRAME` -/
  | encFrame
  /-- `DEC.OPEN` -/
  | decOpen
  /-- `DEC.FRAME` -/
  | decFrame
  /-- `FILE_HEADER`: the magic is fixed, the total samples per channel -/
  | fileHeader (samples : BitVec 32)
  /-- `FRAME_HEADER` -/
  | frameHeader (role : HeaderRole) (channels : BitVec 8) (sampleRate : BitVec 24) (fsamples fsize : BitVec 16)
  /-- `LMS_HISTORY` of channel `c`, `history[0]` to `history[3]` -/
  | lmsHistory (c : Fin 8) (h0 h1 h2 h3 : Sample)
  /-- `LMS_WEIGHTS` of channel `c`, `weights[0]` to `weights[3]` -/
  | lmsWeights (c : Fin 8) (w0 w1 w2 w3 : Sample)
  /-- `SLICE` at `p`: the scale factor and the twenty 3-bit indices, `q0` in bits 59..57 -/
  | slice (p : SlicePos) (sf : BitVec 4) (qs : BitVec 60)
deriving DecidableEq, Repr

end Sys2Proof
end

