-- ==== Sys2Proof/Decode.lean ====
section
/-! DEFINITION. The decoder and, after it, the encoder: 30_encoding.md. A command word is selected by its `op` byte
alone (R73) and a wire word by its place in the stream alone (R70, R81). -/

namespace Sys2Proof

/-! ## Fields of a command word (R71) -/

def opField (w : CommandWord) : BitVec 8 := w.extractLsb' 24 8
def cField (w : CommandWord) : BitVec 4 := w.extractLsb' 20 4
def sfField (w : CommandWord) : BitVec 4 := w.extractLsb' 16 4
def immField (w : CommandWord) : BitVec 16 := w.extractLsb' 0 16

/-- A command word from its four fields, `op` in bits 31..24 down to `imm` in bits 15..0 (R71). -/
def commandWord (op : BitVec 8) (c sf : BitVec 4) (imm : BitVec 16) : CommandWord := op ++ c ++ sf ++ imm

/-! ## Fields of the wire words -/

/-- The four bytes "qoaf" (R74). -/
def magic : BitVec 32 := 0x716f6166

/-- `file_header_pack(samples)` (R74). -/
def fileHeaderPack (samples : BitVec 32) : WireWord := magic ++ samples

def fileHeaderMagic (w : WireWord) : BitVec 32 := w.extractLsb' 32 32
def fileHeaderSamples (w : WireWord) : BitVec 32 := w.extractLsb' 0 32

/-- `frame_header_pack(channels, sample_rate, fsamples, fsize)` (R75). -/
def frameHeaderPack (channels : BitVec 8) (sampleRate : BitVec 24) (fsamples fsize : BitVec 16) : WireWord :=
  channels ++ sampleRate ++ fsamples ++ fsize

/-! `frame_header_unpack(w)`, field by field (R75). -/

def headerChannels (w : WireWord) : BitVec 8 := w.extractLsb' 56 8
def headerSampleRate (w : WireWord) : BitVec 24 := w.extractLsb' 32 24
def headerFsamples (w : WireWord) : BitVec 16 := w.extractLsb' 16 16
def headerFsize (w : WireWord) : BitVec 16 := w.extractLsb' 0 16

/-- `pack4(v)` (R86): element 0 in bits 63..48 down to element 3 in bits 15..0 (R76, R77). -/
def pack4 (v : Quad Sample) : WireWord := v.t0 ++ v.t1 ++ v.t2 ++ v.t3

/-- `unpack4(w)` (R86). -/
def unpack4 (w : WireWord) : Quad Sample :=
  ⟨w.extractLsb' 48 16, w.extractLsb' 32 16, w.extractLsb' 16 16, w.extractLsb' 0 16⟩

/-- A slice word: `sf` above the twenty indices (R78). -/
def slicePack (sf : BitVec 4) (qs : BitVec 60) : WireWord := sf ++ qs

/-- `slice_sf(w)`, bits 63..60 (R78). -/
def sliceSf (w : WireWord) : BitVec 4 := w.extractLsb' 60 4

/-- The sixty bits below `sf`. -/
def sliceIndices (w : WireWord) : BitVec 60 := w.extractLsb' 0 60

/-- `slice_q(w, k)`, bits `59−3k .. 57−3k` (R78). -/
def sliceQ (w : WireWord) (k : Nat) : BitVec 3 := w.extractLsb' (57 - 3 * k) 3

/-! ## Decoding -/

/-- Why bits are no instruction. The first two are sub-causes 1 and 2 of `IllegalCommand` (R72 (a), (b)), the third
is `BadMagic` (R82). -/
inductive DecodeError where
  | reservedOp
  | unusedField
  | badMagic
deriving DecidableEq, Repr

/-- One row of the opcode map R73: the `op` byte, which of the three other fields the operation uses at all, and the
instruction it stands for. -/
structure CommandRow where
  op      : BitVec 8
  usesC   : Bool
  usesSf  : Bool
  usesImm : Bool
  build   : BitVec 4 → BitVec 4 → BitVec 16 → Instr

/-- The opcode map (R73), row by row. -/
def commandTable : List CommandRow := [
  ⟨0x00, false, false, false, fun _ _ _ => .nop⟩,
  ⟨0x01, false, false, true,  fun _ _ imm => .rdreg imm⟩,
  ⟨0x10, false, false, false, fun _ _ _ => .fnClamp⟩,
  ⟨0x11, false, false, false, fun _ _ _ => .fnClamps16⟩,
  ⟨0x12, false, true,  false, fun _ sf _ => .fnDivide sf⟩,
  ⟨0x18, false, true,  false, fun _ sf _ => .tblRecip sf⟩,
  ⟨0x19, false, false, true,  fun _ _ imm => .tblQuant imm⟩,
  ⟨0x1A, false, true,  true,  fun _ sf imm => .tblDequant sf imm⟩,
  ⟨0x20, false, false, false, fun _ _ _ => .lmsInit⟩,
  ⟨0x21, true,  false, false, fun c _ _ => .lmsLoad c⟩,
  ⟨0x22, true,  false, false, fun c _ _ => .lmsStore c⟩,
  ⟨0x23, true,  false, false, fun c _ _ => .lmsPredict c⟩,
  ⟨0x24, true,  false, false, fun c _ _ => .lmsUpdate c⟩,
  ⟨0x30, true,  false, true,  fun c _ imm => .decSlice c imm⟩,
  ⟨0x31, true,  true,  true,  fun c sf imm => .encTrial c sf imm⟩,
  ⟨0x32, true,  false, true,  fun c _ imm => .encSlice c imm⟩,
  ⟨0x40, false, false, false, fun _ _ _ => .encOpen⟩,
  ⟨0x41, false, false, false, fun _ _ _ => .encFrame⟩,
  ⟨0x48, false, false, false, fun _ _ _ => .decOpen⟩,
  ⟨0x49, false, false, false, fun _ _ _ => .decFrame⟩]

/-- R72 (b): every field the row does not use at all is zero. -/
def CommandRow.unusedZero (row : CommandRow) (w : CommandWord) : Bool :=
  (row.usesC || cField w == 0) && (row.usesSf || sfField w == 0) && (row.usesImm || immField w == 0)

/-- The instruction of a command word, or R72's test (a) or (b) that it fails, in that order. -/
def decodeCommand (w : CommandWord) : Except DecodeError Instr :=
  match commandTable.find? (fun row => row.op == opField w) with
  | none => .error .reservedOp
  | some row =>
    if row.unusedZero w then .ok (row.build (cField w) (sfField w) (immField w)) else .error .unusedField

/-- The instruction a wire word is at its place in the stream. Only a file header has fixed bits (R74). -/
def decodeWire (p : WirePos) (w : WireWord) : Except DecodeError Instr :=
  match p with
  | .fileHeader => if fileHeaderMagic w = magic then .ok (.fileHeader (fileHeaderSamples w)) else .error .badMagic
  | .frameHeader role =>
    .ok (.frameHeader role (headerChannels w) (headerSampleRate w) (headerFsamples w) (headerFsize w))
  | .history c => let v := unpack4 w; .ok (.lmsHistory c v.t0 v.t1 v.t2 v.t3)
  | .weights c => let v := unpack4 w; .ok (.lmsWeights c v.t0 v.t1 v.t2 v.t3)
  | .slice pos => .ok (.slice pos (sliceSf w) (sliceIndices w))

/-- The bits of an instruction where they stand: a command word on the `CMD` port, or a wire word at its place in
the stream. -/
inductive Located where
  | command (w : CommandWord)
  | wire (p : WirePos) (w : WireWord)
deriving DecidableEq, Repr

/-- The decoder of both layers (R70). -/
def decode : Located → Except DecodeError Instr
  | .command w => decodeCommand w
  | .wire p w => decodeWire p w

/-! ## Encoding -/

/-- The bits of an instruction: R73 for a command, R74 to R78 for a wire word. -/
def encode : Instr → Located
  | .nop => .command (commandWord 0x00 0 0 0)
  | .rdreg r => .command (commandWord 0x01 0 0 r)
  | .fnClamp => .command (commandWord 0x10 0 0 0)
  | .fnClamps16 => .command (commandWord 0x11 0 0 0)
  | .fnDivide sf => .command (commandWord 0x12 0 sf 0)
  | .tblRecip sf => .command (commandWord 0x18 0 sf 0)
  | .tblQuant i => .command (commandWord 0x19 0 0 i)
  | .tblDequant sf q => .command (commandWord 0x1A 0 sf q)
  | .lmsInit => .command (commandWord 0x20 0 0 0)
  | .lmsLoad c => .command (commandWord 0x21 c 0 0)
  | .lmsStore c => .command (commandWord 0x22 c 0 0)
  | .lmsPredict c => .command (commandWord 0x23 c 0 0)
  | .lmsUpdate c => .command (commandWord 0x24 c 0 0)
  | .decSlice c len => .command (commandWord 0x30 c 0 len)
  | .encTrial c sf len => .command (commandWord 0x31 c sf len)
  | .encSlice c len => .command (commandWord 0x32 c 0 len)
  | .encOpen => .command (commandWord 0x40 0 0 0)
  | .encFrame => .command (commandWord 0x41 0 0 0)
  | .decOpen => .command (commandWord 0x48 0 0 0)
  | .decFrame => .command (commandWord 0x49 0 0 0)
  | .fileHeader samples => .wire .fileHeader (fileHeaderPack samples)
  | .frameHeader role channels sampleRate fsamples fsize =>
    .wire (.frameHeader role) (frameHeaderPack channels sampleRate fsamples fsize)
  | .lmsHistory c h0 h1 h2 h3 => .wire (.history c) (pack4 ⟨h0, h1, h2, h3⟩)
  | .lmsWeights c w0 w1 w2 w3 => .wire (.weights c) (pack4 ⟨w0, w1, w2, w3⟩)
  | .slice p sf qs => .wire (.slice p) (slicePack sf qs)

/-- How many integers `ARG` holds for the command, by the `ARG` column of R73. -/
def Instr.operandCount : Instr → Nat
  | .fnClamp => 3
  | .fnClamps16 => 1
  | .fnDivide _ => 1
  | .lmsLoad _ => 2
  | .lmsUpdate _ => 2
  | .decSlice _ _ => 1
  | .encTrial _ _ len => len.toNat
  | .encSlice _ len => len.toNat
  | .encOpen => 4
  | .decOpen => 1
  | .nop => 0
  | .rdreg _ => 0
  | .tblRecip _ => 0
  | .tblQuant _ => 0
  | .tblDequant _ _ => 0
  | .lmsInit => 0
  | .lmsStore _ => 0
  | .lmsPredict _ => 0
  | .encFrame => 0
  | .decFrame => 0
  | .fileHeader _ => 0
  | .frameHeader _ _ _ _ _ => 0
  | .lmsHistory _ _ _ _ _ => 0
  | .lmsWeights _ _ _ _ _ => 0
  | .slice _ _ _ => 0

/-- The instruction of a row of the opcode table from its bits: a command word of up to 32 bits, or a wire word of 64
at the one place a stream's first unit has, its file header. A wire word at another place cannot be named by its bits
(R70). DESIGN CHOICE (notes/assumptions/14.md). -/
def decodeTableWord (nbits w : Nat) : Option Instr :=
  let bits := if nbits ≤ 32 then Located.command (BitVec.ofNat 32 w) else .wire .fileHeader (BitVec.ofNat 64 w)
  match decode bits with
  | .ok i => some i
  | .error _ => none

end Sys2Proof
end

