-- ==== Sys2Proof/Config.lean ====
section
/-! DEFINITION. What is fixed for one block: the parameter the spec leaves open, and the free values. -/

namespace Sys2Proof.Config

/-- `SEARCH_METRIC` (00_scope.md R6, 43_frame.md R162, D14): which counter of a trial the search compares with
the best rank so far. -/
inductive SearchMetric where
  /-- `RANK`, the default: the trial's rank. -/
  | rank
  /-- `ERROR_VS_RANK`, the document's literal text: the trial's pure squared error. -/
  | errorVsRank
deriving DecidableEq, Repr

/-- The arguments the spec gives the model (00_scope.md R6). State carries them, so that a statement about every
state covers every value of them. DESIGN CHOICE, safe (notes/assumptions/4.md). -/
structure Params where
  searchMetric : SearchMetric
deriving DecidableEq, Repr

/-- The spec's default parameters (00_scope.md R6). -/
def Params.default : Params := ⟨.rank⟩

/-- Free value: what the byte of `BSIN` at an offset reads as that the host never filled. No value of it can be
proved. DESIGN CHOICE, safe (notes/assumptions/6.md). -/
opaque unfilledByte : Nat → Byte

/-- Free value: what the sample of `PCMIN` at an index reads as that the host never filled. DESIGN CHOICE, safe
(notes/assumptions/6.md). -/
opaque unfilledSample : Nat → Sample

end Sys2Proof.Config
end

