-- ==== Sys2Proof/Machine/State.lean ====
section
/-! DEFINITION. The state of the block (10_state.md R20), its address spaces (20_memory.md R50), its ports, and the
state after `RESET` (R34, R250). -/

namespace Sys2Proof.Machine

/-- An address space: the locations that hold a value, addresses strictly rising. An unlisted location holds no value
(20_memory.md R54; for the other spaces notes/assumptions/7.md). A byte space is a list of `Host.Cell`. -/
abbrev Memory (α : Type) := List (Nat × α)

/-- The canonical form. No entry can equal what an unlisted location reads as, since that is no value. -/
abbrev Memory.wf {α : Type} (m : Memory α) : Prop := m.Pairwise (fun x y => x.1 < y.1)

/-- `PHASE` (R23, values R30). -/
inductive Phase where
  | needHeader
  | needFrame
  | done
  | error
deriving DecidableEq, Repr

/-- `MODE` (R23, values R30). -/
inductive Mode where
  | none
  | enc
  | dec
deriving DecidableEq, Repr

/-- An LMS value `(h, w)` (00_scope.md R14): `h.t3` is the newest history value. -/
structure Lms where
  h : Quad Sample
  w : Quad Sample
deriving DecidableEq, Repr

/-- `SEED` (00_scope.md R14, 10_state.md R22): history 0, weights 0, 0, −2¹³, 2¹⁴. -/
def Lms.seed : Lms := ⟨⟨0, 0, 0, 0⟩, ⟨0, 0, BitVec.ofInt 16 (-8192), 16384⟩⟩

/-- The same thing for every channel. -/
def allChannels {α : Type} (x : α) : Bank α := ⟨x, x, x, x, x, x, x, x⟩

/-- What the host can do between operations (00_scope.md R15, 70_reset_and_hazards.md R250, R254, R255). DESIGN CHOICE
(notes/assumptions/1.md, 5.md). -/
inductive HostAction where
  /-- Write a command word to `CMD`, with its operands on `ARG`. -/
  | command (w : CommandWord) (arg : List Int)
  /-- Assert `RESET`. -/
  | reset
  /-- Put these bytes in `BSIN[0 ..]`, in place of what it held. -/
  | fillBsin (bytes : List Byte)
  /-- Put these samples in `PCMIN[0 ..]`, in place of what it held. -/
  | fillPcmin (samples : List Sample)
deriving DecidableEq, Repr

structure State where
  /-- `H[c][i]`, `W[c][i]` -/
  lms        : Bank Lms
  /-- `PREV_SF[c]` -/
  prevSf     : Bank (BitVec 4)
  /-- `CHANNELS` -/
  channels   : BitVec 8
  /-- `SAMPLE_RATE` -/
  sampleRate : BitVec 24
  /-- `SAMPLES` -/
  samples    : BitVec 32
  /-- `ERROR_COUNT` -/
  errorCount : BitVec 64
  /-- `PHASE` -/
  phase      : Phase
  /-- `MODE` -/
  mode       : Mode
  /-- `SAMPLE_POS` -/
  samplePos  : BitVec 32
  /-- `BSIN_POS` -/
  bsinPos    : BitVec 64
  /-- `BSIN_LEN` -/
  bsinLen    : BitVec 64
  /-- `BSOUT_POS` -/
  bsoutPos   : BitVec 64
  /-- `OUT_TOTAL` -/
  outTotal   : BitVec 64
  /-- `PCMIN_LEN` -/
  pcminLen   : BitVec 64
  /-- `ERR` -/
  err        : BitVec 4
  /-- `ERR_INFO` -/
  errInfo    : BitVec 4
  /-- the space `BSIN` -/
  bsin       : Memory Byte
  /-- the space `BSOUT` -/
  bsout      : Memory Byte
  /-- the space `PCMIN` -/
  pcmin      : Memory Sample
  /-- the space `PCMOUT` -/
  pcmout     : Memory Sample
  /-- the port `ARG`: the operands of the command being run -/
  arg        : List Int
  /-- the port `RES`: the results of the last operation that had an effect (notes/assumptions/2.md) -/
  res        : List Int
  /-- the host's actions that wait, oldest first (notes/assumptions/1.md) -/
  pending    : List HostAction
  /-- the configuration, which nothing changes (notes/assumptions/4.md) -/
  params     : Config.Params
deriving DecidableEq, Repr

/-- No step of the block stops with a fault: every error is recorded in `ERR` and the block goes on
(60_exceptions.md R224, 20_memory.md R60). So there is no reason to list. Safe. -/
inductive Fault where
deriving DecidableEq, Repr

/-- Why the model has no move. -/
inductive Refusal where
  /-- Raised by an arm of `exec` whose instruction has no meaning yet. Safe: nothing can be proved of such a run. -/
  | notModelled (mnemonic : String)
  /-- Raised by a step whose host action fills `BSIN` while a decode is running, or `PCMIN` while an encode is
  (20_memory.md R64, 70_reset_and_hazards.md R258: the model has no transition for such a host). Safe. -/
  | hostBreaksBufferRule
deriving DecidableEq, Repr

/-- What running an operation, or a step, answers. -/
abbrev Result := Host.Outcome State Fault Refusal

/-- The state after `RESET` at power-on (10_state.md R34, 70_reset_and_hazards.md R250, R251). The registers' values are
all the spec's. Buffers with nothing listed, empty ports, no host action waiting and the default parameters are DESIGN
CHOICES (notes/assumptions/1.md, 3.md, 4.md, 7.md). -/
def State.reset : State where
  lms        := allChannels Lms.seed
  prevSf     := allChannels 0
  channels   := 0
  sampleRate := 0
  samples    := 0
  errorCount := 0
  phase      := .needHeader
  mode       := .none
  samplePos  := 0
  bsinPos    := 0
  bsinLen    := 0
  bsoutPos   := 0
  outTotal   := 0
  pcminLen   := 0
  err        := 0
  errInfo    := 0
  bsin       := []
  bsout      := []
  pcmin      := []
  pcmout     := []
  arg        := []
  res        := []
  pending    := []
  params     := Config.Params.default

end Sys2Proof.Machine
end

