-- ==== Sys2Proof/Machine/Ops.lean ====
section
/-! DEFINITION. The named operations over registers and address spaces (00_scope.md R11, R12), raising an error
(60_exceptions.md R224) and leaving the error phase (R226, 70_reset_and_hazards.md R250). -/

namespace Sys2Proof

/-! ## Register files -/

/-- The entry of channel `c`. -/
def Bank.get {α : Type} (b : Bank α) (c : Fin 8) : α :=
  match c with
  | 0 => b.c0
  | 1 => b.c1
  | 2 => b.c2
  | 3 => b.c3
  | 4 => b.c4
  | 5 => b.c5
  | 6 => b.c6
  | 7 => b.c7

/-- The file with channel `c`'s entry replaced. -/
def Bank.set {α : Type} (b : Bank α) (c : Fin 8) (x : α) : Bank α :=
  match c with
  | 0 => { b with c0 := x }
  | 1 => { b with c1 := x }
  | 2 => { b with c2 := x }
  | 3 => { b with c3 := x }
  | 4 => { b with c4 := x }
  | 5 => { b with c5 := x }
  | 6 => { b with c6 := x }
  | 7 => { b with c7 := x }

/-- The four `int16` readings added up: the taps of `predict` and of the penalty (R120, R145). -/
def Quad.sum (f : Sample → Sample → Int) (a b : Quad Sample) : Int :=
  f a.t0 b.t0 + f a.t1 b.t1 + f a.t2 b.t2 + f a.t3 b.t3

namespace Machine

/-! ## Address spaces -/

/-- The value at an address, if the location holds one. -/
def Memory.read {α : Type} : Memory α → Nat → Option α
  | [], _ => none
  | (b, v) :: m, a => if a = b then some v else Memory.read m a

/-- Store a value at an address, keeping the addresses rising. -/
def Memory.write {α : Type} : Memory α → Nat → α → Memory α
  | [], a, v => [(a, v)]
  | (b, u) :: m, a, v =>
    if a < b then (a, v) :: (b, u) :: m
    else if a = b then (a, v) :: m
    else (b, u) :: Memory.write m a v

/-- A space whose locations from address `a` on hold these values, and no other holds one. -/
def Memory.ofListFrom {α : Type} : Nat → List α → Memory α
  | _, [] => []
  | a, v :: vs => (a, v) :: Memory.ofListFrom (a + 1) vs

/-- A buffer the host filled: these values at addresses 0, 1, … (44_stream.md R194, R195). -/
def Memory.ofList {α : Type} (vs : List α) : Memory α := Memory.ofListFrom 0 vs

/-- `MemRead(space, addr, n)` (00_scope.md R11) of a space given by its byte at each offset: big-endian, the byte at
the lowest offset most significant (20_memory.md R56). -/
def memRead (byteAt : Nat → Byte) (addr : Nat) : Nat → Nat
  | 0 => 0
  | n + 1 => (byteAt addr).toNat * 256 ^ n + memRead byteAt (addr + 1) n

/-- `MemWrite(space, addr, n, v)` (00_scope.md R11): the same order. -/
def memWrite (m : Memory Byte) (addr : Nat) : Nat → Nat → Memory Byte
  | 0, _ => m
  | n + 1, v => memWrite (m.write addr (BitVec.ofNat 8 (v / 256 ^ n))) (addr + 1) n v

/-- The byte of `BSIN` at an offset; a free value where the host never filled it (notes/assumptions/6.md). -/
def State.bsinByte (s : State) (a : Nat) : Byte := (s.bsin.read a).getD (Config.unfilledByte a)

/-- `MemRead(BSIN, addr, 8)`: a wire word of the input (20_memory.md R59). -/
def State.bsinWord (s : State) (addr : Nat) : WireWord := BitVec.ofNat 64 (memRead s.bsinByte addr 8)

/-- `SampleRead(PCMIN, idx)` (00_scope.md R11); a free value where the host never filled it (notes/assumptions/6.md). -/
def State.sampleRead (s : State) (idx : Nat) : Sample := (s.pcmin.read idx).getD (Config.unfilledSample idx)

/-- `SampleWrite(PCMOUT, idx, v)` (00_scope.md R11). -/
def State.sampleWrite (s : State) (idx : Nat) (v : Sample) : State := { s with pcmout := s.pcmout.write idx v }

/-- `put(v)` (43_frame.md R169): append a wire word to `BSOUT` at `BSOUT_POS`, which moves past it. -/
def State.put (s : State) (v : WireWord) : State :=
  { s with
    bsout := memWrite s.bsout s.bsoutPos.toNat 8 v.toNat
    bsoutPos := BitVec.ofNat 64 (s.bsoutPos.toNat + 8) }

/-! ## Registers -/

/-- `LMS[c] <- l` (00_scope.md R14). -/
def State.setLms (s : State) (c : Fin 8) (l : Lms) : State := { s with lms := s.lms.set c l }

/-- `RES <- r`. -/
def State.returns (s : State) (r : List Int) : State := { s with res := r }

/-- The channels a running stream uses, `0 .. CHANNELS−1`, in rising order. There are eight LMS sets, so a number above
8, which no run puts in `CHANNELS`, selects all eight (notes/assumptions/16.md). -/
def channelList (channels : Nat) : List (Fin 8) := (List.finRange 8).filter (fun c => c.val < channels)

/-- `ceil(a / b)` (00_scope.md R8). -/
def ceilDiv (a b : Nat) : Nat := (a + b - 1) / b

/-! ## Errors -/

/-- The error names of the taxonomy and this spec's `IllegalCommand` (60_exceptions.md R220). -/
inductive ErrorCode where
  | fileTooSmall
  | badMagic
  | noSamples
  | invalidStreamHeader
  | frameTooSmall
  | invalidFrame
  | invalidParameters
  | sampleCountMismatch
  /-- kept for the reader outside the block; never raised (R234) -/
  | seekInvalid
  /-- kept for the reader outside the block; never raised (R234) -/
  | seekPastEnd
  | illegalCommand
deriving DecidableEq, Repr

/-- The value of `ERR` for an error (R220). -/
def ErrorCode.code : ErrorCode → BitVec 4
  | .fileTooSmall => 1
  | .badMagic => 2
  | .noSamples => 3
  | .invalidStreamHeader => 4
  | .frameTooSmall => 5
  | .invalidFrame => 6
  | .invalidParameters => 7
  | .sampleCountMismatch => 8
  | .seekInvalid => 9
  | .seekPastEnd => 10
  | .illegalCommand => 15

/-- An error and its sub-cause: the `E(info)` of `raise E(info)` (R222, R224). -/
structure Cause where
  code : ErrorCode
  info : BitVec 4
deriving DecidableEq, Repr

/-- `raise E(info)` (R224): the code, the sub-cause, the error phase, no result, and nothing else. -/
def State.raise (s : State) (e : Cause) : State :=
  { s with err := e.code.code, errInfo := e.info, phase := .error, res := [] }

/-- `RESET` (70_reset_and_hazards.md R250): every register takes its value of R34; the four buffers stay. It is the
only way out of the error phase (60_exceptions.md R226). What the ports show afterwards is a DESIGN CHOICE
(notes/assumptions/3.md). -/
def State.resetInput (s : State) : State :=
  { State.reset with
    bsin := s.bsin, bsout := s.bsout, pcmin := s.pcmin, pcmout := s.pcmout
    pending := s.pending, params := s.params }

/-- What an operation computes: the state it ends in, or the first error its rule reaches. -/
abbrev Verdict := Except Cause State

/-- End an operation that is not ignored: take its state, or take its error. In the error phase nothing is raised and
nothing changes (60_exceptions.md R223 (1), R233). -/
def settle (s : State) (v : Verdict) : Result :=
  match v with
  | .ok t => .next t
  | .error e => if s.phase = .error then .next s else .next (s.raise e)

/-- Run an operation that the error phase ignores: all but `NOP` and `RDREG` (60_exceptions.md R233, 44_stream.md
R199). -/
def operate (s : State) (v : Verdict) : Result := if s.phase = .error then .next s else settle s v

/-- Fail with the error `e` unless the condition holds. -/
def require (ok : Bool) (e : Cause) : Except Cause Unit := if ok then .ok () else .error e

/-- `IllegalCommand(n)` (30_encoding.md R72). -/
def illegal (n : BitVec 4) : Cause := ⟨.illegalCommand, n⟩

end Machine

end Sys2Proof
end

