-- ==== Sys2Proof/WellFormed.lean ====
section
/-! DEFINITION. Which instruction terms are legal as words: the field ranges of 30_encoding.md R72 (c) and (d), the
header values R82 does not turn away, and the places a frame has (R81). -/

namespace Sys2Proof

/-- R72 (c): a channel field holds 0..7. -/
def channelFieldOk (c : BitVec 4) : Bool := c.toNat < 8

/-- R72 (d): a slice length is 1..20. -/
def lenFieldOk (len : BitVec 16) : Bool := 1 ≤ len.toNat && len.toNat ≤ 20

/-- R72 (d), 10_state.md R31: the numbers `RDREG` knows are `0x00..0x0A` and `0x10..0x17`. -/
def registerNumberOk (r : BitVec 16) : Bool := r.toNat ≤ 0x0A || (0x10 ≤ r.toNat && r.toNat ≤ 0x17)

/-- R81: a slice holds 1 to 20 samples, and a frame at most the 65535 its 16-bit `fsamples` can say. -/
def slicePosOk (p : SlicePos) : Bool := 1 ≤ p.len && p.len ≤ 20 && 20 * p.s + p.len ≤ 65535

/-- The term is a legal command word or wire word. -/
def Instr.wellFormed : Instr → Bool
  | .nop => true
  | .rdreg r => registerNumberOk r
  | .fnClamp => true
  | .fnClamps16 => true
  | .fnDivide _ => true
  | .tblRecip _ => true
  | .tblQuant i => i.toNat ≤ 16
  | .tblDequant _ q => q.toNat ≤ 7
  | .lmsInit => true
  | .lmsLoad c => channelFieldOk c
  | .lmsStore c => channelFieldOk c
  | .lmsPredict c => channelFieldOk c
  | .lmsUpdate c => channelFieldOk c
  | .decSlice c len => channelFieldOk c && lenFieldOk len
  | .encTrial c _ len => channelFieldOk c && lenFieldOk len
  | .encSlice c len => channelFieldOk c && lenFieldOk len
  | .encOpen => true
  | .encFrame => true
  | .decOpen => true
  | .decFrame => true
  | .fileHeader samples => samples != 0
  | .frameHeader _ channels sampleRate _ _ => channels != 0 && channels.toNat ≤ 8 && sampleRate != 0
  | .lmsHistory _ _ _ _ _ => true
  | .lmsWeights _ _ _ _ _ => true
  | .slice p _ _ => slicePosOk p

end Sys2Proof
end

