-- ==== Sys2Proof/Machine/Flags.lean ====
section
/-! DEFINITION. The block has no arithmetic condition codes: no operation sets a carry, zero, sign or overflow flag
(10_state.md R29). Its flags are `ERR`, `ERR_INFO` and what is derived from `PHASE`; they are read through `STATUS` (R30)
and the other numbered registers through `RDREG` (R31). -/

namespace Sys2Proof.Machine

/-- The number of a phase (R23). -/
def Phase.code : Phase → BitVec 2
  | .needHeader => 0
  | .needFrame => 1
  | .done => 2
  | .error => 3

/-- The number of a mode (R23). -/
def Mode.code : Mode → BitVec 2
  | .none => 0
  | .enc => 1
  | .dec => 2

/-- `DONE = (PHASE = Done)` (R29). -/
def State.doneFlag (s : State) : Bool := s.phase = .done

/-- `FAULTED = (PHASE = Error)` (R29). -/
def State.faultedFlag (s : State) : Bool := s.phase = .error

/-- `STATUS` (R30): `PHASE` in bits 1..0, `MODE` in 3..2, `ERR` in 7..4, `ERR_INFO` in 11..8, zero above. -/
def State.statusWord (s : State) : BitVec 64 := (0 : BitVec 52) ++ s.errInfo ++ s.err ++ s.mode.code ++ s.phase.code

/-- The value `RDREG` returns for a register number, zero-extended to 64 bits, if the number is one of R31's. -/
def State.readRegister (s : State) (r : BitVec 16) : Option (BitVec 64) :=
  match r.toNat with
  | 0x00 => some s.statusWord
  | 0x01 => some (s.channels.setWidth 64)
  | 0x02 => some (s.sampleRate.setWidth 64)
  | 0x03 => some (s.samples.setWidth 64)
  | 0x04 => some (s.samplePos.setWidth 64)
  | 0x05 => some s.bsinPos
  | 0x06 => some s.bsinLen
  | 0x07 => some s.bsoutPos
  | 0x08 => some s.pcminLen
  | 0x09 => some s.errorCount
  | 0x0A => some s.outTotal
  | 0x10 => some ((s.prevSf.get 0).setWidth 64)
  | 0x11 => some ((s.prevSf.get 1).setWidth 64)
  | 0x12 => some ((s.prevSf.get 2).setWidth 64)
  | 0x13 => some ((s.prevSf.get 3).setWidth 64)
  | 0x14 => some ((s.prevSf.get 4).setWidth 64)
  | 0x15 => some ((s.prevSf.get 5).setWidth 64)
  | 0x16 => some ((s.prevSf.get 6).setWidth 64)
  | 0x17 => some ((s.prevSf.get 7).setWidth 64)
  | _ => none

end Sys2Proof.Machine
end

