-- ==== Sys2Proof/Machine/Operands.lean ====
section
/-! DEFINITION. The operand forms: the fields of the command word and the lists on `ARG`, each with the test of
30_encoding.md R72 it must pass: (c) is sub-cause 3, (d) sub-cause 4, (e) sub-cause 5. -/

namespace Sys2Proof.Machine

/-! ## Fields of the command word -/

/-- R72 (c): the channel, or sub-cause 3. -/
def channelOperand (c : BitVec 4) : Except Cause (Fin 8) :=
  if h : c.toNat < 8 then .ok ⟨c.toNat, h⟩ else .error (illegal 3)

/-- R72 (d): a slice length 1..20, or sub-cause 4. -/
def lenOperand (len : BitVec 16) : Except Cause Nat :=
  if lenFieldOk len then .ok len.toNat else .error (illegal 4)

/-- R72 (d): a number up to `top`, or sub-cause 4. -/
def indexOperand (i : BitVec 16) (top : Nat) : Except Cause Nat :=
  if i.toNat ≤ top then .ok i.toNat else .error (illegal 4)

/-! ## Ranges of the integers on `ARG` (92_eei_decisions.md D37, D40) -/

def isInt16 (v : Int) : Bool := -32768 ≤ v && v ≤ 32767
def isInt64 (v : Int) : Bool := -(2 ^ 63) ≤ v && v < 2 ^ 63
def isUnsigned64 (v : Int) : Bool := 0 ≤ v && v < 2 ^ 64
/-- `|residual| < 2³¹` (40_primitives_tables.md R106) -/
def isResidual (v : Int) : Bool := -(2 ^ 31) < v && v < 2 ^ 31

/-! ## Operand lists: exactly these operands, or sub-cause 5 -/

/-- No operand. -/
def noOperand (arg : List Int) : Except Cause Unit := require arg.isEmpty (illegal 5)

/-- `n` operands, all of the range. -/
def operandList (n : Nat) (range : Int → Bool) (arg : List Int) : Except Cause (List Int) :=
  if arg.length = n ∧ arg.all range then .ok arg else .error (illegal 5)

/-- One operand of the range. -/
def oneOperand (range : Int → Bool) (arg : List Int) : Except Cause Int :=
  match arg with
  | [a] => if range a then .ok a else .error (illegal 5)
  | _ => .error (illegal 5)

/-- Two operands of the range. -/
def twoOperands (range : Int → Bool) (arg : List Int) : Except Cause (Int × Int) :=
  match arg with
  | [a, b] => if range a && range b then .ok (a, b) else .error (illegal 5)
  | _ => .error (illegal 5)

/-- `FN.CLAMP`'s `(v, lo, hi)` (40_primitives_tables.md R101). -/
def clampOperands (arg : List Int) : Except Cause (Int × Int × Int) :=
  match arg with
  | [v, lo, hi] => if isInt64 v && isInt64 lo && isInt64 hi then .ok (v, lo, hi) else .error (illegal 5)
  | _ => .error (illegal 5)

/-- `ENC.OPEN`'s `(sample_rate, channels, samples, pcm_len)` (44_stream.md R190). -/
structure EncOpenOperands where
  sampleRate : Nat
  channels   : Nat
  samples    : Nat
  pcmLen     : Nat
deriving DecidableEq, Repr

def encOpenOperands (arg : List Int) : Except Cause EncOpenOperands :=
  match arg with
  | [sampleRate, channels, samples, pcmLen] =>
    if isUnsigned64 sampleRate && isUnsigned64 channels && isUnsigned64 samples && isUnsigned64 pcmLen then
      .ok ⟨sampleRate.toNat, channels.toNat, samples.toNat, pcmLen.toNat⟩
    else .error (illegal 5)
  | _ => .error (illegal 5)

/-- `len` samples, each `int16` (42_slice.md R146, 43_frame.md R167). -/
def samplesOperand (len : Nat) (arg : List Int) : Except Cause (List Sample) :=
  match operandList len isInt16 arg with
  | .ok xs => .ok (xs.map (BitVec.ofInt 16))
  | .error e => .error e

/-! ## Phases (44_stream.md R199): sub-cause 6 -/

/-- `ENC.OPEN` and `DEC.OPEN` are admitted in `NeedHeader` and in `Done`. -/
def opensAdmitted (s : State) : Bool := s.phase = .needHeader || s.phase = .done

/-- `ENC.FRAME` and `DEC.FRAME` are admitted in `NeedFrame` of their own mode. -/
def frameAdmitted (m : Mode) (s : State) : Bool := s.phase = .needFrame && s.mode = m

end Sys2Proof.Machine
end

