-- ==== Sys2Proof/Machine/Tables.lean ====
section
/-! DEFINITION. The three read-only tables (20_memory.md R55), entry by entry as 40_primitives_tables.md R108 to R110
print them. -/

namespace Sys2Proof.Machine

/-- `RECIP[16]` (R108). -/
def recipTable : List Nat := [65536, 9363, 3121, 1457, 781, 475, 311, 216, 156, 117, 90, 71, 57, 47, 39, 32]

/-- `QUANT[17]` (R109). -/
def quantTable : List (BitVec 3) := [7, 7, 7, 5, 5, 3, 3, 1, 0, 0, 2, 2, 4, 4, 6, 6, 6]

/-- `DEQUANT[16][8]` (R110). -/
def dequantTable : List (List Int) := [
  [1, -1, 3, -3, 5, -5, 7, -7],
  [5, -5, 18, -18, 32, -32, 49, -49],
  [16, -16, 53, -53, 95, -95, 147, -147],
  [34, -34, 113, -113, 203, -203, 315, -315],
  [63, -63, 210, -210, 378, -378, 588, -588],
  [104, -104, 345, -345, 621, -621, 966, -966],
  [158, -158, 528, -528, 950, -950, 1477, -1477],
  [228, -228, 760, -760, 1368, -1368, 2128, -2128],
  [316, -316, 1053, -1053, 1895, -1895, 2947, -2947],
  [422, -422, 1405, -1405, 2529, -2529, 3934, -3934],
  [548, -548, 1828, -1828, 3290, -3290, 5117, -5117],
  [696, -696, 2320, -2320, 4176, -4176, 6496, -6496],
  [868, -868, 2893, -2893, 5207, -5207, 8099, -8099],
  [1064, -1064, 3548, -3548, 6386, -6386, 9933, -9933],
  [1286, -1286, 4288, -4288, 7718, -7718, 12005, -12005],
  [1536, -1536, 5120, -5120, 9216, -9216, 14336, -14336]]

/-- `RECIP[sf]`; the index is always in range (R55). -/
def recip (sf : BitVec 4) : Nat := recipTable.getD sf.toNat 0

/-- `QUANT[i]`; the index is always in range (R55). -/
def quant (i : Nat) : BitVec 3 := quantTable.getD i 0

/-- `DEQUANT[sf][q]`; both indices are always in range (R55). -/
def dequant (sf : BitVec 4) (q : BitVec 3) : Int := (dequantTable.getD sf.toNat []).getD q.toNat 0

end Sys2Proof.Machine
end

