-- ==== Sys2Proof/Machine/Primitives.lean ====
section
/-! DEFINITION. The fixed-point primitives and the operations `FN.*` and `TBL.*`: 40_primitives_tables.md. All arithmetic
is exact on integers (00_scope.md R7, 40_primitives_tables.md R115). -/

namespace Sys2Proof.Machine

/-- The arithmetic right shift `a >> k = floor(a / 2^k)` (00_scope.md R8). -/
def asr (a : Int) (k : Nat) : Int := a / 2 ^ k

/-- `clamp(v, lo, hi)`: the tests in the document's order (R100). -/
def clamp (v lo hi : Int) : Int := if v ≤ lo then lo else if hi ≤ v then hi else v

/-- `clamp_s16(v)` (R102). -/
def clampS16 (v : Int) : Int := max (-32768) (min 32767 v)

/-- `neg(x)`: −1 for a negative number, else 0 (R104). -/
def negMark (x : Int) : Int := if x < 0 then -1 else 0

/-- `n0` of `divide` (R104). -/
def divideBase (residual : Int) (sf : BitVec 4) : Int := asr (residual * recip sf + 32768) 16

/-- `divide(residual, sfi)` (R104). -/
def divide (residual : Int) (sf : BitVec 4) : Int :=
  divideBase residual sf + negMark residual - negMark (divideBase residual sf)

/-- `quant_index(r, sf)` (R114). -/
def quantIndex (r : Int) (sf : BitVec 4) : BitVec 3 := quant (clamp (divide r sf) (-8) 8 + 8).toNat

/-- `FN.CLAMP` (R101). -/
def execFnClamp (s : State) : Result :=
  operate s do
    let (v, lo, hi) ← clampOperands s.arg
    return s.returns [clamp v lo hi]

/-- `FN.CLAMPS16` (R103). -/
def execFnClamps16 (s : State) : Result :=
  operate s do
    let v ← oneOperand isInt64 s.arg
    return s.returns [clampS16 v]

/-- `FN.DIVIDE sf` (R106). -/
def execFnDivide (sf : BitVec 4) (s : State) : Result :=
  operate s do
    let residual ← oneOperand isResidual s.arg
    return s.returns [divide residual sf]

/-- `TBL.RECIP sf` (R111). -/
def execTblRecip (sf : BitVec 4) (s : State) : Result :=
  operate s do
    noOperand s.arg
    return s.returns [(recip sf : Int)]

/-- `TBL.QUANT i` (R112). -/
def execTblQuant (i : BitVec 16) (s : State) : Result :=
  operate s do
    let i ← indexOperand i 16
    noOperand s.arg
    return s.returns [((quant i).toNat : Int)]

/-- `TBL.DEQUANT sf, q` (R113). -/
def execTblDequant (sf : BitVec 4) (q : BitVec 16) (s : State) : Result :=
  operate s do
    let q ← indexOperand q 7
    noOperand s.arg
    return s.returns [dequant sf (BitVec.ofNat 3 q)]

end Sys2Proof.Machine
end

