-- ==== Sys2Proof/Machine/Predictor.lean ====
section
/-! DEFINITION. The LMS predictor and the operations `LMS.*`: 41_lms.md. -/

namespace Sys2Proof.Machine

/-- `predict((h, w))` (R120). The sum is exact. -/
def predict (l : Lms) : Int := asr (Quad.sum (fun w h => w.toInt * h.toInt) l.w l.h) 13

/-- One weight's step (R122, R123): toward `delta` where the history value is not negative, away from it where it is;
the register keeps the low 16 bits. -/
def stepWeight (delta : Int) (h w : Sample) : Sample :=
  BitVec.ofInt 16 (if h.toInt < 0 then w.toInt - delta else w.toInt + delta)

/-- `update((h, w), sample, dq)` (R122): every weight from the old history, then the history moves up by one. -/
def update (l : Lms) (sample : Sample) (dq : Int) : Lms :=
  let delta := asr dq 4
  { h := ⟨l.h.t1, l.h.t2, l.h.t3, sample⟩
    w := ⟨stepWeight delta l.h.t0 l.w.t0, stepWeight delta l.h.t1 l.w.t1,
          stepWeight delta l.h.t2 l.w.t2, stepWeight delta l.h.t3 l.w.t3⟩ }

/-- A 64-bit word as it is returned on `RES` or taken from `ARG`. -/
def wordResult (w : WireWord) : Int := (w.toNat : Int)

/-- A 64-bit operand of `ARG` as a word. -/
def wordOperand (v : Int) : WireWord := BitVec.ofInt 64 v

/-- `LMS.INIT` (R125). -/
def execLmsInit (s : State) : Result :=
  operate s do
    noOperand s.arg
    return { s with lms := allChannels Lms.seed }.returns []

/-- `LMS.LOAD c` (R126). -/
def execLmsLoad (c : BitVec 4) (s : State) : Result :=
  operate s do
    let c ← channelOperand c
    let (hw, ww) ← twoOperands isUnsigned64 s.arg
    return (s.setLms c ⟨unpack4 (wordOperand hw), unpack4 (wordOperand ww)⟩).returns []

/-- `LMS.STORE c` (R127). -/
def execLmsStore (c : BitVec 4) (s : State) : Result :=
  operate s do
    let c ← channelOperand c
    noOperand s.arg
    return s.returns [wordResult (pack4 (s.lms.get c).h), wordResult (pack4 (s.lms.get c).w)]

/-- `LMS.PREDICT c` (R128). -/
def execLmsPredict (c : BitVec 4) (s : State) : Result :=
  operate s do
    let c ← channelOperand c
    noOperand s.arg
    return s.returns [predict (s.lms.get c)]

/-- `LMS.UPDATE c` (R129). -/
def execLmsUpdate (c : BitVec 4) (s : State) : Result :=
  operate s do
    let c ← channelOperand c
    let (sample, dq) ← twoOperands isInt16 s.arg
    return (s.setLms c (update (s.lms.get c) (BitVec.ofInt 16 sample) dq)).returns []

end Sys2Proof.Machine
end

