-- ==== Sys2Proof/Machine/Slice.lean ====
section
/-! DEFINITION. The slice codec and the operations `DEC.SLICE` and `ENC.TRIAL`: 42_slice.md. -/

namespace Sys2Proof.Machine

/-- `weights_penalty((h, w))` (R145), never negative. -/
def weightsPenalty (l : Lms) : Nat :=
  (max 0 (asr (Quad.sum (fun a b => a.toInt * b.toInt) l.w l.w) 18 - 0x8ff)).toNat

/-! ## One sample -/

/-- `rec = clamp_s16(p + dq)` (R140 step 6, R141). -/
def reconstruct (p dq : Int) : Sample := BitVec.ofInt 16 (clampS16 (p + dq))

/-- What `enc_sample` answers (R140). -/
structure EncodedSample where
  q     : BitVec 3
  recon : Sample
  err   : Nat
  pen   : Nat
  lms   : Lms
deriving DecidableEq, Repr

/-- `enc_sample(l, sf, s)` (R140). The penalty is of the weights before the update. -/
def encSample (l : Lms) (sf : BitVec 4) (x : Sample) : EncodedSample :=
  let p := predict l
  let q := quantIndex (x.toInt - p) sf
  let dq := dequant sf q
  let recon := reconstruct p dq
  { q := q, recon := recon, err := ((x.toInt - recon.toInt) ^ 2).toNat, pen := weightsPenalty l
    lms := update l recon dq }

/-- `dec_sample(l, sf, q)` (R141): the sample and the new LMS value. -/
def decSample (l : Lms) (sf : BitVec 4) (q : BitVec 3) : Sample × Lms :=
  let dq := dequant sf q
  let recon := reconstruct (predict l) dq
  (recon, update l recon dq)

/-! ## Decoding a slice -/

/-- Decode the samples with these numbers, one after another. -/
def decSteps (w : WireWord) : List Nat → Lms → List Sample × Lms
  | [], l => ([], l)
  | k :: ks, l =>
    let first := decSample l (sliceSf w) (sliceQ w k)
    let rest := decSteps w ks first.2
    (first.1 :: rest.1, rest.2)

/-- `dec_slice(l, w, len)` (R142). -/
def decSlice (l : Lms) (w : WireWord) (len : Nat) : List Sample × Lms := decSteps w (List.range len) l

/-- `DEC.SLICE c, len` (R143). -/
def execDecSlice (c : BitVec 4) (len : BitVec 16) (s : State) : Result :=
  operate s do
    let c ← channelOperand c
    let len ← lenOperand len
    let w ← oneOperand isUnsigned64 s.arg
    let out := decSlice (s.lms.get c) (wordOperand w) len
    return (s.setLms c out.2).returns (out.1.map BitVec.toInt)

/-! ## Encoding a slice under one scale factor -/

/-- The running values of a trial, and its result (R144). -/
structure Trial where
  word : WireWord
  err  : Nat
  rank : Nat
  lms  : Lms
deriving DecidableEq, Repr

/-- One turn of the loop of `enc_trial` (R144). -/
def trialStep (sf : BitVec 4) (t : Trial) (x : Sample) : Trial :=
  let e := encSample t.lms sf x
  { word := (t.word <<< 3) ||| e.q.setWidth 64
    err := t.err + e.err
    rank := t.rank + e.err + e.pen * e.pen
    lms := e.lms }

/-- The loop of `enc_trial`, before the last shift. -/
def trialLoop (l : Lms) (sf : BitVec 4) (xs : List Sample) : Trial :=
  xs.foldl (trialStep sf) ⟨sf.setWidth 64, 0, 0, l⟩

/-- `enc_trial(l, sf, x)` (R144), with the shift of a partial slice (30_encoding.md R79). -/
def encTrial (l : Lms) (sf : BitVec 4) (xs : List Sample) : Trial :=
  let t := trialLoop l sf xs
  { t with word := t.word <<< (3 * (20 - xs.length)) }

/-- `ENC.TRIAL c, sf, len` (R146). It writes no register. -/
def execEncTrial (c sf : BitVec 4) (len : BitVec 16) (s : State) : Result :=
  operate s do
    let c ← channelOperand c
    let len ← lenOperand len
    let xs ← samplesOperand len s.arg
    let t := encTrial (s.lms.get c) sf xs
    return s.returns
      [wordResult t.word, (t.err : Int), (t.rank : Int), wordResult (pack4 t.lms.h), wordResult (pack4 t.lms.w)]

end Sys2Proof.Machine
end

