-- ==== Sys2Proof/Machine/Wire.lean ====
section
/-! DEFINITION. The wire words (30_encoding.md R74 to R78): where a frame has which (20_memory.md R61, 30_encoding.md
R81), the checks the two headers pass (44_stream.md R191, 43_frame.md R171), and the effect each word has where the block
consumes it. `DEC.OPEN` and `DEC.FRAME` are made of these.

A wire word is no command: the host cannot issue one, and the step never runs one by itself. Its meaning under `exec` is
the effect the block gives the word at its place inside the operation that consumes it. DESIGN CHOICE
(notes/assumptions/12.md, 13.md). -/

namespace Sys2Proof.Machine

/-! ## The units of a frame -/

/-- The slices of a frame of `n` samples per channel in the order they stand and are visited: slice-major,
channel-minor (20_memory.md R68, 43_frame.md R168, R174). -/
def slicePositions (channels n : Nat) : List SlicePos :=
  (List.range (ceilDiv n 20)).flatMap fun s =>
    (channelList channels).map fun c => ⟨s, c, min 20 (n - 20 * s)⟩

/-- The bytes of a frame: `8 + 16·C + 8·S·C` (20_memory.md R61, 43_frame.md R168). -/
def frameBytes (channels n : Nat) : Nat := 8 + 16 * channels + 8 * ceilDiv n 20 * channels

/-- Where in a frame that starts at `base` the units after the header stand, and which each is (20_memory.md R61,
44_stream.md R202). -/
def frameUnits (base channels n : Nat) : List (Nat × WirePos) :=
  ((channelList channels).flatMap fun c =>
      [(base + 8 + 16 * c.val, WirePos.history c), (base + 16 + 16 * c.val, WirePos.weights c)])
    ++ (slicePositions channels n).map fun p =>
      (base + 8 + 16 * channels + 8 * (p.s * channels + p.c.val), WirePos.slice p)

/-! ## The checks of the headers -/

/-- `DEC.OPEN`'s checks of the file header (44_stream.md R191), on its sample count. The magic is checked before. -/
def checkSampleCount (samples : BitVec 32) : Except Cause Unit := require (samples != 0) ⟨.noSamples, 0⟩

/-- `DEC.OPEN`'s checks of the first frame header (44_stream.md R191). -/
def checkFirstHeader (channels : BitVec 8) (sampleRate : BitVec 24) : Except Cause Unit := do
  require (channels != 0) ⟨.invalidStreamHeader, 1⟩
  require (sampleRate != 0) ⟨.invalidStreamHeader, 2⟩
  require (channels.toNat ≤ 8) ⟨.invalidStreamHeader, 3⟩

/-- `rem`: the bytes left in `BSIN` (43_frame.md R171, D19). -/
def State.remainingBytes (s : State) : Nat := s.bsinLen.toNat - s.bsinPos.toNat

/-- Check 1 of 43_frame.md R171, made before the header is read. -/
def checkPrelude (s : State) : Except Cause Unit :=
  require (8 + 16 * s.channels.toNat ≤ s.remainingBytes) ⟨.frameTooSmall, 0⟩

/-- Checks 2 to 8 of 43_frame.md R171, in order, on the header's fields. -/
def checkFrameHeader (s : State) (channels : BitVec 8) (sampleRate : BitVec 24) (fsamples fsize : BitVec 16) :
    Except Cause Unit := do
  let C := s.channels.toNat
  require (channels = s.channels) ⟨.invalidFrame, 1⟩
  require (sampleRate = s.sampleRate) ⟨.invalidFrame, 2⟩
  require (fsize.toNat ≤ s.remainingBytes) ⟨.invalidFrame, 3⟩
  require (8 + 16 * C ≤ fsize.toNat) ⟨.invalidFrame, 4⟩
  require (fsamples.toNat * C ≤ (fsize.toNat - 8 - 16 * C) / 8 * 20) ⟨.invalidFrame, 5⟩
  require (s.samplePos.toNat + fsamples.toNat ≤ s.samples.toNat) ⟨.invalidFrame, 6⟩
  require (frameBytes C fsamples.toNat ≤ s.remainingBytes) ⟨.invalidFrame, 7⟩

/-! ## The effects -/

/-- `H[c] <- unpack4(…)` (43_frame.md R172). -/
def loadHistory (c : Fin 8) (v : Quad Sample) (s : State) : State := s.setLms c { s.lms.get c with h := v }

/-- `W[c] <- unpack4(…)` (43_frame.md R172). -/
def loadWeights (c : Fin 8) (v : Quad Sample) (s : State) : State := s.setLms c { s.lms.get c with w := v }

/-- Write samples to `PCMOUT` at the sample numbers `n`, `n+1`, … of channel `c` (20_memory.md R54, R68). -/
def writeSamples (c : Fin 8) : Nat → List Sample → State → State
  | _, [], s => s
  | n, v :: vs, s => writeSamples c (n + 1) vs (s.sampleWrite (n * s.channels.toNat + c.val) v)

/-- Decode one slice of a frame: its samples to `PCMOUT`, its channel's LMS registers (43_frame.md R172). -/
def applySlice (p : SlicePos) (w : WireWord) (s : State) : State :=
  let out := decSlice (s.lms.get p.c) w p.len
  writeSamples p.c (s.samplePos.toNat + 20 * p.s) out.1 (s.setLms p.c out.2)

/-- The effect of the word `w` at its place inside a frame. A header there has none of its own once it has passed its
checks. -/
def applyWord (p : WirePos) (w : WireWord) (s : State) : State :=
  match p with
  | .fileHeader => s
  | .frameHeader _ => s
  | .history c => loadHistory c (unpack4 w) s
  | .weights c => loadWeights c (unpack4 w) s
  | .slice pos => applySlice pos w s

/-- A wire word has an effect only where the operation that consumes it is admitted (44_stream.md R199); elsewhere it is
bytes in `BSIN` that nothing reads. -/
def consume (admitted : Bool) (s : State) (v : Verdict) : Result := if admitted then settle s v else .next s

/-- `FILE_HEADER` (R74), as `DEC.OPEN` consumes it. -/
def execFileHeader (samples : BitVec 32) (s : State) : Result :=
  consume (opensAdmitted s) s do
    checkSampleCount samples
    return { s with samples := samples }

/-- `FRAME_HEADER` (R75), as `DEC.OPEN` peeks at it or as `DEC.FRAME` starts a frame with it. Its `fsamples` and `fsize`
are kept in no register (10_state.md R32). -/
def execFrameHeader (role : HeaderRole) (channels : BitVec 8) (sampleRate : BitVec 24) (fsamples fsize : BitVec 16)
    (s : State) : Result :=
  match role with
  | .peek =>
    consume (opensAdmitted s) s do
      checkFirstHeader channels sampleRate
      return { s with channels := channels, sampleRate := sampleRate }
  | .frame =>
    consume (frameAdmitted .dec s) s do
      checkFrameHeader s channels sampleRate fsamples fsize
      return s

/-- `LMS_HISTORY` (R76), as `DEC.FRAME` consumes it. -/
def execLmsHistory (c : Fin 8) (h0 h1 h2 h3 : Sample) (s : State) : Result :=
  consume (frameAdmitted .dec s) s (.ok (loadHistory c ⟨h0, h1, h2, h3⟩ s))

/-- `LMS_WEIGHTS` (R77), as `DEC.FRAME` consumes it. -/
def execLmsWeights (c : Fin 8) (w0 w1 w2 w3 : Sample) (s : State) : Result :=
  consume (frameAdmitted .dec s) s (.ok (loadWeights c ⟨w0, w1, w2, w3⟩ s))

/-- `SLICE` (R78), as `DEC.FRAME` consumes it. -/
def execSlice (p : SlicePos) (sf : BitVec 4) (qs : BitVec 60) (s : State) : Result :=
  consume (frameAdmitted .dec s) s (.ok (applySlice p (slicePack sf qs) s))

end Sys2Proof.Machine
end

