-- ==== Sys2Proof/Machine/Frame.lean ====
section
/-! DEFINITION. The scale-factor search and the operations `ENC.SLICE`, `ENC.FRAME` and `DEC.FRAME`: 43_frame.md. -/

namespace Sys2Proof.Machine

/-! ## The search -/

/-- What the search keeps, and its result (R160): the accepted trial's rank, word, scale factor, squared error and LMS
value. -/
structure Best where
  rank : Nat
  word : WireWord
  sf   : BitVec 4
  err  : Nat
  lms  : Lms
deriving DecidableEq, Repr

/-- The counter of a trial that is compared with the best rank (R160, R162). -/
def searchKey (m : Config.SearchMetric) (t : Trial) : Nat :=
  match m with
  | .rank => t.rank
  | .errorVsRank => t.err

/-- Trial `i` of the search (R160, R161): accepted when its key is strictly below the best rank (R165). -/
def searchStep (m : Config.SearchMetric) (l : Lms) (prev : BitVec 4) (xs : List Sample) (b : Best) (i : Nat) : Best :=
  let sf := BitVec.ofNat 4 ((i + prev.toNat) % 16)
  let t := encTrial l sf xs
  if searchKey m t < b.rank then ⟨t.rank, t.word, sf, t.err, t.lms⟩ else b

/-- Before the first trial `best_rank = 2⁶⁴ − 1` (D12). The other fields hold nothing yet: trial 0 is always accepted
(R160), so what stands there never reaches a result. -/
def noBest (l : Lms) (prev : BitVec 4) : Best := ⟨2 ^ 64 - 1, 0, prev, 0, l⟩

/-- `search(l, prev, x)` (R160). No trial leaves early (R163). -/
def search (m : Config.SearchMetric) (l : Lms) (prev : BitVec 4) (xs : List Sample) : Best :=
  (List.range 16).foldl (searchStep m l prev xs) (noBest l prev)

/-- `commit(c, …)` (R164). -/
def State.commit (s : State) (c : Fin 8) (b : Best) : State :=
  { s with
    prevSf := s.prevSf.set c b.sf
    lms := s.lms.set c b.lms
    errorCount := BitVec.ofNat 64 (s.errorCount.toNat + b.err) }

/-- The search for channel `c` from its registers. -/
def State.searchFor (s : State) (c : Fin 8) (xs : List Sample) : Best :=
  search s.params.searchMetric (s.lms.get c) (s.prevSf.get c) xs

/-- `ENC.SLICE c, len` (R167). -/
def execEncSlice (c : BitVec 4) (len : BitVec 16) (s : State) : Result :=
  operate s do
    let c ← channelOperand c
    let len ← lenOperand len
    let xs ← samplesOperand len s.arg
    let b := s.searchFor c xs
    return (s.commit c b).returns [wordResult b.word, (b.sf.toNat : Int), (b.err : Int)]

/-! ## Frame encode -/

/-- `flen` (R168, R169): the samples per channel of the frame at `SAMPLE_POS`. -/
def State.nextFrameLength (s : State) : Nat := min 5120 (s.samples.toNat - s.samplePos.toNat)

/-- The header word of the frame at `SAMPLE_POS` (R169, D43). -/
def State.nextFrameHeader (s : State) : WireWord :=
  frameHeaderPack s.channels s.sampleRate (BitVec.ofNat 16 s.nextFrameLength)
    (BitVec.ofNat 16 (frameBytes s.channels.toNat s.nextFrameLength))

/-- The two LMS words of channel `c` (R169). -/
def putLms (s : State) (c : Fin 8) : State := (s.put (pack4 (s.lms.get c).h)).put (pack4 (s.lms.get c).w)

/-- The samples of one slice, from `PCMIN` (R169, 20_memory.md R68). -/
def State.sliceSamples (s : State) (p : SlicePos) : List Sample :=
  (List.range p.len).map fun k => s.sampleRead ((s.samplePos.toNat + 20 * p.s + k) * s.channels.toNat + p.c.val)

/-- One slice of a frame: search, commit, put (R169). -/
def encodeSlice (s : State) (p : SlicePos) : State :=
  let b := s.searchFor p.c (s.sliceSamples p)
  (s.commit p.c b).put b.word

/-- Everything `ENC.FRAME` writes before it moves `SAMPLE_POS` (R169). -/
def encodeFrameBody (s : State) : State :=
  let s1 := (channelList s.channels.toNat).foldl putLms (s.put s.nextFrameHeader)
  (slicePositions s.channels.toNat s.nextFrameLength).foldl encodeSlice { s1 with prevSf := allChannels 0 }

/-- The end of `ENC.FRAME` (R169): `SAMPLE_POS` moves by `flen`, and `PHASE` is `Done` where it reaches `SAMPLES`. -/
def finishEncode (flen : Nat) (s : State) : State :=
  let pos := BitVec.ofNat 32 (s.samplePos.toNat + flen)
  { s with samplePos := pos, phase := if pos = s.samples then .done else s.phase }

/-- `ENC.FRAME` (R169). -/
def execEncFrame (s : State) : Result :=
  operate s do
    noOperand s.arg
    require (frameAdmitted .enc s) (illegal 6)
    return (finishEncode s.nextFrameLength (encodeFrameBody s)).returns []

/-! ## Frame decode -/

/-- The units of a frame in stream order, each consumed from the input where it stands (R172). -/
def decodeUnits (units : List (Nat × WirePos)) (s : State) : State :=
  units.foldl (fun t u => applyWord u.2 (t.bsinWord u.1) t) s

/-- The cursors after a decoded frame of `n` samples per channel (R172, D20). -/
def advanceInput (n : Nat) (s : State) : State :=
  { s with
    bsinPos := BitVec.ofNat 64 (s.bsinPos.toNat + frameBytes s.channels.toNat n)
    samplePos := BitVec.ofNat 32 (s.samplePos.toNat + n) }

/-- After a frame is decoded (R173). -/
def finishDecode (s : State) : State :=
  if s.samplePos < s.samples ∧ s.bsinPos < s.bsinLen then s else { s with samples := s.samplePos, phase := .done }

/-- Everything `DEC.FRAME` does for a frame of `n` samples per channel that has passed the checks (R172, R173). -/
def decodeFrameBody (n : Nat) (s : State) : State :=
  finishDecode (advanceInput n (decodeUnits (frameUnits s.bsinPos.toNat s.channels.toNat n) s))

/-- The header word of the frame at `BSIN_POS` (R171). -/
def State.headerWord (s : State) : WireWord := s.bsinWord s.bsinPos.toNat

/-- The validation of the frame at `BSIN_POS` (R171). -/
def checkFrame (s : State) : Except Cause Unit := do
  checkPrelude s
  checkFrameHeader s (headerChannels s.headerWord) (headerSampleRate s.headerWord) (headerFsamples s.headerWord)
    (headerFsize s.headerWord)

/-- `DEC.FRAME` (R172). -/
def execDecFrame (s : State) : Result :=
  operate s do
    noOperand s.arg
    require (frameAdmitted .dec s) (illegal 6)
    checkFrame s
    return (decodeFrameBody (headerFsamples s.headerWord).toNat s).returns []

end Sys2Proof.Machine
end

