-- ==== Sys2Proof/Machine/Stream.lean ====
section
/-! DEFINITION. Opening a stream, reading a register, and `NOP`: 44_stream.md. -/

namespace Sys2Proof.Machine

/-- The encoded length of a stream (20_memory.md R62). -/
def encodedLength (channels samples : Nat) : Nat :=
  8 + 8 * ceilDiv samples 5120 + 16 * channels * ceilDiv samples 5120 + 8 * channels * ceilDiv samples 20

/-- The checks of `ENC.OPEN` (R190), in order. -/
def checkParameters (p : EncOpenOperands) : Except Cause Unit := do
  require (1 ≤ p.channels && p.channels ≤ 8) ⟨.invalidParameters, 1⟩
  require (1 ≤ p.sampleRate && p.sampleRate ≤ 16777215) ⟨.invalidParameters, 2⟩
  require (1 ≤ p.samples && p.samples ≤ 4294967295) ⟨.invalidParameters, 3⟩
  require (p.channels * p.samples ≤ p.pcmLen) ⟨.sampleCountMismatch, 0⟩

/-- What `ENC.OPEN` writes (R190). -/
def openEncoder (p : EncOpenOperands) (s : State) : State :=
  { s with
    channels := BitVec.ofNat 8 p.channels
    sampleRate := BitVec.ofNat 24 p.sampleRate
    samples := BitVec.ofNat 32 p.samples
    pcminLen := BitVec.ofNat 64 p.pcmLen
    outTotal := BitVec.ofNat 64 (encodedLength p.channels p.samples)
    lms := allChannels Lms.seed
    prevSf := allChannels 0
    errorCount := 0
    samplePos := 0
    bsout := memWrite s.bsout 0 8 (fileHeaderPack (BitVec.ofNat 32 p.samples)).toNat
    bsoutPos := 8
    mode := .enc
    phase := .needFrame }

/-- `ENC.OPEN` (R190). -/
def execEncOpen (s : State) : Result :=
  operate s do
    let p ← encOpenOperands s.arg
    require (opensAdmitted s) (illegal 6)
    checkParameters p
    return (openEncoder p s).returns []

/-- The checks of `DEC.OPEN` (R191), in order. -/
def checkStream (bsLen : Nat) (s : State) : Except Cause Unit := do
  require (16 ≤ bsLen) ⟨.fileTooSmall, 0⟩
  require (fileHeaderMagic (s.bsinWord 0) = magic) ⟨.badMagic, 0⟩
  checkSampleCount (fileHeaderSamples (s.bsinWord 0))
  checkFirstHeader (headerChannels (s.bsinWord 8)) (headerSampleRate (s.bsinWord 8))

/-- What `DEC.OPEN` writes (R191). `PCMOUT` is sized anew and holds no sample of this decode yet (R191, 20_memory.md
R54). DEDUCED (notes/assumptions/8.md). -/
def openDecoder (bsLen : Nat) (s : State) : State :=
  { s with
    channels := headerChannels (s.bsinWord 8)
    sampleRate := headerSampleRate (s.bsinWord 8)
    samples := fileHeaderSamples (s.bsinWord 0)
    bsinLen := BitVec.ofNat 64 bsLen
    bsinPos := 8
    samplePos := 0
    lms := allChannels Lms.seed
    pcmout := []
    mode := .dec
    phase := .needFrame }

/-- `DEC.OPEN` (R191). -/
def execDecOpen (s : State) : Result :=
  operate s do
    let bsLen ← oneOperand isUnsigned64 s.arg
    require (opensAdmitted s) (illegal 6)
    checkStream bsLen.toNat s
    return (openDecoder bsLen.toNat s).returns []

/-- The value of a numbered register, or sub-cause 4 (R192, 30_encoding.md R72 (d)). -/
def registerOperand (r : BitVec 16) (s : State) : Except Cause (BitVec 64) :=
  match s.readRegister r with
  | some v => .ok v
  | none => .error (illegal 4)

/-- `RDREG r` (R192): legal in every phase. -/
def execRdreg (r : BitVec 16) (s : State) : Result :=
  settle s do
    let v ← registerOperand r s
    noOperand s.arg
    return s.returns [wordResult v]

/-- `NOP` (R193): nothing, in every phase. -/
def execNop (s : State) : Result :=
  settle s do
    noOperand s.arg
    return s

end Sys2Proof.Machine
end

