-- ==== Sys2Proof/Machine/Dispatch.lean ====
section
/-! DEFINITION. `exec`: one arm per constructor of `Instr`, each one call of its meaning. -/

namespace Sys2Proof.Machine

def exec (i : Instr) (s : State) : Host.Outcome State Fault Refusal :=
  match i with
  | .nop => Sys2Proof.Machine.execNop s
  | .rdreg r => Sys2Proof.Machine.execRdreg r s
  | .fnClamp => Sys2Proof.Machine.execFnClamp s
  | .fnClamps16 => Sys2Proof.Machine.execFnClamps16 s
  | .fnDivide sf => Sys2Proof.Machine.execFnDivide sf s
  | .tblRecip sf => Sys2Proof.Machine.execTblRecip sf s
  | .tblQuant index => Sys2Proof.Machine.execTblQuant index s
  | .tblDequant sf q => Sys2Proof.Machine.execTblDequant sf q s
  | .lmsInit => Sys2Proof.Machine.execLmsInit s
  | .lmsLoad c => Sys2Proof.Machine.execLmsLoad c s
  | .lmsStore c => Sys2Proof.Machine.execLmsStore c s
  | .lmsPredict c => Sys2Proof.Machine.execLmsPredict c s
  | .lmsUpdate c => Sys2Proof.Machine.execLmsUpdate c s
  | .decSlice c len => Sys2Proof.Machine.execDecSlice c len s
  | .encTrial c sf len => Sys2Proof.Machine.execEncTrial c sf len s
  | .encSlice c len => Sys2Proof.Machine.execEncSlice c len s
  | .encOpen => Sys2Proof.Machine.execEncOpen s
  | .encFrame => Sys2Proof.Machine.execEncFrame s
  | .decOpen => Sys2Proof.Machine.execDecOpen s
  | .decFrame => Sys2Proof.Machine.execDecFrame s
  | .fileHeader samples => Sys2Proof.Machine.execFileHeader samples s
  | .frameHeader role ch sr fsamples fsize => Sys2Proof.Machine.execFrameHeader role ch sr fsamples fsize s
  | .lmsHistory c h0 h1 h2 h3 => Sys2Proof.Machine.execLmsHistory c h0 h1 h2 h3 s
  | .lmsWeights c w0 w1 w2 w3 => Sys2Proof.Machine.execLmsWeights c w0 w1 w2 w3 s
  | .slice p sf qs => Sys2Proof.Machine.execSlice p sf qs s

end Sys2Proof.Machine
end

