-- ==== Sys2Proof/Machine/Issue.lean ====
section
/-! DEFINITION. What the host's actions do: a command word on `CMD` (30_encoding.md R72), `RESET`
(70_reset_and_hazards.md R250), filling an input buffer (R254, R255, 20_memory.md R64); and the bits of an instruction
placed where the step takes its next one. -/

namespace Sys2Proof.Machine

/-- The error of bits that are no instruction (30_encoding.md R72 (a), (b), R82). -/
def decodeCause : DecodeError → Cause
  | .reservedOp => illegal 1
  | .unusedField => illegal 2
  | .badMagic => ⟨.badMagic, 0⟩

/-- Run a command word on the operands in `ARG`: the instruction it decodes to, or `IllegalCommand` 1 or 2, which the
error phase ignores (60_exceptions.md R223, R233). -/
def issue (w : CommandWord) (s : State) : Result :=
  match decodeCommand w with
  | .ok i => exec i s
  | .error e => settle s (.error (decodeCause e))

/-- One action of the host. Filling a buffer a running stream reads is refused (20_memory.md R64, 70_reset_and_hazards.md
R258). -/
def act (a : HostAction) (s : State) : Result :=
  match a with
  | .command w arg => issue w { s with arg := arg }
  | .reset => .next s.resetInput
  | .fillBsin bytes =>
    if frameAdmitted .dec s then .refused .hostBreaksBufferRule else .next { s with bsin := Memory.ofList bytes }
  | .fillPcmin samples =>
    if frameAdmitted .enc s then .refused .hostBreaksBufferRule else .next { s with pcmin := Memory.ofList samples }

/-- The operands a command word of the opcode table is issued with where none are given: zeros, as many as the operation
takes (notes/assumptions/15.md). -/
def zeroOperands (w : CommandWord) : List Int :=
  match decodeCommand w with
  | .ok i => List.replicate i.operandCount 0
  | .error _ => []

/-- The eight bytes of a 64-bit word, most significant first (20_memory.md R56). -/
def wordBytes (w : WireWord) : List Byte :=
  [w.extractLsb' 56 8, w.extractLsb' 48 8, w.extractLsb' 40 8, w.extractLsb' 32 8,
   w.extractLsb' 24 8, w.extractLsb' 16 8, w.extractLsb' 8 8, w.extractLsb' 0 8]

/-- Place the bits of an instruction first in line: a command word as the host's next action; a wire word as the first
unit of `BSIN`, eight zero bytes after it, with the `DEC.OPEN` that consumes it (notes/assumptions/14.md, 15.md). -/
def placeWord (s : State) (nbits w : Nat) : State :=
  if nbits ≤ 32 then
    let word := BitVec.ofNat 32 w
    { s with pending := .command word (zeroOperands word) :: s.pending }
  else
    { s with
      bsin := Memory.ofList (wordBytes (BitVec.ofNat 64 w) ++ wordBytes 0)
      pending := .command (commandWord 0x48 0 0 0) [16] :: s.pending }

end Sys2Proof.Machine
end

