-- ==== Sys2Proof/Machine/Step.lean ====
section
/-! DEFINITION. One step: the oldest waiting action of the host (00_scope.md R13, R15). -/

namespace Sys2Proof.Machine

/-- One step. With no action waiting the block holds its state (60_exceptions.md R232, 10_state.md R34).
DESIGN CHOICE (notes/assumptions/1.md). -/
def step (s : State) : Host.Outcome State Fault Refusal :=
  match s.pending with
  | [] => .next s
  | a :: rest => act a { s with pending := rest }

/-- The state with an instruction's bits placed where `step` takes its next one. -/
def State.withFetchWord (s : State) (nbits w : Nat) : State := placeWord s nbits w

end Sys2Proof.Machine
end

