-- ==== Sys2Proof/Machine/Pseudo.lean ====
section
/-! DEFINITION. The pseudo-operations of 44_stream.md R194 to R196: the host programs `ENCODE`, `DECODE` and
`DECODE_HEADER`, as functions over the step. They are no instructions (30_encoding.md R85): a program acts by command words
and buffer fills alone, and decides on the values `RDREG` returns (R201). -/

namespace Sys2Proof.Machine

/-! ## What a host program is made of -/

/-- Let the host take one action now, before any other that waits. -/
def hostDoes (a : HostAction) (s : State) : Result := step { s with pending := a :: s.pending }

/-- Continue where the answer is a next state. -/
def thenDo {α : Type} (r : Result) (k : State → Host.Outcome α Fault Refusal) : Host.Outcome α Fault Refusal :=
  match r with
  | .next s => k s
  | .fault f => .fault f
  | .refused f => .refused f

/-- `RDREG r`, and continue with the value it put on `RES`. (`RDREG` of a defined register always puts one there, R192.) -/
def hostReads {α : Type} (r : BitVec 16) (k : Int → State → Host.Outcome α Fault Refusal) (s : State) :
    Host.Outcome α Fault Refusal :=
  thenDo (hostDoes (.command (commandWord 0x01 0 0 r) []) s) fun t => k (t.res.headD 0) t

/-- `STATUS.PHASE` of a value of `STATUS`: bits 1..0 (10_state.md R30). -/
def statusPhase (status : Int) : Int := status % 4

/-- `STATUS.ERR` of a value of `STATUS`: bits 7..4 (10_state.md R30). -/
def statusErr (status : Int) : BitVec 4 := BitVec.ofInt 4 (status / 16)

/-- `while STATUS.PHASE = NeedFrame: <the frame operation>`, the operation at most `fuel` times. -/
def whileNeedFrame (w : CommandWord) : Nat → State → Result
  | 0, s => .next s
  | fuel + 1, s =>
    hostReads 0x00 (fun status s =>
      if statusPhase status = 1 then thenDo (hostDoes (.command w []) s) (whileNeedFrame w fuel) else .next s) s

/-! ## What a host program answers -/

/-- The document's `StreamDescriptor` (10_state.md R26), as the host reads it. -/
structure StreamDescriptor where
  channels   : Nat
  sampleRate : Nat
  samples    : Nat
deriving DecidableEq, Repr

/-- How a host program ends: the state of the block, and the program's result or the error `ERR` it read. -/
structure HostRun (α : Type) where
  state  : State
  result : Except (BitVec 4) α
deriving DecidableEq, Repr

/-- The answer of a host program. -/
abbrev HostAnswer (α : Type) := Host.Outcome (HostRun α) Fault Refusal

/-- `if STATUS.PHASE = <phase> then … else the error ERR`. -/
def hostEnds {α : Type} (phase : Int) (k : State → HostAnswer α) (s : State) : HostAnswer α :=
  hostReads 0x00 (fun status s =>
    if statusPhase status = phase then k s else .next ⟨s, .error (statusErr status)⟩) s

/-- `(CHANNELS, SAMPLE_RATE, SAMPLES)`, by three `RDREG` (R196). -/
def hostReadsDescriptor {α : Type} (k : StreamDescriptor → State → HostAnswer α) (s : State) : HostAnswer α :=
  hostReads 0x01 (fun channels => hostReads 0x02 fun sampleRate => hostReads 0x03 fun samples =>
    k ⟨channels.toNat, sampleRate.toNat, samples.toNat⟩) s

/-- The first `n` locations of a buffer as the host reads them: each with the value it holds, if it holds one. -/
def hostBuffer {α : Type} (m : Memory α) (n : Nat) : List (Option α) := (List.range n).map m.read

/-! ## The programs -/

/-- `ENCODE(sample_rate, channels, samples, pcm)` (R194). `ENC.FRAME` runs `ceil(samples / 5120)` times, so the bound lets
the loop end by its own test. -/
def hostEncode (sampleRate channels samples : Nat) (pcm : List Sample) (s : State) : HostAnswer (List (Option Byte)) :=
  thenDo (hostDoes (.fillPcmin pcm) s) fun s =>
  thenDo (hostDoes (.command (commandWord 0x40 0 0 0) [sampleRate, channels, samples, (pcm.length : Int)]) s) fun s =>
  thenDo (whileNeedFrame (commandWord 0x41 0 0 0) (ceilDiv samples 5120 + 1) s) fun s =>
  hostEnds 2 (hostReads 0x0A fun total s => .next ⟨s, .ok (hostBuffer s.bsout total.toNat)⟩) s

/-- `host: BSIN <- bytes`, then `DEC.OPEN : length(bytes)`. -/
def hostOpensDecode (bytes : List Byte) (s : State) : Result :=
  thenDo (hostDoes (.fillBsin bytes) s) fun s =>
  hostDoes (.command (commandWord 0x48 0 0 0) [(bytes.length : Int)]) s

/-- `DECODE_HEADER(bytes)` (R196): the descriptor where the block is left in `NeedFrame`, ready to decode, or the error. -/
def hostDecodeHeader (bytes : List Byte) (s : State) : HostAnswer StreamDescriptor :=
  thenDo (hostOpensDecode bytes s) (hostEnds 1 (hostReadsDescriptor fun d s => .next ⟨s, .ok d⟩))

/-- `DECODE(bytes)` (R195). Every `DEC.FRAME` that does not raise takes at least 24 bytes, so the bound lets the loop end by
its own test. On an error the result is the error alone. -/
def hostDecode (bytes : List Byte) (s : State) : HostAnswer (StreamDescriptor × List (Option Sample)) :=
  thenDo (hostOpensDecode bytes s) fun s =>
  thenDo (whileNeedFrame (commandWord 0x49 0 0 0) (bytes.length / 24 + 2) s)
    (hostEnds 2 (hostReadsDescriptor fun d s => .next ⟨s, .ok (d, hostBuffer s.pcmout (d.samples * d.channels))⟩))

end Sys2Proof.Machine
end

