-- ==== Sys2Proof/Safety.lean ====
section
/-! DEFINITION. What a safe run is: the states the host's actions can lead to from power-on, and the invariants the
rules promise of them. -/

namespace Sys2Proof.Machine

/-- All four address spaces are in canonical form. -/
abbrev State.buffersWf (s : State) : Prop :=
  Memory.wf s.bsin ∧ Memory.wf s.bsout ∧ Memory.wf s.pcmin ∧ Memory.wf s.pcmout

/-- `ERR` is set exactly in the error phase, and there is no sub-cause without an error (10_state.md R29,
60_exceptions.md R224). -/
abbrev State.errorWf (s : State) : Prop := (s.phase = .error ↔ s.err ≠ 0) ∧ (s.err = 0 → s.errInfo = 0)

/-- A stream has a mode exactly when its phase says one was opened (10_state.md R24). -/
abbrev State.modeWf (s : State) : Prop :=
  (s.phase = .needHeader → s.mode = .none) ∧ (s.phase = .needFrame ∨ s.phase = .done → s.mode ≠ .none)

/-- The descriptor of an opened stream is legal (10_state.md R26). -/
abbrev State.descriptorWf (s : State) : Prop :=
  s.mode ≠ .none → 1 ≤ s.channels.toNat ∧ s.channels.toNat ≤ 8 ∧ 1 ≤ s.sampleRate.toNat

/-- The bounds of the cursors (10_state.md R24); where a frame is due there is one to take. -/
abbrev State.cursorWf (s : State) : Prop :=
  s.samplePos.toNat ≤ s.samples.toNat ∧ s.bsinPos.toNat ≤ s.bsinLen.toNat ∧
  (s.phase = .needFrame → s.samplePos.toNat < s.samples.toNat) ∧
  (s.phase = .needFrame → s.mode = .dec → s.bsinPos.toNat < s.bsinLen.toNat)

/-- The encoder's output cursor and total: the bytes written are those of the frames encoded so far, whole frames of 5120
samples but for the last, and the input buffer is long enough (20_memory.md R53, R62, 10_state.md R24). -/
abbrev State.outputWf (s : State) : Prop :=
  s.bsoutPos.toNat ≤ s.outTotal.toNat ∧ s.outTotal.toNat < 2 ^ 34 ∧
  (s.mode = .enc →
    s.bsoutPos.toNat = encodedLength s.channels.toNat s.samplePos.toNat ∧
    s.outTotal.toNat = encodedLength s.channels.toNat s.samples.toNat ∧
    (s.samplePos.toNat % 5120 = 0 ∨ s.samplePos.toNat = s.samples.toNat) ∧
    s.channels.toNat * s.samples.toNat ≤ s.pcminLen.toNat)

/-- An encode that is neither running nor failed has encoded every sample (44_stream.md R198). -/
abbrev State.encodeDoneWf (s : State) : Prop := s.mode = .enc → s.phase = .done → s.samplePos = s.samples

/-- The invariant of the registers. -/
structure State.Inv (s : State) : Prop where
  error      : s.errorWf
  mode       : s.modeWf
  descriptor : s.descriptorWf
  cursor     : s.cursorWf
  output     : s.outputWf
  encodeDone : s.encodeDoneWf

/-- `PCMOUT` holds exactly the samples emitted so far: indices `0 .. SAMPLE_POS·CHANNELS − 1` (20_memory.md R54). -/
def State.pcmoutExact (s : State) : Prop :=
  s.mode = .dec → ∀ i, (Memory.read s.pcmout i).isSome = true ↔ i < s.samplePos.toNat * s.channels.toNat

/-- Every byte of `BSOUT` below the cursor has been written (20_memory.md R52). -/
def State.bsoutWritten (s : State) : Prop :=
  s.mode = .enc → ∀ a, a < s.bsoutPos.toNat → (Memory.read s.bsout a).isSome = true

/-- The states a host can bring the block to: power-on with any actions waiting, more actions queued at any time, and
steps (00_scope.md R15, 70_reset_and_hazards.md R251). -/
inductive Reachable : State → Prop where
  | powerOn (params : Config.Params) : Reachable { State.reset with params := params }
  | queue {s : State} (h : Reachable s) (actions : List HostAction) :
      Reachable { s with pending := s.pending ++ actions }
  | step {s t : State} (h : Reachable s) (hs : Machine.step s = .next t) : Reachable t

end Sys2Proof.Machine
end

