-- ==== Sys2Proof/Certificates/Slice0/Obligations.lean ====
section
/-! DEFINITION. The statements for the provers, from the spec's numbered rules, and the few functions they are written
with. -/

open Sys2Proof Sys2Proof.Machine

namespace Sys2Proof.Claims

/-! ## Functions the statements are written with -/

/-- The `int16` values of four registers, index 0 first. -/
def ints (v : Quad Sample) : List Int := [v.t0.toInt, v.t1.toInt, v.t2.toInt, v.t3.toInt]

/-- `wrap16(v)` (00_scope.md R10), on integers. -/
def wrap16 (v : Int) : Int := (v + 32768) % 65536 - 32768

/-- `new = update(old, x, dq)` (41_lms.md R122, R123), on the integers the registers hold. -/
def movesTo (old new : Lms) (x dq : Int) : Prop :=
  ints new.h = (ints old.h).drop 1 ++ [x] ∧
  ints new.w = List.zipWith (fun h w => wrap16 (if h < 0 then w - dq / 16 else w + dq / 16)) (ints old.h) (ints old.w)

/-- The number of the command's `c` field, if its row uses one (30_encoding.md R73). -/
def channelNumber : Instr → Option Nat
  | .lmsLoad c => some c.toNat
  | .lmsStore c => some c.toNat
  | .lmsPredict c => some c.toNat
  | .lmsUpdate c => some c.toNat
  | .decSlice c _ => some c.toNat
  | .encTrial c _ _ => some c.toNat
  | .encSlice c _ => some c.toNat
  | _ => none

/-- The term is one of the twenty commands. -/
def isCommand : Instr → Bool
  | .fileHeader _ => false
  | .frameHeader _ _ _ _ _ => false
  | .lmsHistory _ _ _ _ _ => false
  | .lmsWeights _ _ _ _ _ => false
  | .slice _ _ _ => false
  | _ => true

/-- R72 (c): the channel is 0..7. -/
def channelLegal (i : Instr) : Prop := ∀ c, channelNumber i = some c → c ≤ 7

/-- R72 (d): the immediate is in the operation's range. -/
def immLegal : Instr → Prop
  | .rdreg r => r.toNat ≤ 0x0A ∨ (0x10 ≤ r.toNat ∧ r.toNat ≤ 0x17)
  | .tblQuant i => i.toNat ≤ 16
  | .tblDequant _ q => q.toNat ≤ 7
  | .decSlice _ len => 1 ≤ len.toNat ∧ len.toNat ≤ 20
  | .encTrial _ _ len => 1 ≤ len.toNat ∧ len.toNat ≤ 20
  | .encSlice _ len => 1 ≤ len.toNat ∧ len.toNat ≤ 20
  | _ => True

def int16 (v : Int) : Prop := -32768 ≤ v ∧ v ≤ 32767
def int64 (v : Int) : Prop := -9223372036854775808 ≤ v ∧ v ≤ 9223372036854775807
def word64 (v : Int) : Prop := 0 ≤ v ∧ v < 18446744073709551616

/-- R72 (e): `ARG` holds exactly the operands of the operation's rule, each in range (R101, R103, R106, R126, R129, R143,
R146, R167, R190, R191; none for the others). -/
def operandsLegal : Instr → List Int → Prop
  | .fnClamp, arg => arg.length = 3 ∧ ∀ v ∈ arg, int64 v
  | .fnClamps16, arg => arg.length = 1 ∧ ∀ v ∈ arg, int64 v
  | .fnDivide _, arg => arg.length = 1 ∧ ∀ v ∈ arg, -2147483648 < v ∧ v < 2147483648
  | .lmsLoad _, arg => arg.length = 2 ∧ ∀ v ∈ arg, word64 v
  | .lmsUpdate _, arg => arg.length = 2 ∧ ∀ v ∈ arg, int16 v
  | .decSlice _ _, arg => arg.length = 1 ∧ ∀ v ∈ arg, word64 v
  | .encTrial _ _ len, arg => arg.length = len.toNat ∧ ∀ v ∈ arg, int16 v
  | .encSlice _ len, arg => arg.length = len.toNat ∧ ∀ v ∈ arg, int16 v
  | .encOpen, arg => arg.length = 4 ∧ ∀ v ∈ arg, word64 v
  | .decOpen, arg => arg.length = 1 ∧ ∀ v ∈ arg, word64 v
  | _, arg => arg = []

/-- R199, outside the error phase: the phase and the mode admit the operation. -/
def phaseAdmits : Instr → State → Prop
  | .encOpen, s => s.phase = .needHeader ∨ s.phase = .done
  | .decOpen, s => s.phase = .needHeader ∨ s.phase = .done
  | .encFrame, s => s.phase = .needFrame ∧ s.mode = .enc
  | .decFrame, s => s.phase = .needFrame ∧ s.mode = .dec
  | _, _ => True

/-- `ceil(n / 20)`, the slices per channel of a frame (43_frame.md R168). -/
def slices (n : Nat) : Nat := (n + 19) / 20

/-- `MemRead` of eight bytes of `BSOUT`, where all eight have been written. -/
def bsoutWord (s : State) (a : Nat) : Option Nat :=
  if (List.range 8).all (fun k => (Memory.read s.bsout (a + k)).isSome) then
    some (memRead (fun b => (Memory.read s.bsout b).getD 0) a 8)
  else none

/-- Run instructions one after another, as far as they answer a next state. -/
def execAll : List Instr → State → Result
  | [], s => .next s
  | i :: is, s => thenDo (exec i s) (execAll is)

/-- The wire words of the frame at `BSIN_POS` that follow its header, in stream order, each decoded at its place
(20_memory.md R61, 30_encoding.md R81). -/
def frameInstructions (s : State) : List Instr :=
  let C := s.channels.toNat
  let base := s.bsinPos.toNat
  let n := s.headerWord.toNat / 65536 % 65536
  let channels := (List.finRange 8).filter (fun c => c.val < C)
  let at' (a : Nat) (p : WirePos) : List Instr :=
    match decodeWire p (s.bsinWord a) with
    | .ok i => [i]
    | .error _ => []
  (channels.flatMap fun c => at' (base + 8 + 16 * c.val) (.history c) ++ at' (base + 16 + 16 * c.val) (.weights c)) ++
  ((List.range (slices n)).flatMap fun k => channels.flatMap fun c =>
    at' (base + 8 + 16 * C + 8 * (k * C + c.val)) (.slice ⟨k, c, min 20 (n - 20 * k)⟩))

/-- The quantized indices of a trial, sample by sample (42_slice.md R144). -/
def trialIndices (sf : BitVec 4) : Lms → List Sample → List (BitVec 3)
  | _, [] => []
  | l, x :: xs => (encSample l sf x).q :: trialIndices sf (encSample l sf x).lms xs

/-- The reconstructed samples of a trial. -/
def trialSamples (sf : BitVec 4) : Lms → List Sample → List Sample
  | _, [] => []
  | l, x :: xs => (encSample l sf x).recon :: trialSamples sf (encSample l sf x).lms xs

/-- What encoding a frame slice by slice gives: the state, the words in order, and the reconstructed samples with their
sample indices. -/
structure EncodedFrame where
  state   : State
  words   : List Int
  samples : List (Nat × Sample)

/-- The sample index of sample `k` of the slice at `p` (slice number and channel) of the frame at `SAMPLE_POS` (20_memory.md
R68). -/
def sliceIndex (src : State) (p : Nat × Fin 8) (k : Nat) : Nat :=
  (src.samplePos.toNat + 20 * p.1 + k) * src.channels.toNat + p.2.val

/-- Encode one slice of a frame by the command `ENC.SLICE`, keeping the word it returns and the samples that the trial of the
scale factor it returns reconstructs from the registers before it. -/
def sliceByCommand (src : State) (acc : EncodedFrame) (p : Nat × Fin 8) : EncodedFrame :=
  let len := min 20 (min 5120 (src.samples.toNat - src.samplePos.toNat) - 20 * p.1)
  let xs := (List.range len).map fun k => src.sampleRead (sliceIndex src p k)
  match exec (.encSlice (BitVec.ofNat 4 p.2.val) (BitVec.ofNat 16 len))
      { acc.state with arg := xs.map BitVec.toInt } with
  | .next t =>
    { state := t
      words := acc.words ++ t.res.take 1
      samples := acc.samples ++
        (trialSamples (BitVec.ofInt 4 (t.res.getD 1 0)) (acc.state.lms.get p.2) xs).mapIdx
          (fun k x => (sliceIndex src p k, x)) }
  | _ => acc

/-- The slices of the frame at `SAMPLE_POS`, slice-major and channel-minor, each by `ENC.SLICE`, from `PREV_SF` all
zero. -/
def frameByCommands (s : State) : EncodedFrame :=
  let flen := min 5120 (s.samples.toNat - s.samplePos.toNat)
  let places := (List.range (slices flen)).flatMap fun k =>
    ((List.finRange 8).filter (fun c => c.val < s.channels.toNat)).map fun c => (k, c)
  places.foldl (sliceByCommand s) ⟨{ s with prevSf := allChannels 0 }, [], []⟩

/-- The first check of 43_frame.md R171 that the frame at `BSIN_POS` fails, on the bytes of its header word. -/
def frameError (s : State) : Option Cause :=
  let C := s.channels.toNat
  let rem := s.bsinLen.toNat - s.bsinPos.toNat
  let w := memRead s.bsinByte s.bsinPos.toNat 8
  let fsamples := w / 2 ^ 16 % 2 ^ 16
  let fsize := w % 2 ^ 16
  if rem < 8 + 16 * C then some ⟨.frameTooSmall, 0⟩
  else if w / 2 ^ 56 ≠ C then some ⟨.invalidFrame, 1⟩
  else if w / 2 ^ 32 % 2 ^ 24 ≠ s.sampleRate.toNat then some ⟨.invalidFrame, 2⟩
  else if fsize > rem then some ⟨.invalidFrame, 3⟩
  else if fsize < 8 + 16 * C then some ⟨.invalidFrame, 4⟩
  else if fsamples * C > (fsize - 8 - 16 * C) / 8 * 20 then some ⟨.invalidFrame, 5⟩
  else if s.samplePos.toNat + fsamples > s.samples.toNat then some ⟨.invalidFrame, 6⟩
  else if 8 + 16 * C + 8 * slices fsamples * C > rem then some ⟨.invalidFrame, 7⟩
  else none

/-- The first check of `DEC.OPEN` that fails (44_stream.md R191). -/
def streamError (s : State) (bsLen : Nat) : Option Cause :=
  let fh := memRead s.bsinByte 0 8
  let w := memRead s.bsinByte 8 8
  if bsLen < 16 then some ⟨.fileTooSmall, 0⟩
  else if fh / 2 ^ 32 ≠ 0x716f6166 then some ⟨.badMagic, 0⟩
  else if fh % 2 ^ 32 = 0 then some ⟨.noSamples, 0⟩
  else if w / 2 ^ 56 = 0 then some ⟨.invalidStreamHeader, 1⟩
  else if w / 2 ^ 32 % 2 ^ 24 = 0 then some ⟨.invalidStreamHeader, 2⟩
  else if w / 2 ^ 56 > 8 then some ⟨.invalidStreamHeader, 3⟩
  else none

/-- The first check of `ENC.OPEN` that fails (44_stream.md R190). -/
def parameterError (sampleRate channels samples pcmLen : Int) : Option Cause :=
  if channels < 1 ∨ channels > 8 then some ⟨.invalidParameters, 1⟩
  else if sampleRate < 1 ∨ sampleRate > 16777215 then some ⟨.invalidParameters, 2⟩
  else if samples < 1 ∨ samples > 4294967295 then some ⟨.invalidParameters, 3⟩
  else if pcmLen < channels * samples then some ⟨.sampleCountMismatch, 0⟩
  else none

/-- Trial `i` of the search from `prev` (43_frame.md R161): the scale factor `(i + prev) mod 16`. -/
def nthTrial (l : Lms) (prev : BitVec 4) (xs : List Sample) (i : Nat) : Trial :=
  encTrial l (BitVec.ofNat 4 ((i + prev.toNat) % 16)) xs

/-- With the literal metric, trial `j` is the first one accepted after trial `i` was (43_frame.md R160, R162): its error is
below the rank of trial `i`, and that of no trial between them is. -/
def acceptedAfter (l : Lms) (prev : BitVec 4) (xs : List Sample) (i j : Nat) : Prop :=
  i < j ∧ (nthTrial l prev xs j).err < (nthTrial l prev xs i).rank ∧
  ∀ k, i < k → k < j → (nthTrial l prev xs i).rank ≤ (nthTrial l prev xs k).err

/-- The `op` bytes of the opcode map (30_encoding.md R73), and those whose row uses the field `c`, `sf`, `imm`. -/
def mappedOps : List Nat :=
  [0x00, 0x01, 0x10, 0x11, 0x12, 0x18, 0x19, 0x1A, 0x20, 0x21, 0x22, 0x23, 0x24, 0x30, 0x31, 0x32, 0x40, 0x41, 0x48, 0x49]
def opsWithChannel : List Nat := [0x21, 0x22, 0x23, 0x24, 0x30, 0x31, 0x32]
def opsWithScaleFactor : List Nat := [0x12, 0x18, 0x1A, 0x31]
def opsWithImmediate : List Nat := [0x01, 0x19, 0x1A, 0x30, 0x31, 0x32]

end Sys2Proof.Claims

open Sys2Proof.Claims

/-! ## Encoding -/

/-- 30_encoding.md R73, 95_test_vectors.md 2.1: words written out decode to the operations they stand for. -/
def Obligations.CommandWordsDecodeAsTabled : Prop :=
  decodeCommand 0x00000000 = .ok .nop ∧
  decodeCommand 0x01000013 = .ok (.rdreg 0x13) ∧
  decodeCommand 0x12010000 = .ok (.fnDivide 1) ∧
  decodeCommand 0x1a0f0007 = .ok (.tblDequant 15 7) ∧
  decodeCommand 0x21100000 = .ok (.lmsLoad 1) ∧
  decodeCommand 0x31070003 = .ok (.encTrial 0 7 3) ∧
  decodeCommand 0x32700014 = .ok (.encSlice 7 20) ∧
  decodeCommand 0x49000000 = .ok .decFrame ∧
  decodeWire (.frameHeader .frame) 0x01001f4000030020 = .ok (.frameHeader .frame 1 8000 3 32) ∧
  decodeWire (.slice ⟨0, 0, 3⟩) 0x85f0000000000000 = .ok (.slice ⟨0, 0, 3⟩ 8 0x5f0000000000000)

/-- No field of any instruction is dropped: decoding its bits where they stand gives it back. -/
def Obligations.DecodeOfEncodeIsTheInstruction : Prop := ∀ i : Instr, decode (encode i) = .ok i

/-- No bit of a word is ignored: what decodes is exactly the encoding of what it decodes to. -/
def Obligations.EncodeOfDecodeIsTheWord : Prop := ∀ (l : Located) (i : Instr), decode l = .ok i → encode i = l

/-- R72 (a) and (b), R73: a step on a word whose `op` is not in the map, or with a field set that the operation does not
use, raises `IllegalCommand` 1 or 2 and changes nothing else. (That the command and its operands come from a queue is the model's
choice, notes/assumptions/1.md.) -/
def Obligations.ReservedAndMalformedWordsRaise : Prop :=
  ∀ (s : State) (w : CommandWord) (arg : List Int) (rest : List HostAction),
    s.pending = .command w arg :: rest → s.phase ≠ .error →
    let s0 := { s with arg := arg, pending := rest }
    let op := w.toNat / 2 ^ 24
    let c := w.toNat / 2 ^ 20 % 16
    let sf := w.toNat / 2 ^ 16 % 16
    let imm := w.toNat % 2 ^ 16
    (op ∉ mappedOps → step s = .next (s0.raise ⟨.illegalCommand, 1⟩)) ∧
    (op ∈ mappedOps →
      (op ∉ opsWithChannel ∧ c ≠ 0) ∨ (op ∉ opsWithScaleFactor ∧ sf ≠ 0) ∨ (op ∉ opsWithImmediate ∧ imm ≠ 0) →
      step s = .next (s0.raise ⟨.illegalCommand, 2⟩))

/-- R72 (c) to (f), R199, R223: outside the error phase a decoded command raises `IllegalCommand` with the sub-cause of the
first test it fails, whatever else is wrong with it, and raises `IllegalCommand` only for those. -/
def Obligations.FirstFailingTestGivesTheSubCause : Prop :=
  ∀ (i : Instr) (s : State), isCommand i = true → s.phase ≠ .error →
    (¬ channelLegal i → exec i s = .next (s.raise ⟨.illegalCommand, 3⟩)) ∧
    (channelLegal i → ¬ immLegal i → exec i s = .next (s.raise ⟨.illegalCommand, 4⟩)) ∧
    (channelLegal i → immLegal i → ¬ operandsLegal i s.arg → exec i s = .next (s.raise ⟨.illegalCommand, 5⟩)) ∧
    (channelLegal i → immLegal i → operandsLegal i s.arg → ¬ phaseAdmits i s →
      exec i s = .next (s.raise ⟨.illegalCommand, 6⟩)) ∧
    (channelLegal i → immLegal i → operandsLegal i s.arg → phaseAdmits i s →
      ∃ t, exec i s = .next t ∧ ∀ n, t ≠ s.raise ⟨.illegalCommand, n⟩)

/-- R86: `pack4` and `unpack4` are inverse, with `pack4` the sum of the four 16-bit patterns at their places. -/
def Obligations.FourRegistersPackAndUnpack : Prop :=
  (∀ v : Quad Sample, unpack4 (pack4 v) = v ∧
    (pack4 v).toNat = v.t0.toNat * 2 ^ 48 + v.t1.toNat * 2 ^ 32 + v.t2.toNat * 2 ^ 16 + v.t3.toNat) ∧
  (∀ w : WireWord, pack4 (unpack4 w) = w)

/-! ## Primitives and tables -/

/-- R104, R105: the four cases of `divide`; a negative residual never yields 0; scale factor 0 divides by 1. -/
def Obligations.DivideFollowsItsFourCases : Prop :=
  ∀ (r : Int) (sf : BitVec 4),
    let n0 := (r * recip sf + 32768) / 65536
    (0 < r → 0 ≤ n0 ∧ divide r sf = n0) ∧ (r = 0 → divide r sf = 0) ∧
    (r < 0 → n0 ≤ 0) ∧ (r < 0 → n0 < 0 → divide r sf = n0) ∧ (r < 0 → n0 = 0 → divide r sf = -1) ∧
    (r < 0 → divide r sf < 0) ∧ divide r 0 = r

/-- R114, R148: the index is the entry of `QUANT` at the clamped scaled residual; that of a negative residual is odd and
dequantizes to a negative number, that of any other is even and dequantizes to a positive one; no dequantized residual is
zero. -/
def Obligations.QuantizerKeepsTheSign : Prop :=
  ∀ (r : Int) (sf : BitVec 4),
    quantIndex r sf = quant (max (-8) (min 8 (divide r sf)) + 8).toNat ∧
    (r < 0 → (quantIndex r sf).toNat % 2 = 1 ∧ dequant sf (quantIndex r sf) < 0) ∧
    (0 ≤ r → (quantIndex r sf).toNat % 2 = 0 ∧ 0 < dequant sf (quantIndex r sf))

/-- R108 to R110: the three tables, `DEQUANT` from the sixteen magnitudes of its rows. -/
def Obligations.TablesHoldTheirEntries : Prop :=
  (List.range 16).map (fun i => recip (BitVec.ofNat 4 i)) =
    [65536, 9363, 3121, 1457, 781, 475, 311, 216, 156, 117, 90, 71, 57, 47, 39, 32] ∧
  (List.range 17).map (fun i => (quant i).toNat) = [7, 7, 7, 5, 5, 3, 3, 1, 0, 0, 2, 2, 4, 4, 6, 6, 6] ∧
  (List.range 16).map (fun i => (List.range 8).map fun q => dequant (BitVec.ofNat 4 i) (BitVec.ofNat 3 q)) =
    ([(1, 3, 5, 7), (5, 18, 32, 49), (16, 53, 95, 147), (34, 113, 203, 315), (63, 210, 378, 588), (104, 345, 621, 966),
      (158, 528, 950, 1477), (228, 760, 1368, 2128), (316, 1053, 1895, 2947), (422, 1405, 2529, 3934),
      (548, 1828, 3290, 5117), (696, 2320, 4176, 6496), (868, 2893, 5207, 8099), (1064, 3548, 6386, 9933),
      (1286, 4288, 7718, 12005), (1536, 5120, 9216, 14336)] : List (Int × Int × Int × Int)).map
      (fun x => [x.1, -x.1, x.2.1, -x.2.1, x.2.2.1, -x.2.2.1, x.2.2.2, -x.2.2.2])

/-- R101, R103, R106: what `FN.CLAMP`, `FN.CLAMPS16` and `FN.DIVIDE` return; they change nothing but `RES`. -/
def Obligations.FnOperationsReturnTheirValues : Prop :=
  ∀ s : State, s.phase ≠ .error →
    (∀ v lo hi, s.arg = [v, lo, hi] → int64 v → int64 lo → int64 hi →
      exec .fnClamp s = .next { s with res := [if v ≤ lo then lo else if v ≥ hi then hi else v] }) ∧
    (∀ v, s.arg = [v] → int64 v → exec .fnClamps16 s = .next { s with res := [max (-32768) (min 32767 v)] }) ∧
    (∀ r sf, s.arg = [r] → -2147483648 < r → r < 2147483648 →
      let n0 := (r * recip sf + 32768) / 65536
      exec (.fnDivide sf) s =
        .next { s with res := [n0 + (if r < 0 then -1 else 0) - (if n0 < 0 then -1 else 0)] })

/-- R111 to R113: what `TBL.RECIP`, `TBL.QUANT` and `TBL.DEQUANT` return; they change nothing but `RES`. -/
def Obligations.TableOperationsReturnTheirEntries : Prop :=
  ∀ s : State, s.phase ≠ .error → s.arg = [] →
    (∀ sf, exec (.tblRecip sf) s = .next { s with res := [(recip sf : Int)] }) ∧
    (∀ i : BitVec 16, i.toNat ≤ 16 → exec (.tblQuant i) s = .next { s with res := [((quant i.toNat).toNat : Int)] }) ∧
    (∀ sf (q : BitVec 16), q.toNat ≤ 7 →
      exec (.tblDequant sf q) s = .next { s with res := [dequant sf (q.setWidth 3)] })

/-! ## The LMS predictor -/

/-- R125: `LMS.INIT` seeds all eight channel sets and leaves everything else. -/
def Obligations.LmsInitSeedsEveryChannel : Prop :=
  ∀ s : State, s.phase ≠ .error → s.arg = [] →
    ∃ t, exec .lmsInit s = .next t ∧ t = { s with lms := t.lms, res := t.res } ∧
      ∀ c, ints (t.lms.get c).h = [0, 0, 0, 0] ∧ ints (t.lms.get c).w = [0, 0, -8192, 16384]

/-- R126: `LMS.LOAD c` puts the sign-extended 16-bit fields of the two words in channel `c`'s registers, the field in bits
63..48 at index 0, and touches no other channel and no other register. -/
def Obligations.LmsLoadReadsTheTwoWords : Prop :=
  ∀ (s : State) (c : BitVec 4) (hw ww : Nat), s.phase ≠ .error → (hc : c.toNat < 8) → hw < 2 ^ 64 → ww < 2 ^ 64 →
    s.arg = [(hw : Int), (ww : Int)] →
    ∃ t, exec (.lmsLoad c) s = .next t ∧ t = { s with lms := t.lms, res := t.res } ∧
      (∀ d : Fin 8, d.val ≠ c.toNat → t.lms.get d = s.lms.get d) ∧
      ints (t.lms.get ⟨c.toNat, hc⟩).h = [48, 32, 16, 0].map (fun k => wrap16 ((hw / 2 ^ k % 65536 : Nat) : Int)) ∧
      ints (t.lms.get ⟨c.toNat, hc⟩).w = [48, 32, 16, 0].map (fun k => wrap16 ((ww / 2 ^ k % 65536 : Nat) : Int))

/-- R127: `LMS.STORE c` returns the two packed words and writes no register; `LMS.LOAD c` of them leaves the registers as
they are. -/
def Obligations.LmsStoreThenLoadIsIdentity : Prop :=
  ∀ (s : State) (c : BitVec 4), s.phase ≠ .error → (hc : c.toNat < 8) → s.arg = [] →
    ∃ hw ww : Nat, exec (.lmsStore c) s = .next { s with res := [(hw : Int), (ww : Int)] } ∧
      hw = (pack4 (s.lms.get ⟨c.toNat, hc⟩).h).toNat ∧ ww = (pack4 (s.lms.get ⟨c.toNat, hc⟩).w).toNat ∧
      ∃ t, exec (.lmsLoad c) { s with arg := [(hw : Int), (ww : Int)] } = .next t ∧
        t = { s with arg := [(hw : Int), (ww : Int)], res := t.res }

/-- R120, R128: `LMS.PREDICT c` returns the floor of the exact sum of products over 2¹³ and writes no register. -/
def Obligations.LmsPredictReturnsThePrediction : Prop :=
  ∀ (s : State) (c : BitVec 4), s.phase ≠ .error → (hc : c.toNat < 8) → s.arg = [] →
    let h := ints (s.lms.get ⟨c.toNat, hc⟩).h
    let w := ints (s.lms.get ⟨c.toNat, hc⟩).w
    exec (.lmsPredict c) s = .next { s with res := [(List.zipWith (· * ·) w h).sum / 8192] }

/-- R122, R123, R129: `LMS.UPDATE c` moves the history up with the sample last, and steps every weight by the floor of
`dq / 16` with the sign of the old history value, modulo 2¹⁶; nothing else changes. -/
def Obligations.LmsUpdateStepsWeightsAndHistory : Prop :=
  ∀ (s : State) (c : BitVec 4) (x dq : Int), s.phase ≠ .error → (hc : c.toNat < 8) → s.arg = [x, dq] → int16 x → int16 dq →
    let old := s.lms.get ⟨c.toNat, hc⟩
    ∃ t, exec (.lmsUpdate c) s = .next t ∧ t = { s with lms := t.lms, res := t.res } ∧
      (∀ d : Fin 8, d.val ≠ c.toNat → t.lms.get d = s.lms.get d) ∧
      movesTo old (t.lms.get ⟨c.toNat, hc⟩) x dq

/-! ## Slices -/

/-- R140, R141, R145, R147: what one encoded and one decoded sample are, by the prediction of R120, the index of R114 and the
update of R122; and that the decoder given the encoder's index reconstructs the same sample and the same LMS value. -/
def Obligations.DecoderFollowsEncoderSample : Prop :=
  ∀ (l : Lms) (sf : BitVec 4) (x : Sample),
    let e := encSample l sf x
    let dq := dequant sf e.q
    predict l = (List.zipWith (· * ·) (ints l.w) (ints l.h)).sum / 8192 ∧
    e.q = quantIndex (x.toInt - predict l) sf ∧
    e.recon.toInt = max (-32768) (min 32767 (predict l + dq)) ∧
    (e.err : Int) = (x.toInt - e.recon.toInt) ^ 2 ∧
    (e.pen : Int) = max 0 (((ints l.w).map (fun w => w * w)).sum / 262144 - 2303) ∧
    movesTo l e.lms e.recon.toInt dq ∧
    (∀ q : BitVec 3,
      let d := decSample l sf q
      d.1.toInt = max (-32768) (min 32767 (predict l + dequant sf q)) ∧ movesTo l d.2 d.1.toInt (dequant sf q)) ∧
    decSample l sf e.q = (e.recon, e.lms)

/-- R121, R148: the ranges of a prediction and of one encoded sample. -/
def Obligations.PredictionAndSampleRanges : Prop :=
  ∀ (l : Lms) (sf : BitVec 4) (x : Sample),
    -524272 ≤ predict l ∧ predict l ≤ 524288 ∧
    -557056 ≤ x.toInt - predict l ∧ x.toInt - predict l ≤ 557039 ∧
    (encSample l sf x).err ≤ 4294836225 ∧ (encSample l sf x).pen ≤ 14081 ∧
    -14336 ≤ dequant sf (encSample l sf x).q ∧ dequant sf (encSample l sf x).q ≤ 14336 ∧
    dequant sf (encSample l sf x).q ≠ 0

/-- R142: a slice is decoded sample by sample, sample `n` from the state the first `n` left, by the 3-bit field at
`59−3n .. 57−3n` and the scale factor in the top four bits. -/
def Obligations.SliceDecodesSampleBySample : Prop :=
  ∀ (l : Lms) (w : WireWord) (n : Nat), n < 20 →
    decSlice l w 0 = ([], l) ∧
    decSlice l w (n + 1) =
      let before := decSlice l w n
      let q := BitVec.ofNat 3 (w.toNat / 2 ^ (57 - 3 * n) % 8)
      let now := decSample before.2 (BitVec.ofNat 4 (w.toNat / 2 ^ 60)) q
      (before.1 ++ [now.1], now.2)

/-- R143: `DEC.SLICE c, len` returns the `len` samples and leaves channel `c`'s registers where they took it; no other
register and no buffer changes. -/
def Obligations.DecSliceCompletes : Prop :=
  ∀ (s : State) (c : BitVec 4) (len : BitVec 16) (w : Nat), s.phase ≠ .error → (hc : c.toNat < 8) →
    1 ≤ len.toNat → len.toNat ≤ 20 → w < 2 ^ 64 → s.arg = [(w : Int)] →
    let out := decSlice (s.lms.get ⟨c.toNat, hc⟩) (BitVec.ofNat 64 w) len.toNat
    ∃ t, exec (.decSlice c len) s = .next t ∧ t = { s with lms := t.lms, res := out.1.map BitVec.toInt } ∧
      t.res.length = len.toNat ∧ (∀ d : Fin 8, d.val ≠ c.toNat → t.lms.get d = s.lms.get d) ∧
      t.lms.get ⟨c.toNat, hc⟩ = out.2

/-- R80: two slice words that differ only below the last index read decode alike. -/
def Obligations.UnusedSliceBitsAreIgnored : Prop :=
  ∀ (s : State) (c : BitVec 4) (len : BitVec 16) (w w' : Nat), 1 ≤ len.toNat → len.toNat ≤ 20 →
    w < 2 ^ 64 → w' < 2 ^ 64 → w / 2 ^ (60 - 3 * len.toNat) = w' / 2 ^ (60 - 3 * len.toNat) →
    ∀ t t', exec (.decSlice c len) { s with arg := [(w : Int)] } = .next t →
      exec (.decSlice c len) { s with arg := [(w' : Int)] } = .next t' → { t with arg := [] } = { t' with arg := [] }

/-- R144: a trial starts at error 0, rank 0 and the LMS value given, and accumulates error and rank sample by sample; its error
never exceeds its rank, and both stay below 2³⁷. -/
def Obligations.TrialAccumulatesErrorAndRank : Prop :=
  ∀ (l : Lms) (sf : BitVec 4) (xs : List Sample) (x : Sample), xs.length < 20 →
    let before := encTrial l sf xs
    let e := encSample before.lms sf x
    let after := encTrial l sf (xs ++ [x])
    (encTrial l sf []).err = 0 ∧ (encTrial l sf []).rank = 0 ∧ (encTrial l sf []).lms = l ∧
    after.err = before.err + e.err ∧ after.rank = before.rank + e.err + e.pen ^ 2 ∧ after.lms = e.lms ∧
    after.err ≤ after.rank ∧ after.rank < 2 ^ 37

/-- R78, R79: a trial's word holds the scale factor in bits 63..60, the index of sample `k` in bits `59−3k .. 57−3k`, and
zeros below the last. -/
def Obligations.TrialWordHoldsTheIndices : Prop :=
  ∀ (l : Lms) (sf : BitVec 4) (xs : List Sample), xs.length ≤ 20 →
    let w := (encTrial l sf xs).word.toNat
    w / 2 ^ 60 = sf.toNat ∧ w % 2 ^ (3 * (20 - xs.length)) = 0 ∧
    ∀ k q, (trialIndices sf l xs)[k]? = some q → w / 2 ^ (57 - 3 * k) % 8 = q.toNat

/-- R146: `ENC.TRIAL` returns word, error, rank and the packed state its copy reached, and writes no register. -/
def Obligations.EncTrialWritesNoRegister : Prop :=
  ∀ (s : State) (c sf : BitVec 4) (len : BitVec 16), s.phase ≠ .error → (hc : c.toNat < 8) →
    1 ≤ len.toNat → len.toNat ≤ 20 → s.arg.length = len.toNat → (∀ v ∈ s.arg, int16 v) →
    let t := encTrial (s.lms.get ⟨c.toNat, hc⟩) sf (s.arg.map (BitVec.ofInt 16))
    exec (.encTrial c sf len) s =
      .next { s with res := [(t.word.toNat : Int), (t.err : Int), (t.rank : Int),
                             ((pack4 t.lms.h).toNat : Int), ((pack4 t.lms.w).toNat : Int)] }

/-- R147, R200 (3), on a slice: `DEC.SLICE` of the word `ENC.TRIAL` returned, from the same registers, returns the trial's
reconstructed samples and leaves the registers the trial reported. -/
def Obligations.DecSliceInvertsEncTrial : Prop :=
  ∀ (s : State) (c sf : BitVec 4) (len : BitVec 16), s.phase ≠ .error → (hc : c.toNat < 8) →
    1 ≤ len.toNat → len.toNat ≤ 20 → s.arg.length = len.toNat → (∀ v ∈ s.arg, int16 v) →
    ∃ (word err rank hw ww : Int) (t : State),
      exec (.encTrial c sf len) s = .next { s with res := [word, err, rank, hw, ww] } ∧
      exec (.decSlice c len) { s with arg := [word] } = .next t ∧
      t.res = (trialSamples sf (s.lms.get ⟨c.toNat, hc⟩) (s.arg.map (BitVec.ofInt 16))).map BitVec.toInt ∧
      ((pack4 (t.lms.get ⟨c.toNat, hc⟩).h).toNat : Int) = hw ∧
      ((pack4 (t.lms.get ⟨c.toNat, hc⟩).w).toNat : Int) = ww

/-! ## The search -/

/-- R160, R161, R165, with the default metric: the search answers the first of the sixteen trials, in the order
`(i + prev) mod 16`, whose rank is the least. -/
def Obligations.SearchPicksFirstLeastRank : Prop :=
  ∀ (l : Lms) (prev : BitVec 4) (xs : List Sample), xs.length ≤ 20 →
    ∃ i < 16,
      search .rank l prev xs = ⟨(nthTrial l prev xs i).rank, (nthTrial l prev xs i).word,
        BitVec.ofNat 4 ((i + prev.toNat) % 16), (nthTrial l prev xs i).err, (nthTrial l prev xs i).lms⟩ ∧
      (∀ j < 16, (nthTrial l prev xs i).rank ≤ (nthTrial l prev xs j).rank) ∧
      (∀ j < i, (nthTrial l prev xs i).rank < (nthTrial l prev xs j).rank)

/-- R160, R162, with the literal metric: trial 0 is accepted, then each time the first later trial whose error is below the
rank of the trial accepted before it; the search answers the last one accepted, whose rank no later trial's error goes
below. -/
def Obligations.LiteralMetricComparesErrorWithRank : Prop :=
  ∀ (l : Lms) (prev : BitVec 4) (xs : List Sample), xs.length ≤ 20 →
    ∃ i < 16,
      search .errorVsRank l prev xs = ⟨(nthTrial l prev xs i).rank, (nthTrial l prev xs i).word,
        BitVec.ofNat 4 ((i + prev.toNat) % 16), (nthTrial l prev xs i).err, (nthTrial l prev xs i).lms⟩ ∧
      Relation.ReflTransGen (acceptedAfter l prev xs) 0 i ∧
      ∀ j < 16, i < j → (nthTrial l prev xs i).rank ≤ (nthTrial l prev xs j).err

/-- R166: where rank and error are the same in every trial, both metrics choose the same trial. -/
def Obligations.MetricsAgreeWithoutPenalty : Prop :=
  ∀ (l : Lms) (prev : BitVec 4) (xs : List Sample),
    (∀ i < 16, (nthTrial l prev xs i).rank = (nthTrial l prev xs i).err) →
    search .rank l prev xs = search .errorVsRank l prev xs

/-- R164, R167: `ENC.SLICE c, len` returns the best word, scale factor and error, commits the best trial to channel `c`'s
registers, `PREV_SF[c]` and `ERROR_COUNT`, and changes nothing else. -/
def Obligations.EncSliceCommitsTheBestTrial : Prop :=
  ∀ (s : State) (c : BitVec 4) (len : BitVec 16), s.phase ≠ .error → (hc : c.toNat < 8) →
    1 ≤ len.toNat → len.toNat ≤ 20 → s.arg.length = len.toNat → (∀ v ∈ s.arg, int16 v) →
    let ch : Fin 8 := ⟨c.toNat, hc⟩
    let b := search s.params.searchMetric (s.lms.get ch) (s.prevSf.get ch) (s.arg.map (BitVec.ofInt 16))
    ∃ t, exec (.encSlice c len) s = .next t ∧
      t = { s with lms := t.lms, prevSf := t.prevSf, errorCount := t.errorCount
                   res := [(b.word.toNat : Int), (b.sf.toNat : Int), (b.err : Int)] } ∧
      t.lms.get ch = b.lms ∧ t.prevSf.get ch = b.sf ∧
      t.errorCount.toNat = (s.errorCount.toNat + b.err) % 2 ^ 64 ∧
      ∀ d, d ≠ ch → t.lms.get d = s.lms.get d ∧ t.prevSf.get d = s.prevSf.get d

/-! ## Frames -/

/-- R168, R169: `ENC.FRAME` in a state that keeps the invariant: the cursors move by `flen` and `fsize`, `PHASE` becomes
`Done` exactly at the last sample; the registers and spaces it does not write are unchanged, and so is every byte of `BSOUT`
outside the `fsize` bytes from the old `BSOUT_POS`, which are all written. -/
def Obligations.EncFrameMovesTheCursors : Prop :=
  ∀ s : State, s.Inv → s.phase = .needFrame → s.mode = .enc → s.arg = [] →
    let C := s.channels.toNat
    let flen := min 5120 (s.samples.toNat - s.samplePos.toNat)
    let fsize := 8 + 16 * C + 8 * slices flen * C
    ∃ t, exec .encFrame s = .next t ∧
      t = { s with lms := t.lms, prevSf := t.prevSf, errorCount := t.errorCount, samplePos := t.samplePos
                   bsoutPos := t.bsoutPos, bsout := t.bsout, phase := t.phase, res := t.res } ∧
      t.samplePos.toNat = s.samplePos.toNat + flen ∧ t.bsoutPos.toNat = s.bsoutPos.toNat + fsize ∧
      (t.phase = .done ↔ t.samplePos = s.samples) ∧ (t.phase = .needFrame ↔ t.samplePos ≠ s.samples) ∧
      (∀ c : Fin 8, C ≤ c.val → t.lms.get c = s.lms.get c ∧ t.prevSf.get c = 0) ∧
      (∀ a, a < s.bsoutPos.toNat ∨ s.bsoutPos.toNat + fsize ≤ a → Memory.read t.bsout a = Memory.read s.bsout a) ∧
      (∀ a, s.bsoutPos.toNat ≤ a → a < s.bsoutPos.toNat + fsize → (Memory.read t.bsout a).isSome = true)

/-- R169, §8 property 9: the frame's first word is the header with `fsize` the bytes the frame takes, and the LMS words
after it hold the registers as they were before the frame. -/
def Obligations.EncFrameWritesHeaderAndPrelude : Prop :=
  ∀ s : State, s.Inv → s.phase = .needFrame → s.mode = .enc → s.arg = [] →
    let C := s.channels.toNat
    let flen := min 5120 (s.samples.toNat - s.samplePos.toNat)
    ∃ t, exec .encFrame s = .next t ∧
      bsoutWord t s.bsoutPos.toNat =
        some (C * 2 ^ 56 + s.sampleRate.toNat * 2 ^ 32 + flen * 2 ^ 16 + (t.bsoutPos.toNat - s.bsoutPos.toNat)) ∧
      ∀ c : Fin 8, c.val < C →
        bsoutWord t (s.bsoutPos.toNat + 8 + 16 * c.val) = some (pack4 (s.lms.get c).h).toNat ∧
        bsoutWord t (s.bsoutPos.toNat + 16 + 16 * c.val) = some (pack4 (s.lms.get c).w).toNat

/-- R167, R169, R174: `ENC.FRAME` is `ENC.SLICE` on every slice in slice-major, channel-minor order from cleared `PREV_SF`:
the same registers, and the words `ENC.SLICE` returns stand one after another behind the prelude. -/
def Obligations.EncFrameIsItsSlicesInOrder : Prop :=
  ∀ s : State, s.Inv → s.phase = .needFrame → s.mode = .enc → s.arg = [] →
    let C := s.channels.toNat
    let flen := min 5120 (s.samples.toNat - s.samplePos.toNat)
    let r := frameByCommands s
    ∃ t, exec .encFrame s = .next t ∧ t.lms = r.state.lms ∧ t.prevSf = r.state.prevSf ∧
      t.errorCount = r.state.errorCount ∧ r.words.length = slices flen * C ∧
      ∀ j w, r.words[j]? = some w →
        (bsoutWord t (s.bsoutPos.toNat + 8 + 16 * C + 8 * j)).map Int.ofNat = some w

/-- R171: `DEC.FRAME` raises the first of its eight checks that fails, and nothing else; when none fails it raises
nothing. -/
def Obligations.DecFrameRaisesFirstFailingCheck : Prop :=
  ∀ s : State, s.phase = .needFrame → s.mode = .dec → s.arg = [] →
    (∀ e, frameError s = some e → exec .decFrame s = .next (s.raise e)) ∧
    (frameError s = none → ∃ t, exec .decFrame s = .next t ∧ t.phase ≠ .error ∧ t.err = s.err)

/-- R172, R173: `DEC.FRAME` on a frame that passes the checks: the cursors move by the bytes parsed and the samples emitted;
the phase and `SAMPLES` follow R173; channels from `CHANNELS` on, and every register and space it does not write, are
unchanged, and so is every location of `PCMOUT` outside the frame's samples, which are all written. -/
def Obligations.DecFrameMovesTheCursors : Prop :=
  ∀ s : State, s.phase = .needFrame → s.mode = .dec → s.arg = [] → s.channels.toNat ≤ 8 → frameError s = none →
    let C := s.channels.toNat
    let n := memRead s.bsinByte s.bsinPos.toNat 8 / 2 ^ 16 % 2 ^ 16
    ∃ t, exec .decFrame s = .next t ∧
      t = { s with lms := t.lms, samples := t.samples, samplePos := t.samplePos, bsinPos := t.bsinPos, phase := t.phase
                   pcmout := t.pcmout, res := t.res } ∧
      t.bsinPos.toNat = s.bsinPos.toNat + 8 + 16 * C + 8 * slices n * C ∧
      t.samplePos.toNat = s.samplePos.toNat + n ∧
      (if t.samplePos.toNat < s.samples.toNat ∧ t.bsinPos.toNat < s.bsinLen.toNat
        then t.phase = .needFrame ∧ t.samples = s.samples else t.phase = .done ∧ t.samples = t.samplePos) ∧
      (∀ c : Fin 8, C ≤ c.val → t.lms.get c = s.lms.get c) ∧
      (∀ i, i < s.samplePos.toNat * C ∨ (s.samplePos.toNat + n) * C ≤ i →
        Memory.read t.pcmout i = Memory.read s.pcmout i) ∧
      (∀ i, s.samplePos.toNat * C ≤ i → i < (s.samplePos.toNat + n) * C → (Memory.read t.pcmout i).isSome = true)

/-- R172, R174, R81: `DEC.FRAME` on a frame that passes the checks is its wire words, from the header on, each executed in
stream order, and then the move of the cursors and the phase rule. What a wire word does on its own is the model's choice
(notes/assumptions/12.md), and so is what a frame of more than eight channels is, which no run has (16.md); that the operation
is their sequence is R172. -/
def Obligations.DecFrameIsItsWireWordsInOrder : Prop :=
  ∀ s : State, s.phase = .needFrame → s.mode = .dec → s.arg = [] → frameError s = none →
    ∃ header u, decodeWire (.frameHeader .frame) (s.bsinWord s.bsinPos.toNat) = .ok header ∧
      execAll (header :: frameInstructions s) s = .next u ∧
      ∃ t, exec .decFrame s = .next t ∧ t.lms = u.lms ∧ t.pcmout = u.pcmout ∧
        u = { s with lms := u.lms, pcmout := u.pcmout }

/-- R175: nothing an earlier frame left in the LMS registers of the stream's channels reaches the output of `DEC.FRAME`.
(That both runs read the same byte where the host filled none is the model's choice, notes/assumptions/6.md, and so is what a
frame of more than eight channels is, 16.md.) -/
def Obligations.DecFrameForgetsEarlierRegisters : Prop :=
  ∀ (s : State) (l : Bank Lms), s.phase = .needFrame → s.mode = .dec → s.arg = [] → frameError s = none →
    ∃ t t', exec .decFrame s = .next t ∧ exec .decFrame { s with lms := l } = .next t' ∧
      { t with lms := l } = { t' with lms := l } ∧
      ∀ c : Fin 8, c.val < s.channels.toNat → t.lms.get c = t'.lms.get c

/-- R200 (3), on a frame: a decoder at the bytes `ENC.FRAME` appended, with the same descriptor and position, accepts the
frame, writes the samples the encoder reconstructed to their places in `PCMOUT`, a sample at every place of the frame, and
ends with the encoder's registers and position. -/
def Obligations.DecFrameFollowsEncFrame : Prop :=
  ∀ s u : State, s.Inv → s.phase = .needFrame → s.mode = .enc → s.arg = [] →
    u.phase = .needFrame → u.mode = .dec → u.arg = [] →
    u.channels = s.channels → u.sampleRate = s.sampleRate → u.samples = s.samples → u.samplePos = s.samplePos →
    ∀ t, exec .encFrame s = .next t →
      (∀ k, k < t.bsoutPos.toNat - s.bsoutPos.toNat →
        Memory.read u.bsin (u.bsinPos.toNat + k) = Memory.read t.bsout (s.bsoutPos.toNat + k)) →
      u.bsinPos.toNat + (t.bsoutPos.toNat - s.bsoutPos.toNat) ≤ u.bsinLen.toNat →
      ∃ v, exec .decFrame u = .next v ∧ v.phase ≠ .error ∧ v.samplePos = t.samplePos ∧
        v.bsinPos.toNat = u.bsinPos.toNat + (t.bsoutPos.toNat - s.bsoutPos.toNat) ∧
        (∀ c : Fin 8, c.val < s.channels.toNat → v.lms.get c = t.lms.get c) ∧
        (∀ i x, (i, x) ∈ (frameByCommands s).samples → Memory.read v.pcmout i = some x) ∧
        ∀ i, s.samplePos.toNat * s.channels.toNat ≤ i → i < t.samplePos.toNat * s.channels.toNat →
          ∃ x, (i, x) ∈ (frameByCommands s).samples

/-! ## Streams -/

/-- R190: `ENC.OPEN` in a phase that admits it raises the first of its checks that fails; when none fails it writes the
descriptor, seeds and clears what the rule lists, writes the file header in `BSOUT[0..7]` and nothing else there, and keeps
the rest. (That a byte of `BSOUT` from 8 on keeps what an earlier encode wrote is the model's reading, notes/assumptions/9.md.)
-/
def Obligations.EncOpenStartsAnEncode : Prop :=
  ∀ (s : State) (sr ch n len : Int), s.phase = .needHeader ∨ s.phase = .done → s.arg = [sr, ch, n, len] →
    word64 sr → word64 ch → word64 n → word64 len →
    (∀ e, parameterError sr ch n len = some e → exec .encOpen s = .next (s.raise e)) ∧
    (parameterError sr ch n len = none →
      ∃ t, exec .encOpen s = .next t ∧
        t = { s with channels := t.channels, sampleRate := t.sampleRate, samples := t.samples, pcminLen := t.pcminLen
                     outTotal := t.outTotal, lms := t.lms, prevSf := t.prevSf, errorCount := 0, samplePos := 0
                     bsout := t.bsout, bsoutPos := 8, mode := .enc, phase := .needFrame, res := t.res } ∧
        (t.channels.toNat : Int) = ch ∧ (t.sampleRate.toNat : Int) = sr ∧ (t.samples.toNat : Int) = n ∧
        (t.pcminLen.toNat : Int) = len ∧
        (t.outTotal.toNat : Int) = 8 + 8 * ((n + 5119) / 5120) + 16 * ch * ((n + 5119) / 5120) + 8 * ch * ((n + 19) / 20) ∧
        (∀ c, ints (t.lms.get c).h = [0, 0, 0, 0] ∧ ints (t.lms.get c).w = [0, 0, -8192, 16384] ∧ t.prevSf.get c = 0) ∧
        bsoutWord t 0 = some (0x716f6166 * 2 ^ 32 + n.toNat) ∧
        ∀ a, 8 ≤ a → Memory.read t.bsout a = Memory.read s.bsout a)

/-- R191: `DEC.OPEN` in a phase that admits it raises the first of its checks that fails; when none fails it writes the
descriptor from the two headers, seeds all LMS sets, sets the cursors, and keeps the rest; `PCMOUT` holds no sample of the
decode yet. (That it holds none at all is the model's reading of R54, notes/assumptions/8.md.) -/
def Obligations.DecOpenStartsADecode : Prop :=
  ∀ (s : State) (len : Nat), s.phase = .needHeader ∨ s.phase = .done → s.arg = [(len : Int)] → len < 2 ^ 64 →
    (∀ e, streamError s len = some e → exec .decOpen s = .next (s.raise e)) ∧
    (streamError s len = none →
      ∃ t, exec .decOpen s = .next t ∧
        t = { s with channels := t.channels, sampleRate := t.sampleRate, samples := t.samples, bsinLen := t.bsinLen
                     bsinPos := 8, samplePos := 0, lms := t.lms, pcmout := t.pcmout, mode := .dec, phase := .needFrame
                     res := t.res } ∧
        t.channels.toNat = memRead s.bsinByte 8 8 / 2 ^ 56 ∧
        t.sampleRate.toNat = memRead s.bsinByte 8 8 / 2 ^ 32 % 2 ^ 24 ∧
        t.samples.toNat = memRead s.bsinByte 0 8 % 2 ^ 32 ∧ t.bsinLen.toNat = len ∧
        (∀ c, ints (t.lms.get c).h = [0, 0, 0, 0] ∧ ints (t.lms.get c).w = [0, 0, -8192, 16384]) ∧
        ∀ i, Memory.read t.pcmout i = none)

/-- R200 (1), R196: the first sixteen bytes an encode writes, given to `DEC.OPEN`, return the same three header fields; and the
host program `DECODE_HEADER` of any bytes that start with them answers those three. (The program runs over the model's queue,
notes/assumptions/1.md, 5.md.) -/
def Obligations.HeaderRoundTrip : Prop :=
  ∀ (s u : State) (sr ch n len : Int), s.phase = .needHeader ∨ s.phase = .done → s.arg = [sr, ch, n, len] →
    word64 sr → word64 ch → word64 n → word64 len → parameterError sr ch n len = none →
    u.phase = .needHeader ∨ u.phase = .done → (hu : ∃ k : Nat, u.arg = [(k : Int)] ∧ 16 ≤ k ∧ k < 2 ^ 64) →
    ∃ t1 t2, exec .encOpen s = .next t1 ∧ exec .encFrame { t1 with arg := [] } = .next t2 ∧
      ((∀ a, a < 16 → Memory.read u.bsin a = Memory.read t2.bsout a) →
        ∃ v, exec .decOpen u = .next v ∧ v.phase = .needFrame ∧ (v.channels.toNat : Int) = ch ∧
          (v.sampleRate.toNat : Int) = sr ∧ (v.samples.toNat : Int) = n) ∧
      ∀ bytes : List Byte, bytes.length < 2 ^ 64 → (∀ a, a < 16 → bytes[a]? = Memory.read t2.bsout a) →
        ∃ v, hostDecodeHeader bytes u = .next ⟨v, .ok ⟨ch.toNat, sr.toNat, n.toNat⟩⟩ ∧ v.phase = .needFrame

/-- R194, R62: `ENCODE` of legal parameters, with a buffer long enough, ends `Done` and answers the `OUT_TOTAL` bytes of
`BSOUT` from 0 on, all of them written; of others it answers the error. (The program runs over the model's queue,
notes/assumptions/1.md, 5.md.) -/
def Obligations.EncodeProgramEndsDone : Prop :=
  ∀ (s : State) (sr ch n : Nat) (pcm : List Sample), s.phase = .needHeader ∨ s.phase = .done →
    pcm.length < 2 ^ 64 → sr < 2 ^ 64 → ch < 2 ^ 64 → n < 2 ^ 64 →
    (∀ e, parameterError sr ch n pcm.length = some e →
      ∃ t, hostEncode sr ch n pcm s = .next ⟨t, .error e.code.code⟩ ∧ t.phase = .error) ∧
    (parameterError sr ch n pcm.length = none →
      ∃ (t : State) (bytes : List Byte), hostEncode sr ch n pcm s = .next ⟨t, .ok (bytes.map some)⟩ ∧
        t.phase = .done ∧ t.mode = .enc ∧ t.samplePos = t.samples ∧ t.samples.toNat = n ∧ t.bsoutPos = t.outTotal ∧
        t.outTotal.toNat = 8 + 8 * ((n + 5119) / 5120) + 16 * ch * ((n + 5119) / 5120) + 8 * ch * ((n + 19) / 20) ∧
        bytes.length = t.outTotal.toNat ∧ ∀ a, a < t.outTotal.toNat → Memory.read t.bsout a = bytes[a]?)

/-- R195, R196: `DECODE` of any bytes ends, `Done` or in an error: at `Done` it answers the descriptor and the
`SAMPLES · CHANNELS` samples of `PCMOUT`, which holds no other; in an error it answers the error alone. `DECODE_HEADER` answers
the error of `DEC.OPEN`, or the fields of the two headers and leaves the block ready to decode. (The programs run over the
model's queue, notes/assumptions/1.md, 5.md; that `PCMOUT` holds nothing of an earlier decode is its reading, 8.md.) -/
def Obligations.DecodeProgramEnds : Prop :=
  ∀ (s : State) (bytes : List Byte), s.phase = .needHeader ∨ s.phase = .done → bytes.length < 2 ^ 64 →
    (∃ (t : State) (answer : Except (BitVec 4) (StreamDescriptor × List (Option Sample))),
      hostDecode bytes s = .next ⟨t, answer⟩ ∧
      ((t.phase = .error ∧ answer = .error t.err) ∨
       (t.phase = .done ∧
        (∃ samples : List Sample,
          answer = .ok (⟨t.channels.toNat, t.sampleRate.toNat, t.samples.toNat⟩, samples.map some) ∧
          samples.length = t.samples.toNat * t.channels.toNat ∧ ∀ i, Memory.read t.pcmout i = samples[i]?)))) ∧
    let filled := { s with bsin := Memory.ofList bytes }
    (∀ e, streamError filled bytes.length = some e →
      ∃ t, hostDecodeHeader bytes s = .next ⟨t, .error e.code.code⟩ ∧ t.phase = .error) ∧
    (streamError filled bytes.length = none →
      ∃ t, hostDecodeHeader bytes s = .next ⟨t, .ok ⟨memRead filled.bsinByte 8 8 / 2 ^ 56,
          memRead filled.bsinByte 8 8 / 2 ^ 32 % 2 ^ 24, memRead filled.bsinByte 0 8 % 2 ^ 32⟩⟩ ∧ t.phase = .needFrame)

/-- R192, R30, R31: `RDREG` of a defined number returns that register, zero-extended, in every phase, `STATUS` made of phase,
mode, error and sub-cause at their places; a reserved number raises `IllegalCommand(4)`, and in the error phase has no
effect. -/
def Obligations.RdregReadsTheNumberedRegisters : Prop :=
  ∀ s : State, s.arg = [] →
    exec (.rdreg 0) s = .next { s with res := [
      (match s.phase with | .needHeader => 0 | .needFrame => 1 | .done => 2 | .error => 3) +
      4 * (match s.mode with | .none => 0 | .enc => 1 | .dec => 2) +
      16 * (s.err.toNat : Int) + 256 * (s.errInfo.toNat : Int)] } ∧
    (∀ r v, (r, v) ∈ ([(0x01, s.channels.toNat), (0x02, s.sampleRate.toNat), (0x03, s.samples.toNat),
        (0x04, s.samplePos.toNat), (0x05, s.bsinPos.toNat), (0x06, s.bsinLen.toNat), (0x07, s.bsoutPos.toNat),
        (0x08, s.pcminLen.toNat), (0x09, s.errorCount.toNat), (0x0A, s.outTotal.toNat)] : List (Nat × Nat)) →
      exec (.rdreg (BitVec.ofNat 16 r)) s = .next { s with res := [(v : Int)] }) ∧
    (∀ c : Fin 8, exec (.rdreg (BitVec.ofNat 16 (0x10 + c.val))) s =
      .next { s with res := [((s.prevSf.get c).toNat : Int)] }) ∧
    (∀ r : BitVec 16, ¬ (r.toNat ≤ 0x0A ∨ (0x10 ≤ r.toNat ∧ r.toNat ≤ 0x17)) →
      exec (.rdreg r) s = .next (if s.phase = .error then s else s.raise ⟨.illegalCommand, 4⟩))

/-- R193: `NOP` does nothing, in every phase. (That `RES` keeps what it shows is the model's choice, notes/assumptions/2.md.) -/
def Obligations.NopDoesNothing : Prop := ∀ s : State, s.arg = [] → exec .nop s = .next s

/-! ## Wire words -/

/-- R74, R75, R191, R171: a file header consumed where `DEC.OPEN` is admitted gives the stream its sample count, or raises
`NoSamples`; a frame header peeked at there gives it its channels and rate, or raises `InvalidStreamHeader`; a frame header
consumed at the start of a frame, once check 1 of R171 has passed, raises the first of checks 2 to 8 that fails and changes
nothing where they pass. That the words have an effect of their own is the model's choice (notes/assumptions/12.md, 13.md). -/
def Obligations.HeaderWordsAreCheckedAndTaken : Prop :=
  ∀ (s : State) (samples : BitVec 32) (ch : BitVec 8) (sr : BitVec 24) (n z : BitVec 16),
    (s.phase = .needHeader ∨ s.phase = .done →
      exec (.fileHeader samples) s = .next
        (if samples = 0 then s.raise ⟨.noSamples, 0⟩ else { s with samples := samples }) ∧
      exec (.frameHeader .peek ch sr n z) s = .next
        (if ch = 0 then s.raise ⟨.invalidStreamHeader, 1⟩ else if sr = 0 then s.raise ⟨.invalidStreamHeader, 2⟩
         else if 8 < ch.toNat then s.raise ⟨.invalidStreamHeader, 3⟩ else { s with channels := ch, sampleRate := sr })) ∧
    (s.phase = .needFrame → s.mode = .dec → s.headerWord = frameHeaderPack ch sr n z →
      8 + 16 * s.channels.toNat ≤ s.bsinLen.toNat - s.bsinPos.toNat →
      exec (.frameHeader .frame ch sr n z) s = .next (match frameError s with | some e => s.raise e | none => s))

/-- R76, R77, R172: a history or weights word consumed in a frame loads channel `c`'s registers and nothing else. That the
word has an effect of its own is the model's choice (notes/assumptions/12.md). -/
def Obligations.LmsWordsLoadTheirChannel : Prop :=
  ∀ (s : State) (c : Fin 8) (a0 a1 a2 a3 : Sample), s.phase = .needFrame → s.mode = .dec →
    (∃ t, exec (.lmsHistory c a0 a1 a2 a3) s = .next t ∧ t = { s with lms := t.lms } ∧
      t.lms.get c = { s.lms.get c with h := ⟨a0, a1, a2, a3⟩ } ∧ ∀ d, d ≠ c → t.lms.get d = s.lms.get d) ∧
    (∃ t, exec (.lmsWeights c a0 a1 a2 a3) s = .next t ∧ t = { s with lms := t.lms } ∧
      t.lms.get c = { s.lms.get c with w := ⟨a0, a1, a2, a3⟩ } ∧ ∀ d, d ≠ c → t.lms.get d = s.lms.get d)

/-- R78, R68, R172: a slice word consumed in a frame decodes its samples into `PCMOUT` at `(SAMPLE_POS + 20s + k)·C + c`,
moves channel `c`'s registers, and changes no other register, channel or location. That the word has an effect of its own is
the model's choice (notes/assumptions/12.md). -/
def Obligations.SliceWordDecodesIntoPcmout : Prop :=
  ∀ (s : State) (p : SlicePos) (sf : BitVec 4) (qs : BitVec 60), s.phase = .needFrame → s.mode = .dec →
    0 < s.channels.toNat →
    let out := decSlice (s.lms.get p.c) (slicePack sf qs) p.len
    let idx := fun k => (s.samplePos.toNat + 20 * p.s + k) * s.channels.toNat + p.c.val
    ∃ t, exec (.slice p sf qs) s = .next t ∧ t = { s with lms := t.lms, pcmout := t.pcmout } ∧
      t.lms.get p.c = out.2 ∧ (∀ d, d ≠ p.c → t.lms.get d = s.lms.get d) ∧
      (∀ k, k < p.len → Memory.read t.pcmout (idx k) = out.1[k]?) ∧
      ∀ i, (∀ k, k < p.len → i ≠ idx k) → Memory.read t.pcmout i = Memory.read s.pcmout i

/-! ## Errors and phases -/

/-- R224, R225, R221: an instruction that ends in the error phase, from outside it, has raised one error and done nothing
else; and only `DEC.OPEN`, `ENC.OPEN` and `DEC.FRAME` raise more than `IllegalCommand`, each the errors R220 lists for it.
(The wire words are the units of the two decoder operations.) -/
def Obligations.ErrorsArePrecise : Prop :=
  ∀ (i : Instr) (s t : State), exec i s = .next t → s.phase ≠ .error → t.phase = .error →
    ∃ e : Cause, t = { s with err := e.code.code, errInfo := e.info, phase := .error, res := [] } ∧
      (isCommand i = true →
        e.code = .illegalCommand ∨
        (i = .decOpen ∧ (e.code = .fileTooSmall ∨ e.code = .badMagic ∨ e.code = .noSamples ∨
          e.code = .invalidStreamHeader)) ∨
        (i = .encOpen ∧ (e.code = .invalidParameters ∨ e.code = .sampleCountMismatch)) ∨
        (i = .decFrame ∧ (e.code = .frameTooSmall ∨ e.code = .invalidFrame)))

/-- R233: in the error phase every command word but those of `NOP` and `RDREG`, legal or not, leaves every register, buffer
and result as it is. (The queue is the model's choice, notes/assumptions/1.md.) -/
def Obligations.ErrorPhaseIgnoresCommands : Prop :=
  ∀ (s : State) (w : CommandWord) (arg : List Int) (rest : List HostAction),
    s.pending = .command w arg :: rest → s.phase = .error → w.toNat / 2 ^ 24 ≠ 1 →
    step s = .next { s with arg := arg, pending := rest }

/-- R226, R224: only `RESET` leaves the error phase; no other step changes `ERR` or `ERR_INFO` there. (The queue is the model's
choice, notes/assumptions/1.md.) -/
def Obligations.OnlyResetLeavesTheErrorPhase : Prop :=
  ∀ s t : State, s.phase = .error → s.pending.head? ≠ some .reset → step s = .next t →
    t.phase = .error ∧ t.err = s.err ∧ t.errInfo = s.errInfo

/-- R34, R250: `RESET`, in any phase, gives every register its value and leaves the four buffers and the configuration; the
state at power-on has the same values (R251). (The queue and the configuration are the model's own, notes/assumptions/1.md,
4.md; what the ports hold then is its choice, 3.md, and not stated.) -/
def Obligations.ResetGivesEveryRegisterItsValue : Prop :=
  let registersReset (t : State) : Prop :=
    (∀ c, ints (t.lms.get c).h = [0, 0, 0, 0] ∧ ints (t.lms.get c).w = [0, 0, -8192, 16384] ∧ t.prevSf.get c = 0) ∧
    t.channels = 0 ∧ t.sampleRate = 0 ∧ t.samples = 0 ∧ t.errorCount = 0 ∧ t.phase = .needHeader ∧ t.mode = .none ∧
    t.samplePos = 0 ∧ t.bsinPos = 0 ∧ t.bsinLen = 0 ∧ t.bsoutPos = 0 ∧ t.outTotal = 0 ∧ t.pcminLen = 0 ∧
    t.err = 0 ∧ t.errInfo = 0
  registersReset State.reset ∧
  ∀ (s : State) (rest : List HostAction), s.pending = .reset :: rest →
    ∃ t, step s = .next t ∧ registersReset t ∧
      t.bsin = s.bsin ∧ t.bsout = s.bsout ∧ t.pcmin = s.pcmin ∧ t.pcmout = s.pcmout ∧ t.params = s.params ∧
      t.pending = rest

/-- R24: the only changes of `PHASE` and `MODE` a command makes. -/
def Obligations.PhaseChangesOnlyAsTabled : Prop :=
  ∀ (i : Instr) (s t : State), exec i s = .next t →
    (t.phase = s.phase ∧ t.mode = s.mode) ∨
    (i = .encOpen ∧ (s.phase = .needHeader ∨ s.phase = .done) ∧ t.phase = .needFrame ∧ t.mode = .enc) ∨
    (i = .decOpen ∧ (s.phase = .needHeader ∨ s.phase = .done) ∧ t.phase = .needFrame ∧ t.mode = .dec) ∨
    (i = .encFrame ∧ s.phase = .needFrame ∧ s.mode = .enc ∧ t.phase = .done ∧ t.mode = .enc ∧ t.samplePos = t.samples) ∨
    (i = .decFrame ∧ s.phase = .needFrame ∧ s.mode = .dec ∧ t.phase = .done ∧ t.mode = .dec) ∨
    (s.phase ≠ .error ∧ t.phase = .error ∧ t.mode = s.mode)

/-- R35: which commands may change which registers and spaces (`raise` apart); none changes `ARG`, the queue, the
configuration or an input buffer. (The queue and the configuration are the model's own, notes/assumptions/1.md, 4.md; that
`DEC.OPEN` changes `PCMOUT`, which R50 does not list, is its reading of R54, 8.md.) -/
def Obligations.OnlyListedOperationsWrite : Prop :=
  ∀ (i : Instr) (s t : State), isCommand i = true → exec i s = .next t →
    t.arg = s.arg ∧ t.pending = s.pending ∧ t.params = s.params ∧ t.bsin = s.bsin ∧ t.pcmin = s.pcmin ∧
    (∀ c : Fin 8, t.lms.get c ≠ s.lms.get c →
      i = .lmsInit ∨ i = .encOpen ∨ i = .decOpen ∨ ((i = .encFrame ∨ i = .decFrame) ∧ c.val < s.channels.toNat) ∨
      (channelNumber i = some c.val ∧
        ((∃ f, i = .lmsLoad f) ∨ (∃ f, i = .lmsUpdate f) ∨ (∃ f n, i = .decSlice f n) ∨ (∃ f n, i = .encSlice f n)))) ∧
    (t.prevSf ≠ s.prevSf ∨ t.errorCount ≠ s.errorCount → i = .encOpen ∨ i = .encFrame ∨ ∃ f n, i = .encSlice f n) ∧
    (t.channels ≠ s.channels ∨ t.sampleRate ≠ s.sampleRate → i = .encOpen ∨ i = .decOpen) ∧
    (t.samples ≠ s.samples → i = .encOpen ∨ i = .decOpen ∨ i = .decFrame) ∧
    (t.samplePos ≠ s.samplePos → i = .encOpen ∨ i = .encFrame ∨ i = .decOpen ∨ i = .decFrame) ∧
    (t.bsinPos ≠ s.bsinPos → i = .decOpen ∨ i = .decFrame) ∧ (t.bsinLen ≠ s.bsinLen → i = .decOpen) ∧
    (t.bsoutPos ≠ s.bsoutPos ∨ t.bsout ≠ s.bsout → i = .encOpen ∨ i = .encFrame) ∧
    (t.outTotal ≠ s.outTotal ∨ t.pcminLen ≠ s.pcminLen → i = .encOpen) ∧
    (t.pcmout ≠ s.pcmout → i = .decOpen ∨ i = .decFrame)

/-! ## Steps -/

/-- A step on a command word that decodes is that instruction on the operands given with it, in the state less the action
taken. That the host's actions wait in a queue is the model's choice (notes/assumptions/1.md). -/
def Obligations.StepRunsTheDecodedInstruction : Prop :=
  ∀ (s : State) (w : CommandWord) (arg : List Int) (rest : List HostAction) (i : Instr),
    s.pending = .command w arg :: rest → decode (.command w) = .ok i →
    step s = exec i { s with arg := arg, pending := rest }

/-- R64, R258 and the buffers' filling: `BSIN` takes the bytes at offsets 0, 1, … unless a decode is running, where the step
is refused; the same for `PCMIN` and a running encode; with nothing waiting the block holds its state. The queue is the
model's choice (notes/assumptions/1.md, 5.md). -/
def Obligations.HostFillsBuffersBetweenStreams : Prop :=
  ∀ (s : State) (rest : List HostAction),
    (s.pending = [] → step s = .next s) ∧
    (∀ bytes, s.pending = .fillBsin bytes :: rest →
      (s.phase = .needFrame ∧ s.mode = .dec → step s = .refused .hostBreaksBufferRule) ∧
      (¬ (s.phase = .needFrame ∧ s.mode = .dec) →
        ∃ t, step s = .next t ∧ t = { s with bsin := t.bsin, pending := rest } ∧
          ∀ a, Memory.read t.bsin a = bytes[a]?)) ∧
    (∀ samples, s.pending = .fillPcmin samples :: rest →
      (s.phase = .needFrame ∧ s.mode = .enc → step s = .refused .hostBreaksBufferRule) ∧
      (¬ (s.phase = .needFrame ∧ s.mode = .enc) →
        ∃ t, step s = .next t ∧ t = { s with pcmin := t.pcmin, pending := rest } ∧
          ∀ a, Memory.read t.pcmin a = samples[a]?))

/-! ## Invariants -/

/-- The registers' invariant and the canonical form of the spaces hold at power-on. -/
def Obligations.ResetKeepsTheInvariant : Prop :=
  State.reset.Inv ∧ State.reset.buffersWf ∧ State.reset.pcmoutExact ∧ State.reset.bsoutWritten

/-- 10_state.md R24, R26, R29, 20_memory.md R62: every step keeps the registers' invariant. -/
def Obligations.StepKeepsTheInvariant : Prop := ∀ s t : State, s.Inv → step s = .next t → t.Inv

/-- Every step keeps the canonical form of all four address spaces. -/
def Obligations.StepKeepsCanonicalSpaces : Prop := ∀ s t : State, s.buffersWf → step s = .next t → t.buffersWf

/-- 20_memory.md R54: in every state of a decode, `PCMOUT` holds exactly the samples emitted so far. (That it holds none of an
earlier decode after `DEC.OPEN` is the model's reading, notes/assumptions/8.md.) -/
def Obligations.StepKeepsPcmoutExact : Prop :=
  ∀ s t : State, s.Inv → s.pcmoutExact → step s = .next t → t.pcmoutExact

/-- 20_memory.md R52: in every state of an encode, every byte below `BSOUT_POS` has been written. -/
def Obligations.StepKeepsBsoutWritten : Prop :=
  ∀ s t : State, s.Inv → s.bsoutWritten → step s = .next t → t.bsoutWritten
end

