-- ==== Sys2Proof/Laws/Encoding.lean ====
section
/-! SUPPORT. The fields of a word made of its fields, a word from its own fields, and each field as a number: one lemma per
field (30_encoding.md R71, R74 to R78, R86). -/

namespace Sys2Proof

/-! ## Command words -/

@[simp] theorem opField_commandWord (op : BitVec 8) (c sf : BitVec 4) (imm : BitVec 16) : opField (commandWord op c sf imm) = op := by
  simp only [opField, commandWord]
  ext i hi
  simp only [BitVec.getElem_extractLsb', BitVec.getLsbD_append]
  grind

@[simp] theorem cField_commandWord (op : BitVec 8) (c sf : BitVec 4) (imm : BitVec 16) : cField (commandWord op c sf imm) = c := by
  simp only [cField, commandWord]
  ext i hi
  simp only [BitVec.getElem_extractLsb', BitVec.getLsbD_append]
  grind

@[simp] theorem sfField_commandWord (op : BitVec 8) (c sf : BitVec 4) (imm : BitVec 16) : sfField (commandWord op c sf imm) = sf := by
  simp only [sfField, commandWord]
  ext i hi
  simp only [BitVec.getElem_extractLsb', BitVec.getLsbD_append]
  grind

@[simp] theorem immField_commandWord (op : BitVec 8) (c sf : BitVec 4) (imm : BitVec 16) : immField (commandWord op c sf imm) = imm := by
  simp only [immField, commandWord]
  ext i hi
  simp only [BitVec.getElem_extractLsb', BitVec.getLsbD_append]
  grind

theorem commandWord_fields (w : CommandWord) : commandWord (opField w) (cField w) (sfField w) (immField w) = w := by
  simp only [opField, cField, sfField, immField, commandWord]
  ext i hi
  simp only [BitVec.getElem_append, BitVec.getElem_extractLsb']
  grind

/-! ## Wire words -/

@[simp] theorem fileHeaderMagic_pack (samples : BitVec 32) : fileHeaderMagic (fileHeaderPack samples) = magic := by
  simp only [fileHeaderMagic, fileHeaderPack]
  ext i hi
  simp only [BitVec.getElem_extractLsb', BitVec.getLsbD_append]
  grind

@[simp] theorem fileHeaderSamples_pack (samples : BitVec 32) : fileHeaderSamples (fileHeaderPack samples) = samples := by
  simp only [fileHeaderSamples, fileHeaderPack]
  ext i hi
  simp only [BitVec.getElem_extractLsb', BitVec.getLsbD_append]
  grind

theorem fileHeaderPack_fields {w : WireWord} (h : fileHeaderMagic w = magic) : fileHeaderPack (fileHeaderSamples w) = w := by
  rw [fileHeaderPack, ← h]
  simp only [fileHeaderMagic, fileHeaderSamples]
  ext i hi
  simp only [BitVec.getElem_append, BitVec.getElem_extractLsb']
  grind

@[simp] theorem headerChannels_pack (ch : BitVec 8) (sr : BitVec 24) (n z : BitVec 16) : headerChannels (frameHeaderPack ch sr n z) = ch := by
  simp only [headerChannels, frameHeaderPack]
  ext i hi
  simp only [BitVec.getElem_extractLsb', BitVec.getLsbD_append]
  grind

@[simp] theorem headerSampleRate_pack (ch : BitVec 8) (sr : BitVec 24) (n z : BitVec 16) : headerSampleRate (frameHeaderPack ch sr n z) = sr := by
  simp only [headerSampleRate, frameHeaderPack]
  ext i hi
  simp only [BitVec.getElem_extractLsb', BitVec.getLsbD_append]
  grind

@[simp] theorem headerFsamples_pack (ch : BitVec 8) (sr : BitVec 24) (n z : BitVec 16) : headerFsamples (frameHeaderPack ch sr n z) = n := by
  simp only [headerFsamples, frameHeaderPack]
  ext i hi
  simp only [BitVec.getElem_extractLsb', BitVec.getLsbD_append]
  grind

@[simp] theorem headerFsize_pack (ch : BitVec 8) (sr : BitVec 24) (n z : BitVec 16) : headerFsize (frameHeaderPack ch sr n z) = z := by
  simp only [headerFsize, frameHeaderPack]
  ext i hi
  simp only [BitVec.getElem_extractLsb', BitVec.getLsbD_append]
  grind

theorem frameHeaderPack_fields (w : WireWord) : frameHeaderPack (headerChannels w) (headerSampleRate w) (headerFsamples w) (headerFsize w) = w := by
  simp only [headerChannels, headerSampleRate, headerFsamples, headerFsize, frameHeaderPack]
  ext i hi
  simp only [BitVec.getElem_append, BitVec.getElem_extractLsb']
  grind

theorem pack4_unpack4 (w : WireWord) : pack4 (unpack4 w) = w := by
  simp only [pack4, unpack4]
  ext i hi
  simp only [BitVec.getElem_append, BitVec.getElem_extractLsb']
  grind

@[simp] theorem unpack4_pack4 (v : Quad Sample) : unpack4 (pack4 v) = v := by
  obtain ⟨a, b, c, d⟩ := v
  simp only [pack4, unpack4, Quad.mk.injEq]
  refine ⟨?_, ?_, ?_, ?_⟩ <;>
    (ext i hi; simp only [BitVec.getElem_extractLsb', BitVec.getLsbD_append]; grind)

@[simp] theorem sliceSf_slicePack (sf : BitVec 4) (qs : BitVec 60) : sliceSf (slicePack sf qs) = sf := by
  simp only [sliceSf, slicePack]
  ext i hi
  simp only [BitVec.getElem_extractLsb', BitVec.getLsbD_append]
  grind

@[simp] theorem sliceIndices_slicePack (sf : BitVec 4) (qs : BitVec 60) : sliceIndices (slicePack sf qs) = qs := by
  simp only [sliceIndices, slicePack]
  ext i hi
  simp only [BitVec.getElem_extractLsb', BitVec.getLsbD_append]
  grind

theorem slicePack_fields (w : WireWord) : slicePack (sliceSf w) (sliceIndices w) = w := by
  simp only [sliceSf, sliceIndices, slicePack]
  ext i hi
  simp only [BitVec.getElem_append, BitVec.getElem_extractLsb']
  grind

/-! ## Fields as numbers -/

theorem opField_toNat (w : CommandWord) : (opField w).toNat = w.toNat / 2 ^ 24 := by
  have := w.isLt
  rw [opField, BitVec.extractLsb'_toNat, Nat.shiftRight_eq_div_pow]
  omega

theorem cField_toNat (w : CommandWord) : (cField w).toNat = w.toNat / 2 ^ 20 % 2 ^ 4 := by
  rw [cField, BitVec.extractLsb'_toNat, Nat.shiftRight_eq_div_pow]

theorem sfField_toNat (w : CommandWord) : (sfField w).toNat = w.toNat / 2 ^ 16 % 2 ^ 4 := by
  rw [sfField, BitVec.extractLsb'_toNat, Nat.shiftRight_eq_div_pow]

theorem immField_toNat (w : CommandWord) : (immField w).toNat = w.toNat % 2 ^ 16 := by
  rw [immField, BitVec.extractLsb'_toNat, Nat.shiftRight_eq_div_pow]
  omega

theorem fileHeaderMagic_toNat (w : WireWord) : (fileHeaderMagic w).toNat = w.toNat / 2 ^ 32 := by
  have := w.isLt
  rw [fileHeaderMagic, BitVec.extractLsb'_toNat, Nat.shiftRight_eq_div_pow]
  omega

theorem fileHeaderSamples_toNat (w : WireWord) : (fileHeaderSamples w).toNat = w.toNat % 2 ^ 32 := by
  rw [fileHeaderSamples, BitVec.extractLsb'_toNat, Nat.shiftRight_eq_div_pow]
  omega

theorem headerChannels_toNat (w : WireWord) : (headerChannels w).toNat = w.toNat / 2 ^ 56 := by
  have := w.isLt
  rw [headerChannels, BitVec.extractLsb'_toNat, Nat.shiftRight_eq_div_pow]
  omega

theorem headerSampleRate_toNat (w : WireWord) : (headerSampleRate w).toNat = w.toNat / 2 ^ 32 % 2 ^ 24 := by
  rw [headerSampleRate, BitVec.extractLsb'_toNat, Nat.shiftRight_eq_div_pow]

theorem headerFsamples_toNat (w : WireWord) : (headerFsamples w).toNat = w.toNat / 2 ^ 16 % 2 ^ 16 := by
  rw [headerFsamples, BitVec.extractLsb'_toNat, Nat.shiftRight_eq_div_pow]

theorem headerFsize_toNat (w : WireWord) : (headerFsize w).toNat = w.toNat % 2 ^ 16 := by
  rw [headerFsize, BitVec.extractLsb'_toNat, Nat.shiftRight_eq_div_pow]
  omega

theorem sliceSf_toNat (w : WireWord) : (sliceSf w).toNat = w.toNat / 2 ^ 60 := by
  have := w.isLt
  rw [sliceSf, BitVec.extractLsb'_toNat, Nat.shiftRight_eq_div_pow]
  omega

theorem sliceQ_toNat (w : WireWord) (k : Nat) : (sliceQ w k).toNat = w.toNat / 2 ^ (57 - 3 * k) % 8 := by
  rw [sliceQ, BitVec.extractLsb'_toNat, Nat.shiftRight_eq_div_pow]

theorem fileHeaderPack_toNat (n : BitVec 32) : (fileHeaderPack n).toNat = 0x716f6166 * 2 ^ 32 + n.toNat := by
  have := n.isLt
  rw [fileHeaderPack, BitVec.toNat_append, ← Nat.shiftLeft_add_eq_or_of_lt this, Nat.shiftLeft_eq]
  rfl

theorem frameHeaderPack_toNat (ch : BitVec 8) (sr : BitVec 24) (n z : BitVec 16) :
    (frameHeaderPack ch sr n z).toNat = ch.toNat * 2 ^ 56 + sr.toNat * 2 ^ 32 + n.toNat * 2 ^ 16 + z.toNat := by
  have h1 := sr.isLt
  have h2 := n.isLt
  have h3 := z.isLt
  rw [frameHeaderPack, BitVec.toNat_append, ← Nat.shiftLeft_add_eq_or_of_lt h3,
    BitVec.toNat_append, ← Nat.shiftLeft_add_eq_or_of_lt h2, BitVec.toNat_append, ← Nat.shiftLeft_add_eq_or_of_lt h1]
  simp only [Nat.shiftLeft_eq]
  omega

theorem pack4_toNat (v : Quad Sample) :
    (pack4 v).toNat = v.t0.toNat * 2 ^ 48 + v.t1.toNat * 2 ^ 32 + v.t2.toNat * 2 ^ 16 + v.t3.toNat := by
  have h1 := v.t1.isLt
  have h2 := v.t2.isLt
  have h3 := v.t3.isLt
  rw [pack4, BitVec.toNat_append, ← Nat.shiftLeft_add_eq_or_of_lt h3,
    BitVec.toNat_append, ← Nat.shiftLeft_add_eq_or_of_lt h2, BitVec.toNat_append, ← Nat.shiftLeft_add_eq_or_of_lt h1]
  simp only [Nat.shiftLeft_eq]
  omega

/-! ## The opcode map -/

/-- The rows of the opcode map have different `op` bytes (30_encoding.md R73). -/
theorem commandTable_ops_differ : (commandTable.map CommandRow.op).Nodup := by decide

end Sys2Proof
end

