-- ==== Sys2Proof/Laws/Operands.lean ====
section
/-! SUPPORT. When each operand form and test passes, and with what; how an operation that passes them all, or fails one,
ends. -/

namespace Sys2Proof.Machine

/-! ## Sequences of tests -/

theorem bind_eq_ok {ε α β : Type} {x : Except ε α} {f : α → Except ε β} {b : β} :
    (x >>= f) = .ok b ↔ ∃ a, x = .ok a ∧ f a = .ok b := by
  cases x <;> simp [bind, Except.bind]

theorem bind_eq_error {ε α β : Type} {x : Except ε α} {f : α → Except ε β} {e : ε} :
    (x >>= f) = .error e ↔ x = .error e ∨ ∃ a, x = .ok a ∧ f a = .error e := by
  cases x <;> simp [bind, Except.bind]

@[simp] theorem ok_bind {ε α β : Type} (a : α) (f : α → Except ε β) : ((Except.ok a : Except ε α) >>= f) = f a := rfl

@[simp] theorem error_bind {ε α β : Type} (e : ε) (f : α → Except ε β) :
    ((Except.error e : Except ε α) >>= f) = .error e := rfl

@[simp] theorem pure_eq_ok {ε α : Type} (a : α) : (pure a : Except ε α) = .ok a := rfl

/-! ## Operand forms -/

theorem require_eq_ok {b : Bool} {e : Cause} {u : Unit} : require b e = .ok u ↔ b = true := by
  cases b <;> simp [require]

theorem require_eq_error {b : Bool} {e e' : Cause} : require b e = .error e' ↔ b = false ∧ e = e' := by
  cases b <;> simp [require]

@[simp] theorem require_true (e : Cause) : require true e = .ok () := rfl

@[simp] theorem require_false (e : Cause) : require false e = .error e := rfl

theorem channelOperand_eq_ok {c : BitVec 4} {ch : Fin 8} : channelOperand c = .ok ch ↔ c.toNat = ch.val := by
  unfold channelOperand
  split
  · simp [Fin.ext_iff]
  · simp only [reduceCtorEq, false_iff]; omega

theorem channelOperand_eq_error {c : BitVec 4} {e : Cause} :
    channelOperand c = .error e ↔ 8 ≤ c.toNat ∧ e = illegal 3 := by
  unfold channelOperand
  split
  · simp only [reduceCtorEq, false_iff]; omega
  · simp only [Except.error.injEq]; constructor
    · rintro rfl; exact ⟨by omega, rfl⟩
    · rintro ⟨-, rfl⟩; rfl

theorem lenFieldOk_iff {len : BitVec 16} : lenFieldOk len = true ↔ 1 ≤ len.toNat ∧ len.toNat ≤ 20 := by
  simp [lenFieldOk]

theorem lenOperand_eq_ok {len : BitVec 16} {n : Nat} :
    lenOperand len = .ok n ↔ len.toNat = n ∧ 1 ≤ n ∧ n ≤ 20 := by
  unfold lenOperand
  split
  · rename_i h; rw [lenFieldOk_iff] at h
    simp only [Except.ok.injEq]
    constructor
    · rintro rfl; exact ⟨rfl, h⟩
    · exact fun h => h.1
  · rename_i h; rw [lenFieldOk_iff] at h
    simp only [reduceCtorEq, false_iff]
    rintro ⟨rfl, h1⟩; exact h h1

theorem lenOperand_eq_error {len : BitVec 16} {e : Cause} :
    lenOperand len = .error e ↔ ¬ (1 ≤ len.toNat ∧ len.toNat ≤ 20) ∧ e = illegal 4 := by
  unfold lenOperand
  split
  · rename_i h; rw [lenFieldOk_iff] at h; simp [h]
  · rename_i h; rw [lenFieldOk_iff] at h; simp only [Except.error.injEq, h, not_false_eq_true, true_and]
    exact eq_comm

theorem indexOperand_eq_ok {i : BitVec 16} {top n : Nat} :
    indexOperand i top = .ok n ↔ i.toNat = n ∧ n ≤ top := by
  unfold indexOperand
  split
  · simp only [Except.ok.injEq]
    constructor
    · rintro rfl; exact ⟨rfl, by assumption⟩
    · exact fun h => h.1
  · simp only [reduceCtorEq, false_iff]
    rintro ⟨rfl, h⟩; contradiction

theorem indexOperand_eq_error {i : BitVec 16} {top : Nat} {e : Cause} :
    indexOperand i top = .error e ↔ top < i.toNat ∧ e = illegal 4 := by
  unfold indexOperand
  split
  · simp only [reduceCtorEq, false_iff]; omega
  · simp only [Except.error.injEq]
    constructor
    · rintro rfl; exact ⟨by omega, rfl⟩
    · rintro ⟨-, rfl⟩; rfl

theorem noOperand_eq_ok {arg : List Int} {u : Unit} : noOperand arg = .ok u ↔ arg = [] := by
  simp [noOperand, require_eq_ok]

theorem noOperand_eq_error {arg : List Int} {e : Cause} : noOperand arg = .error e ↔ arg ≠ [] ∧ e = illegal 5 := by
  rw [noOperand, require_eq_error, @eq_comm Cause (illegal 5) e]
  simp

@[simp] theorem noOperand_nil : noOperand [] = .ok () := rfl

theorem oneOperand_eq_ok {range : Int → Bool} {arg : List Int} {a : Int} :
    oneOperand range arg = .ok a ↔ arg = [a] ∧ range a = true := by
  unfold oneOperand
  split
  · split
    · rename_i x h
      constructor
      · rintro ⟨⟩; exact ⟨rfl, h⟩
      · rintro ⟨⟨⟩, -⟩; rfl
    · rename_i x h; simp only [reduceCtorEq, List.cons.injEq, and_true, false_iff]
      rintro ⟨rfl, h2⟩; exact h h2
  · rename_i h; simp only [reduceCtorEq, false_iff]
    rintro ⟨rfl, -⟩; exact h a rfl

theorem oneOperand_eq_error {range : Int → Bool} {arg : List Int} {e : Cause} :
    oneOperand range arg = .error e ↔ (¬ ∃ a, arg = [a] ∧ range a = true) ∧ e = illegal 5 := by
  unfold oneOperand
  split
  · split
    · rename_i x h; simp [h]
    · rename_i x h; rw [Except.error.injEq, @eq_comm Cause (illegal 5) e]; simp [h]
  · rename_i h; simp only [Except.error.injEq]
    constructor
    · rintro rfl; exact ⟨by rintro ⟨a, rfl, -⟩; exact h a rfl, rfl⟩
    · exact fun h => h.2.symm

theorem twoOperands_eq_ok {range : Int → Bool} {arg : List Int} {p : Int × Int} :
    twoOperands range arg = .ok p ↔ arg = [p.1, p.2] ∧ range p.1 = true ∧ range p.2 = true := by
  obtain ⟨a, b⟩ := p
  unfold twoOperands
  split
  · split
    · rename_i x y h; simp only [Bool.and_eq_true] at h
      simp only [Except.ok.injEq, Prod.mk.injEq, List.cons.injEq, and_true]
      constructor
      · rintro ⟨rfl, rfl⟩; exact ⟨⟨rfl, rfl⟩, h⟩
      · exact fun h => h.1
    · rename_i x y h; simp only [Bool.and_eq_true] at h
      simp only [reduceCtorEq, List.cons.injEq, and_true, false_iff]
      rintro ⟨⟨rfl, rfl⟩, h2⟩; exact h h2
  · rename_i h; simp only [reduceCtorEq, false_iff]
    rintro ⟨rfl, -⟩; exact h a b rfl

theorem twoOperands_eq_error {range : Int → Bool} {arg : List Int} {e : Cause} :
    twoOperands range arg = .error e ↔
      (¬ ∃ a b, arg = [a, b] ∧ range a = true ∧ range b = true) ∧ e = illegal 5 := by
  unfold twoOperands
  split
  · split
    · rename_i x y h; simp only [Bool.and_eq_true] at h; simp [h]
    · rename_i x y h; simp only [Bool.and_eq_true] at h
      simp only [Except.error.injEq]
      constructor
      · rintro rfl
        refine ⟨?_, rfl⟩
        rintro ⟨a, b, hab, h2⟩
        cases hab
        exact h h2
      · exact fun h => h.2.symm
  · rename_i h; simp only [Except.error.injEq]
    constructor
    · rintro rfl; exact ⟨by rintro ⟨a, b, rfl, -⟩; exact h a b rfl, rfl⟩
    · exact fun h => h.2.symm

theorem samplesOperand_eq_ok {n : Nat} {arg : List Int} {xs : List Sample} :
    samplesOperand n arg = .ok xs ↔
      arg.length = n ∧ arg.all isInt16 = true ∧ xs = arg.map (BitVec.ofInt 16) := by
  unfold samplesOperand operandList
  split <;> rename_i h
  · split at h
    · rename_i h2; cases h; simp only [Except.ok.injEq, h2, true_and]; exact eq_comm
    · cases h
  · split at h
    · cases h
    · rename_i h2; simp only [reduceCtorEq, false_iff]
      rintro ⟨h3, h4, -⟩; exact h2 ⟨h3, h4⟩

theorem samplesOperand_eq_error {n : Nat} {arg : List Int} {e : Cause} :
    samplesOperand n arg = .error e ↔ ¬ (arg.length = n ∧ arg.all isInt16 = true) ∧ e = illegal 5 := by
  unfold samplesOperand operandList
  by_cases h : arg.length = n ∧ arg.all isInt16 = true
  · simp [h]
  · rw [if_neg h, Except.error.injEq, @eq_comm Cause (illegal 5) e]
    exact ⟨fun he => ⟨h, he⟩, fun he => he.2⟩

/-! ## How an operation ends -/

/-- An operation that does not reach its own effect: ignored in the error phase, or the state with its error raised. -/
def State.turnedAway (s t : State) (e : Cause) : Prop :=
  (s.phase = .error ∧ t = s) ∨ (s.phase ≠ .error ∧ t = s.raise e)

@[simp] theorem settle_ok (s t : State) : settle s (.ok t) = .next t := rfl

theorem settle_error (s : State) (e : Cause) :
    settle s (.error e) = .next (if s.phase = .error then s else s.raise e) := by
  unfold settle
  split
  · contradiction
  · rename_i h; cases h; split <;> rfl

/-- All that `settle` can answer. -/
theorem settle_next {s t : State} {v : Verdict} (h : settle s v = .next t) :
    v = .ok t ∨ ∃ e, v = .error e ∧ s.turnedAway t e := by
  cases v with
  | ok u => cases h; exact .inl rfl
  | error e =>
    rw [settle_error] at h
    refine .inr ⟨e, rfl, ?_⟩
    by_cases hp : s.phase = .error
    · rw [if_pos hp] at h; cases h; exact .inl ⟨hp, rfl⟩
    · rw [if_neg hp] at h; cases h; exact .inr ⟨hp, rfl⟩

/-- `settle` always answers a next state. -/
theorem settle_answers (s : State) (v : Verdict) : ∃ t, settle s v = .next t := by
  cases v with
  | ok u => exact ⟨u, rfl⟩
  | error e => exact ⟨_, settle_error s e⟩

theorem operate_error_phase {s : State} (h : s.phase = .error) (v : Verdict) : operate s v = .next s := by
  simp [operate, h]

theorem operate_eq_settle {s : State} (h : s.phase ≠ .error) (v : Verdict) : operate s v = settle s v := by
  simp [operate, h]

theorem operate_ok {s t : State} {v : Verdict} (h : s.phase ≠ .error) (hv : v = .ok t) : operate s v = .next t := by
  rw [operate_eq_settle h, hv]; rfl

theorem operate_raise {s : State} {v : Verdict} {e : Cause} (h : s.phase ≠ .error) (hv : v = .error e) :
    operate s v = .next (s.raise e) := by
  rw [operate_eq_settle h, hv, settle_error, if_neg h]

/-- All that `operate` can answer: ignored, the operation's own state, or its error. -/
theorem operate_next {s t : State} {v : Verdict} (h : operate s v = .next t) :
    (s.phase = .error ∧ t = s) ∨ (s.phase ≠ .error ∧ (v = .ok t ∨ ∃ e, v = .error e ∧ t = s.raise e)) := by
  by_cases hp : s.phase = .error
  · rw [operate_error_phase hp] at h; cases h; exact .inl ⟨hp, rfl⟩
  · rw [operate_eq_settle hp] at h
    rcases settle_next h with h | ⟨e, he, h | h⟩
    · exact .inr ⟨hp, .inl h⟩
    · exact absurd h.1 hp
    · exact .inr ⟨hp, .inr ⟨e, he, h.2⟩⟩

theorem operate_answers (s : State) (v : Verdict) : ∃ t, operate s v = .next t := by
  unfold operate; split
  · exact ⟨s, rfl⟩
  · exact settle_answers s v

end Sys2Proof.Machine
end

