-- ==== Sys2Proof/Laws/Exec.lean ====
section
/-! SUPPORT. One inversion lemma per meaning: what it can answer, and under which tests; and its converse, that it answers
its own effect where the tests pass. Provers cite these in place of unfolding a meaning. -/

namespace Sys2Proof.Machine

/-- Ignored in the error phase, or an error raised and nothing else. -/
def State.stopped (s t : State) : Prop := ∃ e, s.turnedAway t e

/-- The results of `ENC.TRIAL` (42_slice.md R146). -/
def trialResults (t : Trial) : List Int :=
  [wordResult t.word, (t.err : Int), (t.rank : Int), wordResult (pack4 t.lms.h), wordResult (pack4 t.lms.w)]

/-- The results of `ENC.SLICE` (43_frame.md R167). -/
def searchResults (b : Best) : List Int := [wordResult b.word, (b.sf.toNat : Int), (b.err : Int)]

theorem State.stopped_of_ignored {s t : State} (hp : s.phase = .error) (ht : t = s) : s.stopped t :=
  ⟨illegal 1, .inl ⟨hp, ht⟩⟩

theorem State.stopped_of_raise {s t : State} {e : Cause} (hp : s.phase ≠ .error) (ht : t = s.raise e) : s.stopped t :=
  ⟨e, .inr ⟨hp, ht⟩⟩

/-- `operate`, with the two ways of being turned away put together. -/
theorem operate_cases {s t : State} {v : Verdict} (h : operate s v = .next t) :
    s.stopped t ∨ (s.phase ≠ .error ∧ v = .ok t) := by
  rcases operate_next h with ⟨hp, ht⟩ | ⟨hp, hv | ⟨e, -, ht⟩⟩
  · exact .inl (State.stopped_of_ignored hp ht)
  · exact .inr ⟨hp, hv⟩
  · exact .inl (State.stopped_of_raise hp ht)

/-- `settle`, the same. -/
theorem settle_cases {s t : State} {v : Verdict} (h : settle s v = .next t) : s.stopped t ∨ v = .ok t := by
  rcases settle_next h with h | ⟨e, -, h⟩
  · exact .inr h
  · exact .inl ⟨e, h⟩

theorem consume_answers (b : Bool) (s : State) (v : Verdict) : ∃ t, consume b s v = .next t := by
  cases b
  · exact ⟨s, rfl⟩
  · exact settle_answers s v

/-- `consume`: not consumed, turned away, or the word's effect. -/
theorem consume_cases {b : Bool} {s t : State} {v : Verdict} (h : consume b s v = .next t) :
    (b = false ∧ t = s) ∨ (b = true ∧ (s.stopped t ∨ v = .ok t)) := by
  cases b
  · cases h; exact .inl ⟨rfl, rfl⟩
  · exact .inr ⟨rfl, settle_cases h⟩

theorem execFnClamp_next {s t : State} (h : execFnClamp s = .next t) :
    s.stopped t ∨ (s.phase ≠ .error ∧ ∃ v lo hi, clampOperands s.arg = .ok (v, lo, hi) ∧ t = s.returns [clamp v lo hi]) := by
  rcases operate_cases h with h | ⟨hp, h⟩
  · exact .inl h
  · simp only [bind_eq_ok, pure_eq_ok, Except.ok.injEq] at h
    obtain ⟨⟨v, lo, hi⟩, h1, h2⟩ := h
    exact .inr ⟨hp, v, lo, hi, h1, h2.symm⟩

theorem execFnClamp_ok {s : State} {v : Int} {lo : Int} {hi : Int} (hp : s.phase ≠ .error) (h1 : clampOperands s.arg = .ok (v, lo, hi)) :
    execFnClamp s = .next (s.returns [clamp v lo hi]) :=
  operate_ok hp (by simp only [h1, ok_bind, pure_eq_ok])

theorem execFnClamps16_next {s t : State} (h : execFnClamps16 s = .next t) :
    s.stopped t ∨ (s.phase ≠ .error ∧ ∃ v, oneOperand isInt64 s.arg = .ok v ∧ t = s.returns [clampS16 v]) := by
  rcases operate_cases h with h | ⟨hp, h⟩
  · exact .inl h
  · simp only [bind_eq_ok, pure_eq_ok, Except.ok.injEq] at h
    obtain ⟨v, h1, h2⟩ := h
    exact .inr ⟨hp, v, h1, h2.symm⟩

theorem execFnClamps16_ok {s : State} {v : Int} (hp : s.phase ≠ .error) (h1 : oneOperand isInt64 s.arg = .ok v) :
    execFnClamps16 s = .next (s.returns [clampS16 v]) :=
  operate_ok hp (by simp only [h1, ok_bind, pure_eq_ok])

theorem execFnDivide_next {sf : BitVec 4} {s t : State} (h : execFnDivide sf s = .next t) :
    s.stopped t ∨ (s.phase ≠ .error ∧ ∃ r, oneOperand isResidual s.arg = .ok r ∧ t = s.returns [divide r sf]) := by
  rcases operate_cases h with h | ⟨hp, h⟩
  · exact .inl h
  · simp only [bind_eq_ok, pure_eq_ok, Except.ok.injEq] at h
    obtain ⟨r, h1, h2⟩ := h
    exact .inr ⟨hp, r, h1, h2.symm⟩

theorem execFnDivide_ok {sf : BitVec 4} {s : State} {r : Int} (hp : s.phase ≠ .error) (h1 : oneOperand isResidual s.arg = .ok r) :
    execFnDivide sf s = .next (s.returns [divide r sf]) :=
  operate_ok hp (by simp only [h1, ok_bind, pure_eq_ok])

theorem execTblRecip_next {sf : BitVec 4} {s t : State} (h : execTblRecip sf s = .next t) :
    s.stopped t ∨ (s.phase ≠ .error ∧ noOperand s.arg = .ok () ∧ t = s.returns [(recip sf : Int)]) := by
  rcases operate_cases h with h | ⟨hp, h⟩
  · exact .inl h
  · simp only [bind_eq_ok, pure_eq_ok, Except.ok.injEq] at h
    obtain ⟨⟨⟩, h1, h2⟩ := h
    exact .inr ⟨hp, h1, h2.symm⟩

theorem execTblRecip_ok {sf : BitVec 4} {s : State} (hp : s.phase ≠ .error) (h1 : noOperand s.arg = .ok ()) :
    execTblRecip sf s = .next (s.returns [(recip sf : Int)]) :=
  operate_ok hp (by simp only [h1, ok_bind, pure_eq_ok])

theorem execTblQuant_next {i : BitVec 16} {s t : State} (h : execTblQuant i s = .next t) :
    s.stopped t ∨ (s.phase ≠ .error ∧ ∃ n, indexOperand i 16 = .ok n ∧ noOperand s.arg = .ok () ∧ t = s.returns [((quant n).toNat : Int)]) := by
  rcases operate_cases h with h | ⟨hp, h⟩
  · exact .inl h
  · simp only [bind_eq_ok, pure_eq_ok, Except.ok.injEq] at h
    obtain ⟨n, h1, ⟨⟩, h2, h3⟩ := h
    exact .inr ⟨hp, n, h1, h2, h3.symm⟩

theorem execTblQuant_ok {i : BitVec 16} {s : State} {n : Nat} (hp : s.phase ≠ .error) (h1 : indexOperand i 16 = .ok n) (h2 : noOperand s.arg = .ok ()) :
    execTblQuant i s = .next (s.returns [((quant n).toNat : Int)]) :=
  operate_ok hp (by simp only [h1, h2, ok_bind, pure_eq_ok])

theorem execTblDequant_next {sf : BitVec 4} {q : BitVec 16} {s t : State} (h : execTblDequant sf q s = .next t) :
    s.stopped t ∨ (s.phase ≠ .error ∧ ∃ n, indexOperand q 7 = .ok n ∧ noOperand s.arg = .ok () ∧ t = s.returns [dequant sf (BitVec.ofNat 3 n)]) := by
  rcases operate_cases h with h | ⟨hp, h⟩
  · exact .inl h
  · simp only [bind_eq_ok, pure_eq_ok, Except.ok.injEq] at h
    obtain ⟨n, h1, ⟨⟩, h2, h3⟩ := h
    exact .inr ⟨hp, n, h1, h2, h3.symm⟩

theorem execTblDequant_ok {sf : BitVec 4} {q : BitVec 16} {s : State} {n : Nat} (hp : s.phase ≠ .error) (h1 : indexOperand q 7 = .ok n) (h2 : noOperand s.arg = .ok ()) :
    execTblDequant sf q s = .next (s.returns [dequant sf (BitVec.ofNat 3 n)]) :=
  operate_ok hp (by simp only [h1, h2, ok_bind, pure_eq_ok])

theorem execLmsInit_next {s t : State} (h : execLmsInit s = .next t) :
    s.stopped t ∨ (s.phase ≠ .error ∧ noOperand s.arg = .ok () ∧ t = { s with lms := allChannels Lms.seed }.returns []) := by
  rcases operate_cases h with h | ⟨hp, h⟩
  · exact .inl h
  · simp only [bind_eq_ok, pure_eq_ok, Except.ok.injEq] at h
    obtain ⟨⟨⟩, h1, h2⟩ := h
    exact .inr ⟨hp, h1, h2.symm⟩

theorem execLmsInit_ok {s : State} (hp : s.phase ≠ .error) (h1 : noOperand s.arg = .ok ()) :
    execLmsInit s = .next ({ s with lms := allChannels Lms.seed }.returns []) :=
  operate_ok hp (by simp only [h1, ok_bind, pure_eq_ok])

theorem execLmsLoad_next {c : BitVec 4} {s t : State} (h : execLmsLoad c s = .next t) :
    s.stopped t ∨ (s.phase ≠ .error ∧ ∃ ch hw ww, channelOperand c = .ok ch ∧ twoOperands isUnsigned64 s.arg = .ok (hw, ww) ∧ t = (s.setLms ch ⟨unpack4 (wordOperand hw), unpack4 (wordOperand ww)⟩).returns []) := by
  rcases operate_cases h with h | ⟨hp, h⟩
  · exact .inl h
  · simp only [bind_eq_ok, pure_eq_ok, Except.ok.injEq] at h
    obtain ⟨ch, h1, ⟨hw, ww⟩, h2, h3⟩ := h
    exact .inr ⟨hp, ch, hw, ww, h1, h2, h3.symm⟩

theorem execLmsLoad_ok {c : BitVec 4} {s : State} {ch : Fin 8} {hw : Int} {ww : Int} (hp : s.phase ≠ .error) (h1 : channelOperand c = .ok ch) (h2 : twoOperands isUnsigned64 s.arg = .ok (hw, ww)) :
    execLmsLoad c s = .next ((s.setLms ch ⟨unpack4 (wordOperand hw), unpack4 (wordOperand ww)⟩).returns []) :=
  operate_ok hp (by simp only [h1, h2, ok_bind, pure_eq_ok])

theorem execLmsStore_next {c : BitVec 4} {s t : State} (h : execLmsStore c s = .next t) :
    s.stopped t ∨ (s.phase ≠ .error ∧ ∃ ch, channelOperand c = .ok ch ∧ noOperand s.arg = .ok () ∧ t = s.returns [wordResult (pack4 (s.lms.get ch).h), wordResult (pack4 (s.lms.get ch).w)]) := by
  rcases operate_cases h with h | ⟨hp, h⟩
  · exact .inl h
  · simp only [bind_eq_ok, pure_eq_ok, Except.ok.injEq] at h
    obtain ⟨ch, h1, ⟨⟩, h2, h3⟩ := h
    exact .inr ⟨hp, ch, h1, h2, h3.symm⟩

theorem execLmsStore_ok {c : BitVec 4} {s : State} {ch : Fin 8} (hp : s.phase ≠ .error) (h1 : channelOperand c = .ok ch) (h2 : noOperand s.arg = .ok ()) :
    execLmsStore c s = .next (s.returns [wordResult (pack4 (s.lms.get ch).h), wordResult (pack4 (s.lms.get ch).w)]) :=
  operate_ok hp (by simp only [h1, h2, ok_bind, pure_eq_ok])

theorem execLmsPredict_next {c : BitVec 4} {s t : State} (h : execLmsPredict c s = .next t) :
    s.stopped t ∨ (s.phase ≠ .error ∧ ∃ ch, channelOperand c = .ok ch ∧ noOperand s.arg = .ok () ∧ t = s.returns [predict (s.lms.get ch)]) := by
  rcases operate_cases h with h | ⟨hp, h⟩
  · exact .inl h
  · simp only [bind_eq_ok, pure_eq_ok, Except.ok.injEq] at h
    obtain ⟨ch, h1, ⟨⟩, h2, h3⟩ := h
    exact .inr ⟨hp, ch, h1, h2, h3.symm⟩

theorem execLmsPredict_ok {c : BitVec 4} {s : State} {ch : Fin 8} (hp : s.phase ≠ .error) (h1 : channelOperand c = .ok ch) (h2 : noOperand s.arg = .ok ()) :
    execLmsPredict c s = .next (s.returns [predict (s.lms.get ch)]) :=
  operate_ok hp (by simp only [h1, h2, ok_bind, pure_eq_ok])

theorem execLmsUpdate_next {c : BitVec 4} {s t : State} (h : execLmsUpdate c s = .next t) :
    s.stopped t ∨ (s.phase ≠ .error ∧ ∃ ch x dq, channelOperand c = .ok ch ∧ twoOperands isInt16 s.arg = .ok (x, dq) ∧ t = (s.setLms ch (update (s.lms.get ch) (BitVec.ofInt 16 x) dq)).returns []) := by
  rcases operate_cases h with h | ⟨hp, h⟩
  · exact .inl h
  · simp only [bind_eq_ok, pure_eq_ok, Except.ok.injEq] at h
    obtain ⟨ch, h1, ⟨x, dq⟩, h2, h3⟩ := h
    exact .inr ⟨hp, ch, x, dq, h1, h2, h3.symm⟩

theorem execLmsUpdate_ok {c : BitVec 4} {s : State} {ch : Fin 8} {x : Int} {dq : Int} (hp : s.phase ≠ .error) (h1 : channelOperand c = .ok ch) (h2 : twoOperands isInt16 s.arg = .ok (x, dq)) :
    execLmsUpdate c s = .next ((s.setLms ch (update (s.lms.get ch) (BitVec.ofInt 16 x) dq)).returns []) :=
  operate_ok hp (by simp only [h1, h2, ok_bind, pure_eq_ok])

theorem execDecSlice_next {c : BitVec 4} {len : BitVec 16} {s t : State} (h : execDecSlice c len s = .next t) :
    s.stopped t ∨ (s.phase ≠ .error ∧ ∃ ch n w, channelOperand c = .ok ch ∧ lenOperand len = .ok n ∧ oneOperand isUnsigned64 s.arg = .ok w ∧ t = (s.setLms ch (decSlice (s.lms.get ch) (wordOperand w) n).2).returns
          ((decSlice (s.lms.get ch) (wordOperand w) n).1.map BitVec.toInt)) := by
  rcases operate_cases h with h | ⟨hp, h⟩
  · exact .inl h
  · simp only [bind_eq_ok, pure_eq_ok, Except.ok.injEq] at h
    obtain ⟨ch, h1, n, h2, w, h3, h4⟩ := h
    exact .inr ⟨hp, ch, n, w, h1, h2, h3, h4.symm⟩

theorem execDecSlice_ok {c : BitVec 4} {len : BitVec 16} {s : State} {ch : Fin 8} {n : Nat} {w : Int} (hp : s.phase ≠ .error) (h1 : channelOperand c = .ok ch) (h2 : lenOperand len = .ok n) (h3 : oneOperand isUnsigned64 s.arg = .ok w) :
    execDecSlice c len s = .next ((s.setLms ch (decSlice (s.lms.get ch) (wordOperand w) n).2).returns
          ((decSlice (s.lms.get ch) (wordOperand w) n).1.map BitVec.toInt)) :=
  operate_ok hp (by simp only [h1, h2, h3, ok_bind, pure_eq_ok])

theorem execEncTrial_next {c sf : BitVec 4} {len : BitVec 16} {s t : State} (h : execEncTrial c sf len s = .next t) :
    s.stopped t ∨ (s.phase ≠ .error ∧ ∃ ch n xs, channelOperand c = .ok ch ∧ lenOperand len = .ok n ∧ samplesOperand n s.arg = .ok xs ∧ t = s.returns (trialResults (encTrial (s.lms.get ch) sf xs))) := by
  rcases operate_cases h with h | ⟨hp, h⟩
  · exact .inl h
  · simp only [bind_eq_ok, pure_eq_ok, Except.ok.injEq] at h
    obtain ⟨ch, h1, n, h2, xs, h3, h4⟩ := h
    exact .inr ⟨hp, ch, n, xs, h1, h2, h3, h4.symm⟩

theorem execEncTrial_ok {c sf : BitVec 4} {len : BitVec 16} {s : State} {ch : Fin 8} {n : Nat} {xs : List Sample} (hp : s.phase ≠ .error) (h1 : channelOperand c = .ok ch) (h2 : lenOperand len = .ok n) (h3 : samplesOperand n s.arg = .ok xs) :
    execEncTrial c sf len s = .next (s.returns (trialResults (encTrial (s.lms.get ch) sf xs))) :=
  operate_ok hp (by simp only [h1, h2, h3, ok_bind, pure_eq_ok, trialResults])

theorem execEncSlice_next {c : BitVec 4} {len : BitVec 16} {s t : State} (h : execEncSlice c len s = .next t) :
    s.stopped t ∨ (s.phase ≠ .error ∧ ∃ ch n xs, channelOperand c = .ok ch ∧ lenOperand len = .ok n ∧ samplesOperand n s.arg = .ok xs ∧ t = (s.commit ch (s.searchFor ch xs)).returns (searchResults (s.searchFor ch xs))) := by
  rcases operate_cases h with h | ⟨hp, h⟩
  · exact .inl h
  · simp only [bind_eq_ok, pure_eq_ok, Except.ok.injEq] at h
    obtain ⟨ch, h1, n, h2, xs, h3, h4⟩ := h
    exact .inr ⟨hp, ch, n, xs, h1, h2, h3, h4.symm⟩

theorem execEncSlice_ok {c : BitVec 4} {len : BitVec 16} {s : State} {ch : Fin 8} {n : Nat} {xs : List Sample} (hp : s.phase ≠ .error) (h1 : channelOperand c = .ok ch) (h2 : lenOperand len = .ok n) (h3 : samplesOperand n s.arg = .ok xs) :
    execEncSlice c len s = .next ((s.commit ch (s.searchFor ch xs)).returns (searchResults (s.searchFor ch xs))) :=
  operate_ok hp (by simp only [h1, h2, h3, ok_bind, pure_eq_ok, searchResults])

theorem execEncOpen_next {s t : State} (h : execEncOpen s = .next t) :
    s.stopped t ∨ (s.phase ≠ .error ∧ ∃ p, encOpenOperands s.arg = .ok p ∧ opensAdmitted s = true ∧ checkParameters p = .ok () ∧ t = (openEncoder p s).returns []) := by
  rcases operate_cases h with h | ⟨hp, h⟩
  · exact .inl h
  · simp only [bind_eq_ok, pure_eq_ok, Except.ok.injEq] at h
    obtain ⟨p, h1, ⟨⟩, h2, ⟨⟩, h3, h4⟩ := h
    exact .inr ⟨hp, p, h1, require_eq_ok.mp h2, h3, h4.symm⟩

theorem execEncOpen_ok {s : State} {p : EncOpenOperands} (hp : s.phase ≠ .error) (h1 : encOpenOperands s.arg = .ok p) (h2 : opensAdmitted s = true) (h3 : checkParameters p = .ok ()) :
    execEncOpen s = .next ((openEncoder p s).returns []) :=
  operate_ok hp (by simp only [h1, h2, h3, ok_bind, require_true, pure_eq_ok])

theorem execEncFrame_next {s t : State} (h : execEncFrame s = .next t) :
    s.stopped t ∨ (s.phase ≠ .error ∧ noOperand s.arg = .ok () ∧ frameAdmitted .enc s = true ∧ t = (finishEncode s.nextFrameLength (encodeFrameBody s)).returns []) := by
  rcases operate_cases h with h | ⟨hp, h⟩
  · exact .inl h
  · simp only [bind_eq_ok, pure_eq_ok, Except.ok.injEq] at h
    obtain ⟨⟨⟩, h1, ⟨⟩, h2, h3⟩ := h
    exact .inr ⟨hp, h1, require_eq_ok.mp h2, h3.symm⟩

theorem execEncFrame_ok {s : State} (hp : s.phase ≠ .error) (h1 : noOperand s.arg = .ok ()) (h2 : frameAdmitted .enc s = true) :
    execEncFrame s = .next ((finishEncode s.nextFrameLength (encodeFrameBody s)).returns []) :=
  operate_ok hp (by simp only [h1, h2, ok_bind, require_true, pure_eq_ok])

theorem execDecOpen_next {s t : State} (h : execDecOpen s = .next t) :
    s.stopped t ∨ (s.phase ≠ .error ∧ ∃ n, oneOperand isUnsigned64 s.arg = .ok n ∧ opensAdmitted s = true ∧ checkStream n.toNat s = .ok () ∧ t = (openDecoder n.toNat s).returns []) := by
  rcases operate_cases h with h | ⟨hp, h⟩
  · exact .inl h
  · simp only [bind_eq_ok, pure_eq_ok, Except.ok.injEq] at h
    obtain ⟨n, h1, ⟨⟩, h2, ⟨⟩, h3, h4⟩ := h
    exact .inr ⟨hp, n, h1, require_eq_ok.mp h2, h3, h4.symm⟩

theorem execDecOpen_ok {s : State} {n : Int} (hp : s.phase ≠ .error) (h1 : oneOperand isUnsigned64 s.arg = .ok n) (h2 : opensAdmitted s = true) (h3 : checkStream n.toNat s = .ok ()) :
    execDecOpen s = .next ((openDecoder n.toNat s).returns []) :=
  operate_ok hp (by simp only [h1, h2, h3, ok_bind, require_true, pure_eq_ok])

theorem execDecFrame_next {s t : State} (h : execDecFrame s = .next t) :
    s.stopped t ∨ (s.phase ≠ .error ∧ noOperand s.arg = .ok () ∧ frameAdmitted .dec s = true ∧ checkFrame s = .ok () ∧ t = (decodeFrameBody (headerFsamples s.headerWord).toNat s).returns []) := by
  rcases operate_cases h with h | ⟨hp, h⟩
  · exact .inl h
  · simp only [bind_eq_ok, pure_eq_ok, Except.ok.injEq] at h
    obtain ⟨⟨⟩, h1, ⟨⟩, h2, ⟨⟩, h3, h4⟩ := h
    exact .inr ⟨hp, h1, require_eq_ok.mp h2, h3, h4.symm⟩

theorem execDecFrame_ok {s : State} (hp : s.phase ≠ .error) (h1 : noOperand s.arg = .ok ()) (h2 : frameAdmitted .dec s = true) (h3 : checkFrame s = .ok ()) :
    execDecFrame s = .next ((decodeFrameBody (headerFsamples s.headerWord).toNat s).returns []) :=
  operate_ok hp (by simp only [h1, h2, h3, ok_bind, require_true, pure_eq_ok])

theorem execRdreg_next {r : BitVec 16} {s t : State} (h : execRdreg r s = .next t) :
    s.stopped t ∨ ∃ v, s.readRegister r = some v ∧ s.arg = [] ∧ t = s.returns [wordResult v] := by
  rcases settle_cases h with h | h
  · exact .inl h
  · simp only [bind_eq_ok, pure_eq_ok, Except.ok.injEq, registerOperand] at h
    obtain ⟨v, h1, ⟨⟩, h2, h3⟩ := h
    split at h1
    · cases h1; exact .inr ⟨_, by assumption, noOperand_eq_ok.mp h2, h3.symm⟩
    · cases h1

theorem execRdreg_ok {r : BitVec 16} {s : State} {v : BitVec 64} (h1 : s.readRegister r = some v) (h2 : s.arg = []) :
    execRdreg r s = .next (s.returns [wordResult v]) := by
  simp [execRdreg, registerOperand, h1, h2]

theorem execNop_next {s t : State} (h : execNop s = .next t) : s.stopped t ∨ t = s := by
  rcases settle_cases h with h | h
  · exact .inl h
  · simp only [bind_eq_ok, pure_eq_ok, Except.ok.injEq] at h
    obtain ⟨⟨⟩, -, h⟩ := h
    exact .inr h.symm

theorem execNop_ok {s : State} (h : s.arg = []) : execNop s = .next s := by simp [execNop, h]

/-- Every instruction answers a next state: none faults, none is refused. -/
theorem exec_answers (i : Instr) (s : State) : ∃ t, exec i s = .next t := by
  cases i <;> first
    | exact operate_answers s _
    | exact settle_answers s _
    | exact consume_answers _ s _
    | skip
  case frameHeader role ch sr fsamples fsize => cases role <;> exact consume_answers _ s _

end Sys2Proof.Machine
end

