-- ==== Sys2Proof/Laws/Memory.lean ====
section
/-! SUPPORT. What the register files and address spaces do: read after write, and that every memory operation keeps the
canonical form `Memory.wf`. -/

namespace Sys2Proof

/-! ## Register files -/

@[simp] theorem Bank.get_set_same {α : Type} (b : Bank α) (c : Fin 8) (x : α) : (b.set c x).get c = x := by
  fin_cases c <;> rfl

theorem Bank.get_set_other {α : Type} (b : Bank α) {c d : Fin 8} (x : α) (h : d ≠ c) :
    (b.set c x).get d = b.get d := by
  fin_cases c <;> fin_cases d <;> first | rfl | exact absurd rfl h

theorem Bank.get_set {α : Type} (b : Bank α) (c d : Fin 8) (x : α) :
    (b.set c x).get d = if d = c then x else b.get d := by
  by_cases h : d = c
  · subst h; simp
  · simp [h, Bank.get_set_other b x h]

theorem Bank.ext_get {α : Type} {a b : Bank α} (h : ∀ c, a.get c = b.get c) : a = b := by
  cases a; cases b
  simp only [Bank.mk.injEq]
  exact ⟨h 0, h 1, h 2, h 3, h 4, h 5, h 6, h 7⟩

namespace Machine

@[simp] theorem allChannels_get {α : Type} (x : α) (c : Fin 8) : (allChannels x).get c = x := by
  fin_cases c <;> rfl

/-! ## Reading and writing -/

@[simp] theorem Memory.read_nil {α : Type} (a : Nat) : Memory.read ([] : Memory α) a = none := rfl

theorem Memory.read_cons {α : Type} (b : Nat) (v : α) (m : Memory α) (a : Nat) :
    Memory.read ((b, v) :: m) a = if a = b then some v else Memory.read m a := rfl

/-- Nothing is listed below a bound that every entry is above. -/
theorem Memory.read_eq_none {α : Type} {m : Memory α} {a : Nat} (h : ∀ x ∈ m, a < x.1) : Memory.read m a = none := by
  induction m with
  | nil => rfl
  | cons x m ih =>
    obtain ⟨b, v⟩ := x
    have hb : a < b := h (b, v) (by simp)
    rw [Memory.read_cons, if_neg (by omega)]
    exact ih fun y hy => h y (by simp [hy])

/-- Read after write. -/
theorem Memory.read_write {α : Type} (m : Memory α) (a : Nat) (v : α) (b : Nat) :
    Memory.read (Memory.write m a v) b = if b = a then some v else Memory.read m b := by
  induction m with
  | nil => rfl
  | cons x m ih =>
    obtain ⟨k, u⟩ := x
    unfold Memory.write
    split
    · rfl
    · split
      · rename_i h; subst h
        simp only [Memory.read_cons]
        split <;> rfl
      · simp only [Memory.read_cons, ih]
        split
        · rw [if_neg (by omega)]
        · rfl

/-! ## The canonical form -/

theorem Memory.mem_write {α : Type} {m : Memory α} {a : Nat} {v : α} {x : Nat × α} (h : x ∈ Memory.write m a v) :
    x = (a, v) ∨ x ∈ m := by
  induction m with
  | nil => simpa [Memory.write] using h
  | cons y m ih =>
    obtain ⟨k, u⟩ := y
    unfold Memory.write at h
    split at h
    · simpa using h
    · split at h
      · simp only [List.mem_cons] at h ⊢; tauto
      · simp only [List.mem_cons] at h ⊢
        rcases h with h | h
        · tauto
        · rcases ih h with h | h <;> tauto

/-- A write keeps the canonical form. -/
theorem Memory.wf_write {α : Type} {m : Memory α} (h : Memory.wf m) (a : Nat) (v : α) :
    Memory.wf (Memory.write m a v) := by
  induction m with
  | nil => simp [Memory.write, Memory.wf]
  | cons y m ih =>
    obtain ⟨k, u⟩ := y
    obtain ⟨hk, hm⟩ := List.pairwise_cons.mp h
    unfold Memory.write
    split
    · rename_i hlt
      refine List.pairwise_cons.mpr ⟨?_, h⟩
      intro z hz
      rcases List.mem_cons.mp hz with rfl | hz
      · exact hlt
      · exact Nat.lt_trans hlt (hk z hz)
    · split
      · rename_i h1; subst h1
        exact List.pairwise_cons.mpr ⟨hk, hm⟩
      · refine List.pairwise_cons.mpr ⟨?_, ih hm⟩
        intro z hz
        rcases Memory.mem_write hz with rfl | hz
        · show k < a; omega
        · exact hk z hz

theorem Memory.mem_ofListFrom {α : Type} {vs : List α} {a : Nat} {x : Nat × α}
    (h : x ∈ Memory.ofListFrom a vs) : a ≤ x.1 := by
  induction vs generalizing a with
  | nil => simp [Memory.ofListFrom] at h
  | cons v vs ih =>
    simp only [Memory.ofListFrom, List.mem_cons] at h
    rcases h with rfl | h
    · exact Nat.le_refl _
    · exact Nat.le_of_succ_le (ih h)

/-- A buffer the host filled has the canonical form. -/
theorem Memory.wf_ofListFrom {α : Type} (vs : List α) (a : Nat) : Memory.wf (Memory.ofListFrom a vs) := by
  induction vs generalizing a with
  | nil => exact List.Pairwise.nil
  | cons v vs ih => exact List.pairwise_cons.mpr ⟨fun _ hx => Memory.mem_ofListFrom hx, ih (a + 1)⟩

theorem Memory.wf_ofList {α : Type} (vs : List α) : Memory.wf (Memory.ofList vs) := Memory.wf_ofListFrom vs 0

theorem Memory.read_ofListFrom {α : Type} (vs : List α) (a b : Nat) :
    Memory.read (Memory.ofListFrom a vs) b = if a ≤ b then vs[b - a]? else none := by
  induction vs generalizing a with
  | nil => simp [Memory.ofListFrom]
  | cons v vs ih =>
    simp only [Memory.ofListFrom, Memory.read_cons, ih]
    by_cases h : b = a
    · simp [h]
    · by_cases h2 : a ≤ b
      · obtain ⟨d, rfl⟩ : ∃ d, b = a + d + 1 := ⟨b - a - 1, by omega⟩
        have e1 : a + d + 1 - (a + 1) = d := by omega
        have e2 : a + d + 1 - a = d + 1 := by omega
        simp [h, show a + 1 ≤ a + d + 1 by omega, h2, e1, e2]
      · simp [h, h2, show ¬ a + 1 ≤ b by omega]

/-- The buffer the host filled reads as the list it was filled with. -/
theorem Memory.read_ofList {α : Type} (vs : List α) (b : Nat) : Memory.read (Memory.ofList vs) b = vs[b]? := by
  simp [Memory.ofList, Memory.read_ofListFrom]

/-! ## Wide accesses -/

theorem memWrite_wf {m : Memory Byte} (h : Memory.wf m) (a n v : Nat) : Memory.wf (memWrite m a n v) := by
  induction n generalizing m a with
  | zero => exact h
  | succ n ih => exact ih (Memory.wf_write h _ _) _

/-- A wide write leaves every byte outside its own alone. -/
theorem memWrite_read_outside (m : Memory Byte) (a n v b : Nat) (h : b < a ∨ a + n ≤ b) :
    Memory.read (memWrite m a n v) b = Memory.read m b := by
  induction n generalizing m a with
  | zero => rfl
  | succ n ih => rw [memWrite, ih _ _ (by omega), Memory.read_write, if_neg (by omega)]

/-- Byte `i` of a wide write is the value's byte, most significant first. -/
theorem memWrite_read_inside (m : Memory Byte) (a n v i : Nat) (h : i < n) :
    Memory.read (memWrite m a n v) (a + i) = some (BitVec.ofNat 8 (v / 256 ^ (n - 1 - i))) := by
  induction n generalizing m a i with
  | zero => omega
  | succ n ih =>
    rw [memWrite]
    cases i with
    | zero => rw [memWrite_read_outside _ _ _ _ _ (by omega), Memory.read_write]; simp
    | succ i =>
      rw [show a + (i + 1) = a + 1 + i by omega, ih _ _ i (by omega), show n + 1 - 1 - (i + 1) = n - 1 - i by omega]

/-- A wide read depends only on its own bytes. -/
theorem memRead_congr {f g : Nat → Byte} {a n : Nat} (h : ∀ b, a ≤ b → b < a + n → f b = g b) :
    memRead f a n = memRead g a n := by
  induction n generalizing a with
  | zero => rfl
  | succ n ih => rw [memRead, memRead, h a (by omega) (by omega), ih fun b h1 h2 => h b (by omega) (by omega)]

theorem memRead_lt (f : Nat → Byte) (a n : Nat) : memRead f a n < 256 ^ n := by
  induction n generalizing a with
  | zero => simp [memRead]
  | succ n ih =>
    have h1 := ih (a + 1)
    have h2 := (f a).isLt
    rw [memRead, Nat.pow_succ]
    nlinarith

/-- A wide read of the bytes a wide write stored gives the value back (00_scope.md R11). -/
theorem memRead_of_bytes (f : Nat → Byte) (a n v : Nat) (h : ∀ i < n, f (a + i) = BitVec.ofNat 8 (v / 256 ^ (n - 1 - i))) :
    memRead f a n = v % 256 ^ n := by
  induction n generalizing a with
  | zero => simp [memRead, Nat.mod_one]
  | succ n ih =>
    have h0 := h 0 (by omega)
    simp only [Nat.add_zero, Nat.add_sub_cancel, Nat.sub_zero] at h0
    rw [memRead, h0, ih (a + 1) fun i hi => by
      have := h (i + 1) (by omega)
      rw [show a + (i + 1) = a + 1 + i by omega] at this
      rw [this, show n + 1 - 1 - (i + 1) = n - 1 - i by omega]]
    rw [BitVec.toNat_ofNat, show (2 : Nat) ^ 8 = 256 from rfl, Nat.pow_succ]
    rw [Nat.mod_mul, Nat.mul_comm]
    omega

end Machine

end Sys2Proof
end

