-- ==== Sys2Proof/Laws/Slice.lean ====
section
/-! SUPPORT. The loops of the slice codec and of the search, one turn at a time (42_slice.md R142, R144, 43_frame.md R160). -/

namespace Sys2Proof.Machine

/-! ## Decoding -/

theorem decSteps_cons (w : WireWord) (k : Nat) (ks : List Nat) (l : Lms) :
    decSteps w (k :: ks) l =
      ((decSample l (sliceSf w) (sliceQ w k)).1 :: (decSteps w ks (decSample l (sliceSf w) (sliceQ w k)).2).1,
        (decSteps w ks (decSample l (sliceSf w) (sliceQ w k)).2).2) := rfl

/-- The last sample of a run of samples, from the state the others left. -/
theorem decSteps_append (w : WireWord) (ks : List Nat) (k : Nat) (l : Lms) :
    decSteps w (ks ++ [k]) l =
      ((decSteps w ks l).1 ++ [(decSample (decSteps w ks l).2 (sliceSf w) (sliceQ w k)).1],
        (decSample (decSteps w ks l).2 (sliceSf w) (sliceQ w k)).2) := by
  induction ks generalizing l with
  | nil => rfl
  | cons a ks ih => simp only [List.cons_append, decSteps, ih]

@[simp] theorem decSteps_length (w : WireWord) (ks : List Nat) (l : Lms) : (decSteps w ks l).1.length = ks.length := by
  induction ks generalizing l with
  | nil => rfl
  | cons a ks ih => simp [decSteps, ih]

@[simp] theorem decSlice_length (l : Lms) (w : WireWord) (n : Nat) : (decSlice l w n).1.length = n := by simp [decSlice]

/-! ## Encoding -/

@[simp] theorem trialLoop_nil (l : Lms) (sf : BitVec 4) : trialLoop l sf [] = ⟨sf.setWidth 64, 0, 0, l⟩ := rfl

/-- The last turn of a trial's loop. -/
theorem trialLoop_append (l : Lms) (sf : BitVec 4) (xs : List Sample) (x : Sample) :
    trialLoop l sf (xs ++ [x]) = trialStep sf (trialLoop l sf xs) x := by
  simp [trialLoop]

@[simp] theorem encTrial_err (l : Lms) (sf : BitVec 4) (xs : List Sample) :
    (encTrial l sf xs).err = (trialLoop l sf xs).err := rfl
@[simp] theorem encTrial_rank (l : Lms) (sf : BitVec 4) (xs : List Sample) :
    (encTrial l sf xs).rank = (trialLoop l sf xs).rank := rfl
@[simp] theorem encTrial_lms (l : Lms) (sf : BitVec 4) (xs : List Sample) :
    (encTrial l sf xs).lms = (trialLoop l sf xs).lms := rfl

/-- A trial's registers do not depend on its counters or its word. -/
theorem trialFold_lms (sf : BitVec 4) (xs : List Sample) {t u : Trial} (h : t.lms = u.lms) :
    (xs.foldl (trialStep sf) t).lms = (xs.foldl (trialStep sf) u).lms := by
  induction xs generalizing t u with
  | nil => exact h
  | cons x xs ih => exact ih (by simp [trialStep, h])

/-! ## The search -/

/-- Trial `i` of the search where its key is below the best rank: it is taken. -/
theorem searchStep_accept {m : Config.SearchMetric} {l : Lms} {prev : BitVec 4} {xs : List Sample} {b : Best} {i : Nat}
    (h : searchKey m (encTrial l (BitVec.ofNat 4 ((i + prev.toNat) % 16)) xs) < b.rank) :
    searchStep m l prev xs b i =
      let t := encTrial l (BitVec.ofNat 4 ((i + prev.toNat) % 16)) xs
      ⟨t.rank, t.word, BitVec.ofNat 4 ((i + prev.toNat) % 16), t.err, t.lms⟩ := if_pos h

/-- Trial `i` of the search where its key is not below the best rank: nothing changes. -/
theorem searchStep_reject {m : Config.SearchMetric} {l : Lms} {prev : BitVec 4} {xs : List Sample} {b : Best} {i : Nat}
    (h : ¬ searchKey m (encTrial l (BitVec.ofNat 4 ((i + prev.toNat) % 16)) xs) < b.rank) :
    searchStep m l prev xs b i = b := if_neg h

/-- A turn of the search keeps what it had or takes its own trial. -/
theorem searchStep_cases (m : Config.SearchMetric) (l : Lms) (prev : BitVec 4) (xs : List Sample) (b : Best) (i : Nat) :
    let t := encTrial l (BitVec.ofNat 4 ((i + prev.toNat) % 16)) xs
    (¬ searchKey m t < b.rank ∧ searchStep m l prev xs b i = b) ∨
    (searchKey m t < b.rank ∧
      searchStep m l prev xs b i = ⟨t.rank, t.word, BitVec.ofNat 4 ((i + prev.toNat) % 16), t.err, t.lms⟩) := by
  intro t
  by_cases h : searchKey m t < b.rank
  · exact .inr ⟨h, searchStep_accept h⟩
  · exact .inl ⟨h, searchStep_reject h⟩

end Sys2Proof.Machine
end

