-- ==== Sys2Proof/Laws/State.lean ====
section
/-! SUPPORT. Each field after each update of the state: true by definition, for simp. -/

namespace Sys2Proof.Machine

/-! ## returns -/

@[simp] theorem State.returns_lms (s : State) (r : List Int) : (s.returns r).lms = s.lms := rfl
@[simp] theorem State.returns_prevSf (s : State) (r : List Int) : (s.returns r).prevSf = s.prevSf := rfl
@[simp] theorem State.returns_channels (s : State) (r : List Int) : (s.returns r).channels = s.channels := rfl
@[simp] theorem State.returns_sampleRate (s : State) (r : List Int) : (s.returns r).sampleRate = s.sampleRate := rfl
@[simp] theorem State.returns_samples (s : State) (r : List Int) : (s.returns r).samples = s.samples := rfl
@[simp] theorem State.returns_errorCount (s : State) (r : List Int) : (s.returns r).errorCount = s.errorCount := rfl
@[simp] theorem State.returns_phase (s : State) (r : List Int) : (s.returns r).phase = s.phase := rfl
@[simp] theorem State.returns_mode (s : State) (r : List Int) : (s.returns r).mode = s.mode := rfl
@[simp] theorem State.returns_samplePos (s : State) (r : List Int) : (s.returns r).samplePos = s.samplePos := rfl
@[simp] theorem State.returns_bsinPos (s : State) (r : List Int) : (s.returns r).bsinPos = s.bsinPos := rfl
@[simp] theorem State.returns_bsinLen (s : State) (r : List Int) : (s.returns r).bsinLen = s.bsinLen := rfl
@[simp] theorem State.returns_bsoutPos (s : State) (r : List Int) : (s.returns r).bsoutPos = s.bsoutPos := rfl
@[simp] theorem State.returns_outTotal (s : State) (r : List Int) : (s.returns r).outTotal = s.outTotal := rfl
@[simp] theorem State.returns_pcminLen (s : State) (r : List Int) : (s.returns r).pcminLen = s.pcminLen := rfl
@[simp] theorem State.returns_err (s : State) (r : List Int) : (s.returns r).err = s.err := rfl
@[simp] theorem State.returns_errInfo (s : State) (r : List Int) : (s.returns r).errInfo = s.errInfo := rfl
@[simp] theorem State.returns_bsin (s : State) (r : List Int) : (s.returns r).bsin = s.bsin := rfl
@[simp] theorem State.returns_bsout (s : State) (r : List Int) : (s.returns r).bsout = s.bsout := rfl
@[simp] theorem State.returns_pcmin (s : State) (r : List Int) : (s.returns r).pcmin = s.pcmin := rfl
@[simp] theorem State.returns_pcmout (s : State) (r : List Int) : (s.returns r).pcmout = s.pcmout := rfl
@[simp] theorem State.returns_arg (s : State) (r : List Int) : (s.returns r).arg = s.arg := rfl
@[simp] theorem State.returns_res (s : State) (r : List Int) : (s.returns r).res = r := rfl
@[simp] theorem State.returns_pending (s : State) (r : List Int) : (s.returns r).pending = s.pending := rfl
@[simp] theorem State.returns_params (s : State) (r : List Int) : (s.returns r).params = s.params := rfl

/-! ## raise -/

@[simp] theorem State.raise_lms (s : State) (e : Cause) : (s.raise e).lms = s.lms := rfl
@[simp] theorem State.raise_prevSf (s : State) (e : Cause) : (s.raise e).prevSf = s.prevSf := rfl
@[simp] theorem State.raise_channels (s : State) (e : Cause) : (s.raise e).channels = s.channels := rfl
@[simp] theorem State.raise_sampleRate (s : State) (e : Cause) : (s.raise e).sampleRate = s.sampleRate := rfl
@[simp] theorem State.raise_samples (s : State) (e : Cause) : (s.raise e).samples = s.samples := rfl
@[simp] theorem State.raise_errorCount (s : State) (e : Cause) : (s.raise e).errorCount = s.errorCount := rfl
@[simp] theorem State.raise_phase (s : State) (e : Cause) : (s.raise e).phase = Phase.error := rfl
@[simp] theorem State.raise_mode (s : State) (e : Cause) : (s.raise e).mode = s.mode := rfl
@[simp] theorem State.raise_samplePos (s : State) (e : Cause) : (s.raise e).samplePos = s.samplePos := rfl
@[simp] theorem State.raise_bsinPos (s : State) (e : Cause) : (s.raise e).bsinPos = s.bsinPos := rfl
@[simp] theorem State.raise_bsinLen (s : State) (e : Cause) : (s.raise e).bsinLen = s.bsinLen := rfl
@[simp] theorem State.raise_bsoutPos (s : State) (e : Cause) : (s.raise e).bsoutPos = s.bsoutPos := rfl
@[simp] theorem State.raise_outTotal (s : State) (e : Cause) : (s.raise e).outTotal = s.outTotal := rfl
@[simp] theorem State.raise_pcminLen (s : State) (e : Cause) : (s.raise e).pcminLen = s.pcminLen := rfl
@[simp] theorem State.raise_err (s : State) (e : Cause) : (s.raise e).err = e.code.code := rfl
@[simp] theorem State.raise_errInfo (s : State) (e : Cause) : (s.raise e).errInfo = e.info := rfl
@[simp] theorem State.raise_bsin (s : State) (e : Cause) : (s.raise e).bsin = s.bsin := rfl
@[simp] theorem State.raise_bsout (s : State) (e : Cause) : (s.raise e).bsout = s.bsout := rfl
@[simp] theorem State.raise_pcmin (s : State) (e : Cause) : (s.raise e).pcmin = s.pcmin := rfl
@[simp] theorem State.raise_pcmout (s : State) (e : Cause) : (s.raise e).pcmout = s.pcmout := rfl
@[simp] theorem State.raise_arg (s : State) (e : Cause) : (s.raise e).arg = s.arg := rfl
@[simp] theorem State.raise_res (s : State) (e : Cause) : (s.raise e).res = [] := rfl
@[simp] theorem State.raise_pending (s : State) (e : Cause) : (s.raise e).pending = s.pending := rfl
@[simp] theorem State.raise_params (s : State) (e : Cause) : (s.raise e).params = s.params := rfl

/-! ## setLms -/

@[simp] theorem State.setLms_lms (s : State) (c : Fin 8) (l : Lms) : (s.setLms c l).lms = s.lms.set c l := rfl
@[simp] theorem State.setLms_prevSf (s : State) (c : Fin 8) (l : Lms) : (s.setLms c l).prevSf = s.prevSf := rfl
@[simp] theorem State.setLms_channels (s : State) (c : Fin 8) (l : Lms) : (s.setLms c l).channels = s.channels := rfl
@[simp] theorem State.setLms_sampleRate (s : State) (c : Fin 8) (l : Lms) : (s.setLms c l).sampleRate = s.sampleRate := rfl
@[simp] theorem State.setLms_samples (s : State) (c : Fin 8) (l : Lms) : (s.setLms c l).samples = s.samples := rfl
@[simp] theorem State.setLms_errorCount (s : State) (c : Fin 8) (l : Lms) : (s.setLms c l).errorCount = s.errorCount := rfl
@[simp] theorem State.setLms_phase (s : State) (c : Fin 8) (l : Lms) : (s.setLms c l).phase = s.phase := rfl
@[simp] theorem State.setLms_mode (s : State) (c : Fin 8) (l : Lms) : (s.setLms c l).mode = s.mode := rfl
@[simp] theorem State.setLms_samplePos (s : State) (c : Fin 8) (l : Lms) : (s.setLms c l).samplePos = s.samplePos := rfl
@[simp] theorem State.setLms_bsinPos (s : State) (c : Fin 8) (l : Lms) : (s.setLms c l).bsinPos = s.bsinPos := rfl
@[simp] theorem State.setLms_bsinLen (s : State) (c : Fin 8) (l : Lms) : (s.setLms c l).bsinLen = s.bsinLen := rfl
@[simp] theorem State.setLms_bsoutPos (s : State) (c : Fin 8) (l : Lms) : (s.setLms c l).bsoutPos = s.bsoutPos := rfl
@[simp] theorem State.setLms_outTotal (s : State) (c : Fin 8) (l : Lms) : (s.setLms c l).outTotal = s.outTotal := rfl
@[simp] theorem State.setLms_pcminLen (s : State) (c : Fin 8) (l : Lms) : (s.setLms c l).pcminLen = s.pcminLen := rfl
@[simp] theorem State.setLms_err (s : State) (c : Fin 8) (l : Lms) : (s.setLms c l).err = s.err := rfl
@[simp] theorem State.setLms_errInfo (s : State) (c : Fin 8) (l : Lms) : (s.setLms c l).errInfo = s.errInfo := rfl
@[simp] theorem State.setLms_bsin (s : State) (c : Fin 8) (l : Lms) : (s.setLms c l).bsin = s.bsin := rfl
@[simp] theorem State.setLms_bsout (s : State) (c : Fin 8) (l : Lms) : (s.setLms c l).bsout = s.bsout := rfl
@[simp] theorem State.setLms_pcmin (s : State) (c : Fin 8) (l : Lms) : (s.setLms c l).pcmin = s.pcmin := rfl
@[simp] theorem State.setLms_pcmout (s : State) (c : Fin 8) (l : Lms) : (s.setLms c l).pcmout = s.pcmout := rfl
@[simp] theorem State.setLms_arg (s : State) (c : Fin 8) (l : Lms) : (s.setLms c l).arg = s.arg := rfl
@[simp] theorem State.setLms_res (s : State) (c : Fin 8) (l : Lms) : (s.setLms c l).res = s.res := rfl
@[simp] theorem State.setLms_pending (s : State) (c : Fin 8) (l : Lms) : (s.setLms c l).pending = s.pending := rfl
@[simp] theorem State.setLms_params (s : State) (c : Fin 8) (l : Lms) : (s.setLms c l).params = s.params := rfl

/-! ## sampleWrite -/

@[simp] theorem State.sampleWrite_lms (s : State) (i : Nat) (v : Sample) : (s.sampleWrite i v).lms = s.lms := rfl
@[simp] theorem State.sampleWrite_prevSf (s : State) (i : Nat) (v : Sample) : (s.sampleWrite i v).prevSf = s.prevSf := rfl
@[simp] theorem State.sampleWrite_channels (s : State) (i : Nat) (v : Sample) : (s.sampleWrite i v).channels = s.channels := rfl
@[simp] theorem State.sampleWrite_sampleRate (s : State) (i : Nat) (v : Sample) : (s.sampleWrite i v).sampleRate = s.sampleRate := rfl
@[simp] theorem State.sampleWrite_samples (s : State) (i : Nat) (v : Sample) : (s.sampleWrite i v).samples = s.samples := rfl
@[simp] theorem State.sampleWrite_errorCount (s : State) (i : Nat) (v : Sample) : (s.sampleWrite i v).errorCount = s.errorCount := rfl
@[simp] theorem State.sampleWrite_phase (s : State) (i : Nat) (v : Sample) : (s.sampleWrite i v).phase = s.phase := rfl
@[simp] theorem State.sampleWrite_mode (s : State) (i : Nat) (v : Sample) : (s.sampleWrite i v).mode = s.mode := rfl
@[simp] theorem State.sampleWrite_samplePos (s : State) (i : Nat) (v : Sample) : (s.sampleWrite i v).samplePos = s.samplePos := rfl
@[simp] theorem State.sampleWrite_bsinPos (s : State) (i : Nat) (v : Sample) : (s.sampleWrite i v).bsinPos = s.bsinPos := rfl
@[simp] theorem State.sampleWrite_bsinLen (s : State) (i : Nat) (v : Sample) : (s.sampleWrite i v).bsinLen = s.bsinLen := rfl
@[simp] theorem State.sampleWrite_bsoutPos (s : State) (i : Nat) (v : Sample) : (s.sampleWrite i v).bsoutPos = s.bsoutPos := rfl
@[simp] theorem State.sampleWrite_outTotal (s : State) (i : Nat) (v : Sample) : (s.sampleWrite i v).outTotal = s.outTotal := rfl
@[simp] theorem State.sampleWrite_pcminLen (s : State) (i : Nat) (v : Sample) : (s.sampleWrite i v).pcminLen = s.pcminLen := rfl
@[simp] theorem State.sampleWrite_err (s : State) (i : Nat) (v : Sample) : (s.sampleWrite i v).err = s.err := rfl
@[simp] theorem State.sampleWrite_errInfo (s : State) (i : Nat) (v : Sample) : (s.sampleWrite i v).errInfo = s.errInfo := rfl
@[simp] theorem State.sampleWrite_bsin (s : State) (i : Nat) (v : Sample) : (s.sampleWrite i v).bsin = s.bsin := rfl
@[simp] theorem State.sampleWrite_bsout (s : State) (i : Nat) (v : Sample) : (s.sampleWrite i v).bsout = s.bsout := rfl
@[simp] theorem State.sampleWrite_pcmin (s : State) (i : Nat) (v : Sample) : (s.sampleWrite i v).pcmin = s.pcmin := rfl
@[simp] theorem State.sampleWrite_pcmout (s : State) (i : Nat) (v : Sample) : (s.sampleWrite i v).pcmout = s.pcmout.write i v := rfl
@[simp] theorem State.sampleWrite_arg (s : State) (i : Nat) (v : Sample) : (s.sampleWrite i v).arg = s.arg := rfl
@[simp] theorem State.sampleWrite_res (s : State) (i : Nat) (v : Sample) : (s.sampleWrite i v).res = s.res := rfl
@[simp] theorem State.sampleWrite_pending (s : State) (i : Nat) (v : Sample) : (s.sampleWrite i v).pending = s.pending := rfl
@[simp] theorem State.sampleWrite_params (s : State) (i : Nat) (v : Sample) : (s.sampleWrite i v).params = s.params := rfl

/-! ## put -/

@[simp] theorem State.put_lms (s : State) (w : WireWord) : (s.put w).lms = s.lms := rfl
@[simp] theorem State.put_prevSf (s : State) (w : WireWord) : (s.put w).prevSf = s.prevSf := rfl
@[simp] theorem State.put_channels (s : State) (w : WireWord) : (s.put w).channels = s.channels := rfl
@[simp] theorem State.put_sampleRate (s : State) (w : WireWord) : (s.put w).sampleRate = s.sampleRate := rfl
@[simp] theorem State.put_samples (s : State) (w : WireWord) : (s.put w).samples = s.samples := rfl
@[simp] theorem State.put_errorCount (s : State) (w : WireWord) : (s.put w).errorCount = s.errorCount := rfl
@[simp] theorem State.put_phase (s : State) (w : WireWord) : (s.put w).phase = s.phase := rfl
@[simp] theorem State.put_mode (s : State) (w : WireWord) : (s.put w).mode = s.mode := rfl
@[simp] theorem State.put_samplePos (s : State) (w : WireWord) : (s.put w).samplePos = s.samplePos := rfl
@[simp] theorem State.put_bsinPos (s : State) (w : WireWord) : (s.put w).bsinPos = s.bsinPos := rfl
@[simp] theorem State.put_bsinLen (s : State) (w : WireWord) : (s.put w).bsinLen = s.bsinLen := rfl
@[simp] theorem State.put_bsoutPos (s : State) (w : WireWord) : (s.put w).bsoutPos = BitVec.ofNat 64 (s.bsoutPos.toNat + 8) := rfl
@[simp] theorem State.put_outTotal (s : State) (w : WireWord) : (s.put w).outTotal = s.outTotal := rfl
@[simp] theorem State.put_pcminLen (s : State) (w : WireWord) : (s.put w).pcminLen = s.pcminLen := rfl
@[simp] theorem State.put_err (s : State) (w : WireWord) : (s.put w).err = s.err := rfl
@[simp] theorem State.put_errInfo (s : State) (w : WireWord) : (s.put w).errInfo = s.errInfo := rfl
@[simp] theorem State.put_bsin (s : State) (w : WireWord) : (s.put w).bsin = s.bsin := rfl
@[simp] theorem State.put_bsout (s : State) (w : WireWord) : (s.put w).bsout = memWrite s.bsout s.bsoutPos.toNat 8 w.toNat := rfl
@[simp] theorem State.put_pcmin (s : State) (w : WireWord) : (s.put w).pcmin = s.pcmin := rfl
@[simp] theorem State.put_pcmout (s : State) (w : WireWord) : (s.put w).pcmout = s.pcmout := rfl
@[simp] theorem State.put_arg (s : State) (w : WireWord) : (s.put w).arg = s.arg := rfl
@[simp] theorem State.put_res (s : State) (w : WireWord) : (s.put w).res = s.res := rfl
@[simp] theorem State.put_pending (s : State) (w : WireWord) : (s.put w).pending = s.pending := rfl
@[simp] theorem State.put_params (s : State) (w : WireWord) : (s.put w).params = s.params := rfl

/-! ## commit -/

@[simp] theorem State.commit_lms (s : State) (c : Fin 8) (b : Best) : (s.commit c b).lms = s.lms.set c b.lms := rfl
@[simp] theorem State.commit_prevSf (s : State) (c : Fin 8) (b : Best) : (s.commit c b).prevSf = s.prevSf.set c b.sf := rfl
@[simp] theorem State.commit_channels (s : State) (c : Fin 8) (b : Best) : (s.commit c b).channels = s.channels := rfl
@[simp] theorem State.commit_sampleRate (s : State) (c : Fin 8) (b : Best) : (s.commit c b).sampleRate = s.sampleRate := rfl
@[simp] theorem State.commit_samples (s : State) (c : Fin 8) (b : Best) : (s.commit c b).samples = s.samples := rfl
@[simp] theorem State.commit_errorCount (s : State) (c : Fin 8) (b : Best) : (s.commit c b).errorCount = BitVec.ofNat 64 (s.errorCount.toNat + b.err) := rfl
@[simp] theorem State.commit_phase (s : State) (c : Fin 8) (b : Best) : (s.commit c b).phase = s.phase := rfl
@[simp] theorem State.commit_mode (s : State) (c : Fin 8) (b : Best) : (s.commit c b).mode = s.mode := rfl
@[simp] theorem State.commit_samplePos (s : State) (c : Fin 8) (b : Best) : (s.commit c b).samplePos = s.samplePos := rfl
@[simp] theorem State.commit_bsinPos (s : State) (c : Fin 8) (b : Best) : (s.commit c b).bsinPos = s.bsinPos := rfl
@[simp] theorem State.commit_bsinLen (s : State) (c : Fin 8) (b : Best) : (s.commit c b).bsinLen = s.bsinLen := rfl
@[simp] theorem State.commit_bsoutPos (s : State) (c : Fin 8) (b : Best) : (s.commit c b).bsoutPos = s.bsoutPos := rfl
@[simp] theorem State.commit_outTotal (s : State) (c : Fin 8) (b : Best) : (s.commit c b).outTotal = s.outTotal := rfl
@[simp] theorem State.commit_pcminLen (s : State) (c : Fin 8) (b : Best) : (s.commit c b).pcminLen = s.pcminLen := rfl
@[simp] theorem State.commit_err (s : State) (c : Fin 8) (b : Best) : (s.commit c b).err = s.err := rfl
@[simp] theorem State.commit_errInfo (s : State) (c : Fin 8) (b : Best) : (s.commit c b).errInfo = s.errInfo := rfl
@[simp] theorem State.commit_bsin (s : State) (c : Fin 8) (b : Best) : (s.commit c b).bsin = s.bsin := rfl
@[simp] theorem State.commit_bsout (s : State) (c : Fin 8) (b : Best) : (s.commit c b).bsout = s.bsout := rfl
@[simp] theorem State.commit_pcmin (s : State) (c : Fin 8) (b : Best) : (s.commit c b).pcmin = s.pcmin := rfl
@[simp] theorem State.commit_pcmout (s : State) (c : Fin 8) (b : Best) : (s.commit c b).pcmout = s.pcmout := rfl
@[simp] theorem State.commit_arg (s : State) (c : Fin 8) (b : Best) : (s.commit c b).arg = s.arg := rfl
@[simp] theorem State.commit_res (s : State) (c : Fin 8) (b : Best) : (s.commit c b).res = s.res := rfl
@[simp] theorem State.commit_pending (s : State) (c : Fin 8) (b : Best) : (s.commit c b).pending = s.pending := rfl
@[simp] theorem State.commit_params (s : State) (c : Fin 8) (b : Best) : (s.commit c b).params = s.params := rfl

end Sys2Proof.Machine
end

