-- ==== Sys2Proof/Laws/Frame.lean ====
section
/-! SUPPORT. What the parts of `ENC.FRAME` and `DEC.FRAME` change and what they leave (43_frame.md R169, R172, R173), one
lemma per shared operation. -/

namespace Sys2Proof.Machine

/-- What every turn of a loop keeps, the loop keeps. -/
theorem foldl_keeps {α β : Type} {f : State → α → State} (g : State → β) (h : ∀ s a, g (f s a) = g s) (xs : List α)
    (s : State) : g (xs.foldl f s) = g s := by
  induction xs generalizing s with
  | nil => rfl
  | cons x xs ih => rw [List.foldl_cons, ih, h]

/-! ## Channels and slices -/

theorem mem_channelList {n : Nat} {c : Fin 8} : c ∈ channelList n ↔ c.val < n := by simp [channelList]

theorem channelList_length {n : Nat} (h : n ≤ 8) : (channelList n).length = n := by
  interval_cases n <;> rfl

theorem mem_slicePositions {channels n : Nat} {p : SlicePos} :
    p ∈ slicePositions channels n ↔ p.s < ceilDiv n 20 ∧ p.c.val < channels ∧ p.len = min 20 (n - 20 * p.s) := by
  obtain ⟨s, c, len⟩ := p
  simp only [slicePositions, List.mem_flatMap, List.mem_range, List.mem_map, mem_channelList, SlicePos.mk.injEq]
  constructor
  · rintro ⟨a, ha, b, hb, rfl, rfl, rfl⟩; exact ⟨ha, hb, rfl⟩
  · rintro ⟨ha, hb, rfl⟩; exact ⟨s, ha, c, hb, rfl, rfl, rfl⟩

/-! ## Decoding -/

/-- Writing samples changes `PCMOUT` alone. -/
theorem writeSamples_frame (c : Fin 8) (vs : List Sample) (n : Nat) (s : State) :
    writeSamples c n vs s = { s with pcmout := (writeSamples c n vs s).pcmout } := by
  induction vs generalizing n s with
  | nil => rfl
  | cons v vs ih => simp only [writeSamples]; rw [ih]; rfl

/-- Writing samples leaves every location that is none of theirs. -/
theorem writeSamples_outside (c : Fin 8) (vs : List Sample) (n : Nat) (s : State) (i : Nat)
    (h : ∀ k < vs.length, i ≠ (n + k) * s.channels.toNat + c.val) :
    Memory.read (writeSamples c n vs s).pcmout i = Memory.read s.pcmout i := by
  induction vs generalizing n s with
  | nil => rfl
  | cons v vs ih =>
    simp only [writeSamples]
    rw [ih]
    · simp only [State.sampleWrite, Memory.read_write]
      rw [if_neg]
      simpa using h 0 (by simp)
    · intro k hk
      have := h (k + 1) (by simpa using hk)
      rw [show n + (k + 1) = n + 1 + k by omega] at this
      exact this

/-- Writing samples puts sample `k` at the index of sample number `n + k`. -/
theorem writeSamples_inside (c : Fin 8) (vs : List Sample) (n : Nat) (s : State) (k : Nat)
    (hC : 0 < s.channels.toNat) (hk : k < vs.length) :
    Memory.read (writeSamples c n vs s).pcmout ((n + k) * s.channels.toNat + c.val) = vs[k]? := by
  induction vs generalizing n s k with
  | nil => simp at hk
  | cons v vs ih =>
    simp only [writeSamples]
    cases k with
    | zero =>
      rw [writeSamples_outside]
      · simp [State.sampleWrite, Memory.read_write]
      · intro j hj heq
        have : (n + 0) * s.channels.toNat < (n + 1 + j) * s.channels.toNat :=
          Nat.mul_lt_mul_of_pos_right (by omega) hC
        simp only [State.sampleWrite] at heq
        omega
    | succ k =>
      have := ih (n + 1) (s.sampleWrite (n * s.channels.toNat + c.val) v) k hC (by simpa using hk)
      rw [show n + (k + 1) = n + 1 + k by omega]
      simpa using this

theorem writeSamples_wf (c : Fin 8) (vs : List Sample) (n : Nat) (s : State) (h : Memory.wf s.pcmout) :
    Memory.wf (writeSamples c n vs s).pcmout := by
  induction vs generalizing n s with
  | nil => exact h
  | cons v vs ih => exact ih _ _ (Memory.wf_write h _ _)

/-- A wire word changes the LMS registers and `PCMOUT` alone. -/
theorem applyWord_frame (p : WirePos) (w : WireWord) (s : State) :
    applyWord p w s = { s with lms := (applyWord p w s).lms, pcmout := (applyWord p w s).pcmout } := by
  cases p with
  | fileHeader => rfl
  | frameHeader => rfl
  | history => rfl
  | weights => rfl
  | slice p => simp only [applyWord, applySlice]; rw [writeSamples_frame]; rfl

theorem applyWord_wf (p : WirePos) (w : WireWord) (s : State) (h : Memory.wf s.pcmout) :
    Memory.wf (applyWord p w s).pcmout := by
  cases p with
  | fileHeader => exact h
  | frameHeader => exact h
  | history => exact h
  | weights => exact h
  | slice p => exact writeSamples_wf _ _ _ _ h

@[simp] theorem decodeUnits_nil (s : State) : decodeUnits [] s = s := rfl

theorem decodeUnits_cons (u : Nat × WirePos) (us : List (Nat × WirePos)) (s : State) :
    decodeUnits (u :: us) s = decodeUnits us (applyWord u.2 (s.bsinWord u.1) s) := rfl

theorem decodeUnits_append (us vs : List (Nat × WirePos)) (s : State) :
    decodeUnits (us ++ vs) s = decodeUnits vs (decodeUnits us s) := List.foldl_append

/-- Consuming units changes the LMS registers and `PCMOUT` alone. -/
theorem decodeUnits_frame (us : List (Nat × WirePos)) (s : State) :
    decodeUnits us s = { s with lms := (decodeUnits us s).lms, pcmout := (decodeUnits us s).pcmout } := by
  induction us generalizing s with
  | nil => rfl
  | cons u us ih => rw [decodeUnits_cons, ih, applyWord_frame]

theorem decodeUnits_wf (us : List (Nat × WirePos)) (s : State) (h : Memory.wf s.pcmout) :
    Memory.wf (decodeUnits us s).pcmout := by
  induction us generalizing s with
  | nil => exact h
  | cons u us ih => exact ih _ (applyWord_wf _ _ _ h)

/-- What `DEC.FRAME` has done before it looks whether the stream is done: the units consumed, the cursors moved. -/
def State.afterUnits (n : Nat) (s : State) : State :=
  let u := decodeUnits (frameUnits s.bsinPos.toNat s.channels.toNat n) s
  { s with
    lms := u.lms, pcmout := u.pcmout
    bsinPos := BitVec.ofNat 64 (s.bsinPos.toNat + frameBytes s.channels.toNat n)
    samplePos := BitVec.ofNat 32 (s.samplePos.toNat + n) }

theorem decodeFrameBody_eq (n : Nat) (s : State) : decodeFrameBody n s = finishDecode (s.afterUnits n) := by
  unfold decodeFrameBody advanceInput
  rw [decodeUnits_frame]
  rfl

/-- The two ways a decoded frame ends (43_frame.md R173). -/
theorem finishDecode_cases (s : State) :
    (s.samplePos < s.samples ∧ s.bsinPos < s.bsinLen ∧ finishDecode s = s) ∨
    (¬ (s.samplePos < s.samples ∧ s.bsinPos < s.bsinLen) ∧
      finishDecode s = { s with samples := s.samplePos, phase := .done }) := by
  unfold finishDecode
  split
  · rename_i h; exact .inl ⟨h.1, h.2, rfl⟩
  · rename_i h; exact .inr ⟨h, rfl⟩

/-! ## Encoding -/

/-- `put` moves the cursor and writes `BSOUT`, and nothing else. -/
theorem put_frame (s : State) (v : WireWord) :
    s.put v = { s with bsout := (s.put v).bsout, bsoutPos := (s.put v).bsoutPos } := rfl

theorem put_bsoutPos (s : State) (v : WireWord) (h : s.bsoutPos.toNat + 8 < 2 ^ 64) :
    (s.put v).bsoutPos.toNat = s.bsoutPos.toNat + 8 := by
  simp only [State.put, BitVec.toNat_ofNat]
  exact Nat.mod_eq_of_lt h

theorem put_read_outside (s : State) (v : WireWord) (a : Nat) (h : a < s.bsoutPos.toNat ∨ s.bsoutPos.toNat + 8 ≤ a) :
    Memory.read (s.put v).bsout a = Memory.read s.bsout a := memWrite_read_outside _ _ _ _ _ h

theorem put_read_inside (s : State) (v : WireWord) (i : Nat) (h : i < 8) :
    Memory.read (s.put v).bsout (s.bsoutPos.toNat + i) = some (BitVec.ofNat 8 (v.toNat / 256 ^ (7 - i))) :=
  memWrite_read_inside _ _ _ _ _ h

/-- What `put`, `commit` and the clearing of `PREV_SF` keep, the body of `ENC.FRAME` keeps. -/
theorem encodeFrameBody_keeps {β : Type} (g : State → β) (hput : ∀ s v, g (s.put v) = g s)
    (hcommit : ∀ s c b, g (State.commit s c b) = g s) (hclear : ∀ s : State, g { s with prevSf := allChannels 0 } = g s)
    (s : State) : g (encodeFrameBody s) = g s := by
  unfold encodeFrameBody
  dsimp only
  rw [foldl_keeps g (fun s p => by simp only [encodeSlice]; rw [hput, hcommit]), hclear,
    foldl_keeps g (fun s c => by simp only [putLms]; rw [hput, hput]), hput]

/-- The body of `ENC.FRAME` changes the LMS registers, `PREV_SF`, `ERROR_COUNT`, `BSOUT` and its cursor alone. -/
theorem encodeFrameBody_frame (s : State) :
    encodeFrameBody s =
      { s with
        lms := (encodeFrameBody s).lms, prevSf := (encodeFrameBody s).prevSf
        errorCount := (encodeFrameBody s).errorCount, bsout := (encodeFrameBody s).bsout
        bsoutPos := (encodeFrameBody s).bsoutPos } := by
  have h := encodeFrameBody_keeps
    (fun t : State => { t with lms := s.lms, prevSf := s.prevSf, errorCount := s.errorCount, bsout := s.bsout
                               bsoutPos := s.bsoutPos })
    (fun _ _ => rfl) (fun _ _ _ => rfl) (fun _ => rfl) s
  generalize encodeFrameBody s = t at h ⊢
  cases s
  cases t
  simp only [State.mk.injEq] at h ⊢
  simp only [h, and_self]

/-- The two ways an encoded frame ends (43_frame.md R169). -/
theorem finishEncode_cases (n : Nat) (s : State) :
    let pos := BitVec.ofNat 32 (s.samplePos.toNat + n)
    (pos = s.samples ∧ finishEncode n s = { s with samplePos := pos, phase := .done }) ∨
    (pos ≠ s.samples ∧ finishEncode n s = { s with samplePos := pos }) := by
  intro pos
  by_cases h : pos = s.samples
  · exact .inl ⟨h, by simp only [finishEncode]; rw [if_pos h]⟩
  · exact .inr ⟨h, by simp only [finishEncode]; rw [if_neg h]⟩

end Sys2Proof.Machine
end

