-- ==== Sys2Proof/Laws/Step.lean ====
section
/-! SUPPORT. All that a step can do, and the induction over the reachable states. -/

namespace Sys2Proof.Machine

@[simp] theorem step_idle {s : State} (h : s.pending = []) : step s = .next s := by simp [step, h]

theorem step_cons {s : State} {a : HostAction} {rest : List HostAction} (h : s.pending = a :: rest) :
    step s = act a { s with pending := rest } := by simp [step, h]

/-- A command word that decodes runs the instruction. -/
theorem issue_ok {s : State} {w : CommandWord} {i : Instr} (h : decodeCommand w = .ok i) : issue w s = exec i s := by
  simp [issue, h]

/-- A command word that does not decode raises `IllegalCommand`, which the error phase ignores. -/
theorem issue_error {s : State} {w : CommandWord} {e : DecodeError} (h : decodeCommand w = .error e) :
    issue w s = .next (if s.phase = .error then s else s.raise (decodeCause e)) := by
  simp [issue, h, settle_error]

/-- All that a step which answers a next state has done. -/
theorem step_cases {s t : State} (h : step s = .next t) :
    (s.pending = [] ∧ t = s) ∨
    (∃ w arg rest, s.pending = .command w arg :: rest ∧
      ((∃ i, decodeCommand w = .ok i ∧ exec i { s with arg := arg, pending := rest } = .next t) ∨
       (∃ e, decodeCommand w = .error e ∧ State.stopped { s with arg := arg, pending := rest } t))) ∨
    (∃ rest, s.pending = .reset :: rest ∧ t = State.resetInput { s with pending := rest }) ∨
    (∃ bytes rest, s.pending = .fillBsin bytes :: rest ∧ frameAdmitted .dec s = false ∧
      t = { s with bsin := Memory.ofList bytes, pending := rest }) ∨
    (∃ samples rest, s.pending = .fillPcmin samples :: rest ∧ frameAdmitted .enc s = false ∧
      t = { s with pcmin := Memory.ofList samples, pending := rest }) := by
  cases hp : s.pending with
  | nil => rw [step_idle hp] at h; cases h; exact .inl ⟨rfl, rfl⟩
  | cons a rest =>
    rw [step_cons hp] at h
    cases a with
    | command w arg =>
      refine .inr (.inl ⟨w, arg, rest, rfl, ?_⟩)
      simp only [act] at h
      cases hd : decodeCommand w with
      | ok i => rw [issue_ok hd] at h; exact .inl ⟨i, rfl, h⟩
      | error e =>
        simp only [issue, hd] at h
        rcases settle_cases h with h | h
        · exact .inr ⟨e, rfl, h⟩
        · cases h
    | reset => cases h; exact .inr (.inr (.inl ⟨rest, rfl, rfl⟩))
    | fillBsin bytes =>
      simp only [act] at h
      split at h
      · cases h
      · rename_i hf; cases h
        exact .inr (.inr (.inr (.inl ⟨bytes, rest, rfl, Bool.eq_false_iff.mpr hf, rfl⟩)))
    | fillPcmin samples =>
      simp only [act] at h
      split at h
      · cases h
      · rename_i hf; cases h
        exact .inr (.inr (.inr (.inr ⟨samples, rest, rfl, Bool.eq_false_iff.mpr hf, rfl⟩)))

/-- A step's only stop is a host that fills a buffer a running stream reads. -/
theorem step_answers (s : State) : (∃ t, step s = .next t) ∨ step s = .refused .hostBreaksBufferRule := by
  cases hp : s.pending with
  | nil => exact .inl ⟨s, step_idle hp⟩
  | cons a rest =>
    rw [step_cons hp]
    cases a with
    | command w arg =>
      cases hd : decodeCommand w with
      | ok i => simp only [act, issue_ok hd]; exact .inl (exec_answers i _)
      | error e => simp only [act, issue_error hd]; exact .inl ⟨_, rfl⟩
    | reset => exact .inl ⟨_, rfl⟩
    | fillBsin bytes => simp only [act]; split <;> simp
    | fillPcmin samples => simp only [act]; split <;> simp

/-- A property that holds at power-on, does not look at the queue, and is kept by every step holds in every reachable
state. -/
theorem reachable_of_step {P : State → Prop} (h0 : ∀ params, P { State.reset with params := params })
    (hq : ∀ s queue, P s → P { s with pending := queue }) (hs : ∀ s t, P s → step s = .next t → P t)
    {s : State} (h : Reachable s) : P s := by
  induction h with
  | powerOn params => exact h0 params
  | queue _ actions ih => exact hq _ _ ih
  | step _ hstep ih => exact hs _ _ ih hstep

/-- The words of the byte stream, run at their places, change the registers a header or a slice carries and `PCMOUT`
alone, or are turned away. -/
theorem exec_wire_cases {s t : State} {p : WirePos} {w : WireWord} {i : Instr} (hd : decodeWire p w = .ok i)
    (h : exec i s = .next t) :
    s.stopped t ∨
    t = { s with samples := t.samples, channels := t.channels, sampleRate := t.sampleRate, lms := t.lms
                 pcmout := t.pcmout } := by
  have key : ∀ {b : Bool} {v : Verdict}, consume b s v = .next t →
      (∀ u, v = .ok u → u = { s with samples := u.samples, channels := u.channels, sampleRate := u.sampleRate
                                     lms := u.lms, pcmout := u.pcmout }) →
      s.stopped t ∨
      t = { s with samples := t.samples, channels := t.channels, sampleRate := t.sampleRate, lms := t.lms
                   pcmout := t.pcmout } := by
    intro b v hc hv
    rcases consume_cases hc with ⟨-, rfl⟩ | ⟨-, h | h⟩
    · exact .inr rfl
    · exact .inl h
    · exact .inr (hv _ h)
  cases p <;> simp only [decodeWire] at hd
  case fileHeader =>
    split at hd <;> cases hd
    refine key h fun u hu => ?_
    simp only [bind_eq_ok, pure_eq_ok, Except.ok.injEq] at hu
    obtain ⟨_, _, rfl⟩ := hu; rfl
  case frameHeader role =>
    cases hd
    cases role <;> refine key h fun u hu => ?_ <;> simp only [bind_eq_ok, pure_eq_ok, Except.ok.injEq] at hu <;>
      (obtain ⟨_, _, rfl⟩ := hu; rfl)
  case history => cases hd; exact key h fun u hu => by cases hu; rfl
  case weights => cases hd; exact key h fun u hu => by cases hu; rfl
  case slice p =>
    cases hd
    refine key h fun u hu => ?_
    cases hu
    simp only [applySlice]; rw [writeSamples_frame]; rfl

end Sys2Proof.Machine
end

