-- ==== Sys2Proof/Laws/Host.lean ====
section
/-! SUPPORT. What each piece of a host program does: an action taken now, a register read, the test of `STATUS`, the loop, and
the end. -/

namespace Sys2Proof.Machine

/-! ## Actions and reads -/

@[simp] theorem thenDo_next {α : Type} (s : State) (k : State → Host.Outcome α Fault Refusal) :
    thenDo (.next s) k = k s := rfl

/-- An action taken now leaves what waits to wait. -/
theorem hostDoes_eq (a : HostAction) (s : State) : hostDoes a s = act a s := rfl

theorem hostDoes_fillBsin {s : State} (h : ¬ (s.phase = .needFrame ∧ s.mode = .dec)) (bytes : List Byte) :
    hostDoes (.fillBsin bytes) s = .next { s with bsin := Memory.ofList bytes } := by
  have : frameAdmitted .dec s = false := by simpa [frameAdmitted] using h
  simp [hostDoes_eq, act, this]

theorem hostDoes_fillPcmin {s : State} (h : ¬ (s.phase = .needFrame ∧ s.mode = .enc)) (pcm : List Sample) :
    hostDoes (.fillPcmin pcm) s = .next { s with pcmin := Memory.ofList pcm } := by
  have : frameAdmitted .enc s = false := by simpa [frameAdmitted] using h
  simp [hostDoes_eq, act, this]

/-- A command given now is its instruction on the operands given with it. -/
theorem hostDoes_command {w : CommandWord} {i : Instr} (hd : decodeCommand w = .ok i) (arg : List Int) (s : State) :
    hostDoes (.command w arg) s = exec i { s with arg := arg } := by
  rw [hostDoes_eq]; exact issue_ok hd

theorem decode_rdreg (r : BitVec 16) : decodeCommand (commandWord 0x01 0 0 r) = .ok (.rdreg r) := by
  simp [decodeCommand, commandTable, CommandRow.unusedZero, List.find?]

theorem decode_encOpen : decodeCommand (commandWord 0x40 0 0 0) = .ok .encOpen := rfl
theorem decode_encFrame : decodeCommand (commandWord 0x41 0 0 0) = .ok .encFrame := rfl
theorem decode_decOpen : decodeCommand (commandWord 0x48 0 0 0) = .ok .decOpen := rfl
theorem decode_decFrame : decodeCommand (commandWord 0x49 0 0 0) = .ok .decFrame := rfl

/-- The state after a register has been read: the value shows on `RES`, and `ARG` is empty. -/
abbrev State.showing (s : State) (v : BitVec 64) : State := { s with arg := [], res := [wordResult v] }

/-- Reading a register continues with its value, in any phase. -/
theorem hostReads_eq {α : Type} {r : BitVec 16} {v : BitVec 64} {s : State} (h : s.readRegister r = some v)
    (k : Int → State → Host.Outcome α Fault Refusal) : hostReads r k s = k (wordResult v) (s.showing v) := by
  have h' : State.readRegister { s with arg := [] } r = some v := h
  have he : hostDoes (.command (commandWord 0x01 0 0 r) []) s = .next (s.showing v) :=
    (hostDoes_command (decode_rdreg r) [] s).trans (execRdreg_ok h' rfl)
  rw [hostReads, he]; rfl

/-! ## The value of `STATUS` -/

theorem statusWord_toNat (s : State) : s.statusWord.toNat =
    s.errInfo.toNat * 256 + s.err.toNat * 16 + s.mode.code.toNat * 4 + s.phase.code.toNat := by
  simp only [State.statusWord]
  have h1 := s.mode.code.isLt; have h2 := s.phase.code.isLt; have h3 := s.err.isLt
  rw [BitVec.toNat_append, ← Nat.shiftLeft_add_eq_or_of_lt h2, BitVec.toNat_append, ← Nat.shiftLeft_add_eq_or_of_lt h1,
    BitVec.toNat_append, ← Nat.shiftLeft_add_eq_or_of_lt h3, BitVec.toNat_append,
    ← Nat.shiftLeft_add_eq_or_of_lt s.errInfo.isLt]
  simp only [Nat.shiftLeft_eq, show (0 : BitVec 52).toNat = 0 from rfl]
  omega

/-- The phase the host reads is the phase. -/
@[simp] theorem statusPhase_statusWord (s : State) : statusPhase (wordResult s.statusWord) = s.phase.code.toNat := by
  have h := s.phase.code.isLt
  simp only [statusPhase, wordResult, statusWord_toNat]
  omega

/-- The error the host reads is `ERR`. -/
@[simp] theorem statusErr_statusWord (s : State) : statusErr (wordResult s.statusWord) = s.err := by
  have h1 := s.mode.code.isLt; have h2 := s.phase.code.isLt; have h3 := s.err.isLt
  have h : (wordResult s.statusWord : Int) / 16 = ((s.errInfo.toNat * 16 + s.err.toNat : Nat) : Int) := by
    simp only [wordResult, statusWord_toNat]; omega
  rw [statusErr, h, BitVec.ofInt_natCast]
  apply BitVec.eq_of_toNat_eq
  simp only [BitVec.toNat_ofNat]
  omega

theorem phase_code_eq (p : Phase) :
    ((p.code.toNat : Int) = 1 ↔ p = .needFrame) ∧ ((p.code.toNat : Int) = 2 ↔ p = .done) := by
  cases p <;> decide

/-! ## The loop and the end -/

/-- The loop's test passes: one frame operation, and the loop again. -/
theorem whileNeedFrame_again {s : State} (h : s.phase = .needFrame) (w : CommandWord) (fuel : Nat) :
    whileNeedFrame w (fuel + 1) s =
      thenDo (hostDoes (.command w []) (s.showing s.statusWord)) (whileNeedFrame w fuel) := by
  have : statusPhase (wordResult s.statusWord) = 1 := by simp [h, Phase.code]
  rw [whileNeedFrame, hostReads_eq (v := s.statusWord) rfl, if_pos this]

/-- The loop's test fails: the loop has ended. -/
theorem whileNeedFrame_ends {s : State} (h : s.phase ≠ .needFrame) (w : CommandWord) (fuel : Nat) :
    whileNeedFrame w (fuel + 1) s = .next (s.showing s.statusWord) := by
  have : ¬ statusPhase (wordResult s.statusWord) = 1 := by
    rw [statusPhase_statusWord]; exact fun hh => h ((phase_code_eq _).1.mp hh)
  rw [whileNeedFrame, hostReads_eq (v := s.statusWord) rfl, if_neg this]

/-- The end of a program in the phase it asks for. -/
theorem hostEnds_there {α : Type} {phase : Int} {s : State} (h : (s.phase.code.toNat : Int) = phase)
    (k : State → HostAnswer α) : hostEnds phase k s = k (s.showing s.statusWord) := by
  rw [hostEnds, hostReads_eq (v := s.statusWord) rfl, if_pos (by rw [statusPhase_statusWord]; exact h)]

/-- The end of a program in another phase: the error it reads. -/
theorem hostEnds_elsewhere {α : Type} {phase : Int} {s : State} (h : (s.phase.code.toNat : Int) ≠ phase)
    (k : State → HostAnswer α) : hostEnds phase k s = .next ⟨s.showing s.statusWord, .error s.err⟩ := by
  rw [hostEnds, hostReads_eq (v := s.statusWord) rfl, if_neg (by rw [statusPhase_statusWord]; exact h),
    statusErr_statusWord]

/-- The three reads of the descriptor. -/
theorem hostReadsDescriptor_eq {α : Type} (k : StreamDescriptor → State → HostAnswer α) (s : State) :
    hostReadsDescriptor k s =
      k ⟨s.channels.toNat, s.sampleRate.toNat, s.samples.toNat⟩ (s.showing (s.samples.setWidth 64)) := by
  have h (n : Nat) (b : BitVec n) (hn : n ≤ 64) : (wordResult (b.setWidth 64)).toNat = b.toNat := by
    have := Nat.lt_of_lt_of_le b.isLt (Nat.pow_le_pow_right (by omega) hn)
    simp [wordResult, Nat.mod_eq_of_lt this]
  rw [hostReadsDescriptor, hostReads_eq (v := s.channels.setWidth 64) rfl,
    hostReads_eq (v := s.sampleRate.setWidth 64) rfl, hostReads_eq (v := s.samples.setWidth 64) rfl,
    h _ _ (by decide), h _ _ (by decide), h _ _ (by decide)]

/-- Every location the host reads holds the value listed there, where each holds one. -/
theorem hostBuffer_of_isSome {α : Type} {m : Memory α} {n : Nat} (h : ∀ a < n, (m.read a).isSome = true) :
    ∃ values : List α, hostBuffer m n = values.map some ∧ values.length = n ∧ ∀ a < n, m.read a = values[a]? := by
  induction n with
  | zero => exact ⟨[], rfl, rfl, by simp⟩
  | succ n ih =>
    obtain ⟨values, h1, h2, h3⟩ := ih fun a ha => h a (by omega)
    obtain ⟨v, hv⟩ := Option.isSome_iff_exists.mp (h n (by omega))
    refine ⟨values ++ [v], ?_, by simp [h2], fun a ha => ?_⟩
    · simp only [hostBuffer] at h1
      simp [hostBuffer, List.range_succ, h1, hv]
    · rcases Nat.lt_succ_iff_lt_or_eq.mp ha with ha | rfl
      · rw [List.getElem?_append_left (by omega), h3 a ha]
      · simp [← h2] at hv ⊢; exact hv

end Sys2Proof.Machine
end

