-- ==== Sys2Proof/Laws/Output.lean ====
section
/-! SUPPORT. The bytes `ENC.FRAME` appends to `BSOUT` and where its cursor ends (20_memory.md R52, R61, R62, 43_frame.md
R168, R169). -/

namespace Sys2Proof.Machine

/-! ## Lengths -/

theorem slicePositions_length {channels n : Nat} (h : channels ≤ 8) :
    (slicePositions channels n).length = ceilDiv n 20 * channels := by
  simp only [slicePositions, List.length_flatMap, List.length_map, channelList_length h]
  simp [List.map_const']

/-- The words of a frame: its header, two for each channel, one for each slice. -/
theorem frameBytes_eq_words (channels n : Nat) :
    frameBytes channels n = 8 * (1 + 2 * channels + ceilDiv n 20 * channels) := by
  simp only [frameBytes]; ring

/-- A stream grows by one frame. -/
theorem encodedLength_add_frame (channels p n : Nat) (hp : p % 5120 = 0) (hn : 1 ≤ n) (hn' : n ≤ 5120) :
    encodedLength channels (p + n) = encodedLength channels p + frameBytes channels n := by
  obtain ⟨j, rfl⟩ : ∃ j, p = 5120 * j := ⟨p / 5120, by omega⟩
  have e1 : ceilDiv (5120 * j) 5120 = j := by simp only [ceilDiv]; omega
  have e2 : ceilDiv (5120 * j + n) 5120 = j + 1 := by simp only [ceilDiv]; omega
  have e3 : ceilDiv (5120 * j) 20 = 256 * j := by simp only [ceilDiv]; omega
  have e4 : ceilDiv (5120 * j + n) 20 = 256 * j + ceilDiv n 20 := by simp only [ceilDiv]; omega
  simp only [encodedLength, frameBytes, e1, e2, e3, e4]; ring

theorem encodedLength_mono (channels : Nat) {a b : Nat} (h : a ≤ b) :
    encodedLength channels a ≤ encodedLength channels b := by
  have h1 : ceilDiv a 5120 ≤ ceilDiv b 5120 := by simp only [ceilDiv]; omega
  have h2 : ceilDiv a 20 ≤ ceilDiv b 20 := by simp only [ceilDiv]; omega
  simp only [encodedLength]
  have := Nat.mul_le_mul_left (16 * channels) h1
  have := Nat.mul_le_mul_left (8 * channels) h2
  omega

/-- The longest stream `ENC.OPEN` accepts stays below 2³⁴ bytes. -/
theorem encodedLength_lt {channels n : Nat} (h : channels ≤ 8) (hn : n < 2 ^ 32) :
    encodedLength channels n < 2 ^ 34 := by
  simp only [encodedLength, ceilDiv]
  have h1 : 16 * channels * ((n + 5120 - 1) / 5120) ≤ 16 * 8 * ((n + 5120 - 1) / 5120) :=
    Nat.mul_le_mul_right _ (by omega)
  have h2 : 8 * channels * ((n + 20 - 1) / 20) ≤ 8 * 8 * ((n + 20 - 1) / 20) := Nat.mul_le_mul_right _ (by omega)
  omega

/-- The longest frame fits the 16-bit `fsize` field. -/
theorem frameBytes_lt {channels n : Nat} (h : channels ≤ 8) (hn : n ≤ 5120) : frameBytes channels n < 2 ^ 16 := by
  simp only [frameBytes, ceilDiv]
  have h2 : 8 * ((n + 20 - 1) / 20) * channels ≤ 8 * 256 * 8 := Nat.mul_le_mul (by omega) h
  omega

/-! ## Words appended -/

/-- From `s` to `t` exactly `k` words were appended to `BSOUT`. -/
structure Appended (s t : State) (k : Nat) : Prop where
  pos     : t.bsoutPos.toNat = s.bsoutPos.toNat + 8 * k
  outside : ∀ a, a < s.bsoutPos.toNat ∨ s.bsoutPos.toNat + 8 * k ≤ a → Memory.read t.bsout a = Memory.read s.bsout a
  inside  : ∀ a, s.bsoutPos.toNat ≤ a → a < s.bsoutPos.toNat + 8 * k → (Memory.read t.bsout a).isSome = true

theorem Appended.none {s t : State} (h1 : t.bsout = s.bsout) (h2 : t.bsoutPos = s.bsoutPos) : Appended s t 0 :=
  ⟨by rw [h2]; omega, fun _ _ => by rw [h1], by intros; omega⟩

theorem Appended.trans {s t u : State} {j k : Nat} (h1 : Appended s t j) (h2 : Appended t u k) :
    Appended s u (j + k) := by
  refine ⟨by rw [h2.pos, h1.pos]; omega, ?_, ?_⟩
  · intro a ha; rw [h2.outside a (by rw [h1.pos]; omega), h1.outside a (by omega)]
  · intro a h3 h4
    by_cases hh : a < s.bsoutPos.toNat + 8 * j
    · rw [h2.outside a (by rw [h1.pos]; omega)]; exact h1.inside a h3 hh
    · exact h2.inside a (by rw [h1.pos]; omega) (by rw [h1.pos]; omega)

theorem Appended.put (s : State) (v : WireWord) (h : s.bsoutPos.toNat + 8 < 2 ^ 64) : Appended s (s.put v) 1 := by
  refine ⟨put_bsoutPos s v h, fun a ha => put_read_outside s v a ha, ?_⟩
  intro a h1 h2
  obtain ⟨i, rfl⟩ : ∃ i, a = s.bsoutPos.toNat + i := ⟨a - s.bsoutPos.toNat, by omega⟩
  rw [put_read_inside s v i (by omega)]; rfl

/-- A loop of which every turn appends `k` words. -/
theorem Appended.fold {α : Type} {f : State → α → State} {k : Nat}
    (hf : ∀ s a, s.bsoutPos.toNat + 8 * k < 2 ^ 64 → Appended s (f s a) k) (xs : List α) (s : State)
    (h : s.bsoutPos.toNat + 8 * (k * xs.length) < 2 ^ 64) : Appended s (xs.foldl f s) (k * xs.length) := by
  induction xs generalizing s with
  | nil => exact Appended.none rfl rfl
  | cons x xs ih =>
    have e : k * (x :: xs).length = k + k * xs.length := by rw [List.length_cons, Nat.mul_succ, Nat.add_comm]
    rw [e] at h ⊢
    have h1 := hf s x (by omega)
    exact h1.trans (ih (f s x) (by rw [h1.pos]; omega))

theorem putLms_appends (s : State) (c : Fin 8) (h : s.bsoutPos.toNat + 16 < 2 ^ 64) : Appended s (putLms s c) 2 :=
  (Appended.put s _ (by omega)).trans (Appended.put _ _ (by rw [put_bsoutPos _ _ (by omega)]; omega))

theorem encodeSlice_appends (s : State) (p : SlicePos) (h : s.bsoutPos.toNat + 8 < 2 ^ 64) :
    Appended s (encodeSlice s p) 1 := by
  have e := Appended.none (s := s) (t := s.commit p.c (s.searchFor p.c (s.sliceSamples p))) rfl rfl
  exact e.trans (Appended.put _ _ (by rw [e.pos]; omega))

/-- The state of `ENC.FRAME` before its first slice: the header and the LMS words written, `PREV_SF` cleared. -/
def State.afterPrelude (s : State) : State :=
  { (channelList s.channels.toNat).foldl putLms (s.put s.nextFrameHeader) with prevSf := allChannels 0 }

theorem encodeFrameBody_eq (s : State) :
    encodeFrameBody s = (slicePositions s.channels.toNat s.nextFrameLength).foldl encodeSlice s.afterPrelude := rfl

/-- The LMS words change `BSOUT` and its cursor alone. -/
theorem putLms_fold_frame (xs : List (Fin 8)) (s : State) :
    xs.foldl putLms s =
      { s with bsout := (xs.foldl putLms s).bsout, bsoutPos := (xs.foldl putLms s).bsoutPos } := by
  induction xs generalizing s with
  | nil => rfl
  | cons x xs ih => rw [List.foldl_cons, ih]; rfl

theorem afterPrelude_frame (s : State) :
    s.afterPrelude =
      { s with bsout := s.afterPrelude.bsout, bsoutPos := s.afterPrelude.bsoutPos, prevSf := allChannels 0 } := by
  unfold State.afterPrelude; rw [putLms_fold_frame]; rfl

theorem afterPrelude_appends (s : State) (hC : s.channels.toNat ≤ 8)
    (h : s.bsoutPos.toNat + 8 + 16 * s.channels.toNat < 2 ^ 64) :
    Appended s s.afterPrelude (1 + 2 * s.channels.toNat) := by
  have hc := channelList_length hC
  have h1 := Appended.put s s.nextFrameHeader (by omega)
  have h2 := Appended.fold (k := 2) (fun s c h => putLms_appends s c (by omega)) (channelList s.channels.toNat)
    (s.put s.nextFrameHeader) (by rw [h1.pos, hc]; omega)
  rw [hc] at h2
  have h12 := h1.trans h2
  unfold State.afterPrelude
  generalize (channelList s.channels.toNat).foldl putLms (s.put s.nextFrameHeader) = t at *
  exact h12.trans (Appended.none (t := { t with prevSf := allChannels 0 }) rfl rfl)

/-- `ENC.FRAME` appends exactly the words of its frame. -/
theorem encodeFrameBody_appends (s : State) (hC : s.channels.toNat ≤ 8)
    (h : s.bsoutPos.toNat + frameBytes s.channels.toNat s.nextFrameLength < 2 ^ 64) :
    Appended s (encodeFrameBody s)
      (1 + 2 * s.channels.toNat + ceilDiv s.nextFrameLength 20 * s.channels.toNat) := by
  have hl := slicePositions_length (n := s.nextFrameLength) hC
  rw [frameBytes_eq_words] at h
  rw [encodeFrameBody_eq]
  have h1 := afterPrelude_appends s hC (by omega)
  generalize s.afterPrelude = t at *
  have h2 := Appended.fold (k := 1) (fun s p h => encodeSlice_appends s p (by omega))
    (slicePositions s.channels.toNat s.nextFrameLength) t (by rw [h1.pos, hl]; omega)
  rw [Nat.one_mul, hl] at h2
  exact h1.trans h2

/-! ## What stands in the bytes -/

/-- The eight bytes from `a` on are the big-endian bytes of `v`. -/
def HoldsWord (m : Memory Byte) (a v : Nat) : Prop :=
  ∀ i < 8, Memory.read m (a + i) = some (BitVec.ofNat 8 (v / 256 ^ (7 - i)))

theorem put_holds (s : State) (v : WireWord) : HoldsWord (s.put v).bsout s.bsoutPos.toNat v.toNat :=
  fun i hi => put_read_inside s v i hi

/-- A word that stands below the cursor stays. -/
theorem HoldsWord.kept {s t : State} {k a v : Nat} (hw : Appended s t k) (h : HoldsWord s.bsout a v)
    (ha : a + 8 ≤ s.bsoutPos.toNat) : HoldsWord t.bsout a v := by
  intro i hi; rw [hw.outside _ (by omega)]; exact h i hi

/-- A word of the input whose bytes were filled reads as the word they hold. -/
theorem bsinWord_of_holds {s : State} {a : Nat} {w : WireWord} (h : HoldsWord s.bsin a w.toNat) : s.bsinWord a = w := by
  have hv := w.isLt
  apply BitVec.eq_of_toNat_eq
  rw [State.bsinWord, memRead_of_bytes _ _ 8 w.toNat, BitVec.toNat_ofNat]
  · rw [show (256 : Nat) ^ 8 = 2 ^ 64 from rfl, Nat.mod_mod]; exact Nat.mod_eq_of_lt hv
  · intro i hi
    simp only [State.bsinByte, h i hi]; simp

end Sys2Proof.Machine
end

