-- ==== Sys2Proof/Laws/PerInstr.lean ====
section
/-! SUPPORT. One fact per instruction, as syntax: the encoding of a well-formed instruction has the fixed bits of its row of
the opcode table (30_encoding.md R71, R73 to R78). -/

namespace Sys2Proof.Laws.TableRow

/-- The word an instruction is encoded as, in 64 bits. -/
def word (i : Instr) : BitVec 64 :=
  match encode i with
  | .command w => w.setWidth 64
  | .wire _ w => w

/-- The row's `mask` and `match`, as the opcode table prints them. -/
def row : Instr → BitVec 64 × BitVec 64
  | .nop => (0xffffffff, 0x00000000)
  | .rdreg _ => (0xffffffe0, 0x01000000)
  | .fnClamp => (0xffffffff, 0x10000000)
  | .fnClamps16 => (0xffffffff, 0x11000000)
  | .fnDivide _ => (0xfff0ffff, 0x12000000)
  | .tblRecip _ => (0xfff0ffff, 0x18000000)
  | .tblQuant _ => (0xffffffe0, 0x19000000)
  | .tblDequant _ _ => (0xfff0fff8, 0x1a000000)
  | .lmsInit => (0xffffffff, 0x20000000)
  | .lmsLoad _ => (0xff8fffff, 0x21000000)
  | .lmsStore _ => (0xff8fffff, 0x22000000)
  | .lmsPredict _ => (0xff8fffff, 0x23000000)
  | .lmsUpdate _ => (0xff8fffff, 0x24000000)
  | .decSlice _ _ => (0xff8fffe0, 0x30000000)
  | .encTrial _ _ _ => (0xff80ffe0, 0x31000000)
  | .encSlice _ _ => (0xff8fffe0, 0x32000000)
  | .encOpen => (0xffffffff, 0x40000000)
  | .encFrame => (0xffffffff, 0x41000000)
  | .decOpen => (0xffffffff, 0x48000000)
  | .decFrame => (0xffffffff, 0x49000000)
  | .fileHeader _ => (0xffffffff00000000, 0x716f616600000000)
  | .frameHeader _ _ _ _ _ => (0, 0)
  | .lmsHistory _ _ _ _ _ => (0, 0)
  | .lmsWeights _ _ _ _ _ => (0, 0)
  | .slice _ _ _ => (0, 0)

/-- The encoded word agrees with the row's fixed bits. -/
def Statement (i : Instr) : Prop := i.wellFormed = true → word i &&& (row i).1 = (row i).2

/-- Masking a command word is masking its fields. -/
theorem mask_commandWord (op : BitVec 8) (c sf : BitVec 4) (imm : BitVec 16) (m1 : BitVec 8) (m2 m3 : BitVec 4)
    (m4 : BitVec 16) :
    (commandWord op c sf imm).setWidth 64 &&& (commandWord m1 m2 m3 m4).setWidth 64 =
      (commandWord (op &&& m1) (c &&& m2) (sf &&& m3) (imm &&& m4)).setWidth 64 := by
  simp only [commandWord]
  ext i hi
  simp only [BitVec.getElem_and, BitVec.getElem_setWidth, BitVec.getLsbD_append, BitVec.getLsbD_and]
  grind

theorem channel_mask {c : BitVec 4} (h : c.toNat < 8) : c &&& 8 = 0 := by revert c; decide

/-- A number below 32 has no bit above the fifth. -/
theorem imm_mask {i : BitVec 16} (h : i.toNat < 32) : i &&& 0xffe0 = 0 := by
  have key : ∀ n : Fin 32, BitVec.ofNat 16 n.val &&& 0xffe0 = 0 := by decide
  simpa using key ⟨i.toNat, h⟩

theorem q_mask {i : BitVec 16} (h : i.toNat < 8) : i &&& 0xfff8 = 0 := by
  have key : ∀ n : Fin 8, BitVec.ofNat 16 n.val &&& 0xfff8 = 0 := by decide
  simpa using key ⟨i.toNat, h⟩

theorem nop : Statement .nop := fun _ => by decide
theorem fnClamp : Statement .fnClamp := fun _ => by decide
theorem fnClamps16 : Statement .fnClamps16 := fun _ => by decide
theorem lmsInit : Statement .lmsInit := fun _ => by decide
theorem encOpen : Statement .encOpen := fun _ => by decide
theorem encFrame : Statement .encFrame := fun _ => by decide
theorem decOpen : Statement .decOpen := fun _ => by decide
theorem decFrame : Statement .decFrame := fun _ => by decide

theorem rdreg (r : BitVec 16) : Statement (.rdreg r) := fun h => by
  have hr : r.toNat < 32 := by
    simp only [Instr.wellFormed, registerNumberOk, Bool.or_eq_true, Bool.and_eq_true, decide_eq_true_eq] at h
    omega
  refine (mask_commandWord _ _ _ _ 0xff 0xf 0xf 0xffe0).trans ?_
  rw [imm_mask hr]; rfl

theorem fnDivide (sf : BitVec 4) : Statement (.fnDivide sf) := fun _ => by revert sf; decide
theorem tblRecip (sf : BitVec 4) : Statement (.tblRecip sf) := fun _ => by revert sf; decide

theorem tblQuant (i : BitVec 16) : Statement (.tblQuant i) := fun h => by
  have hi : i.toNat < 32 := by
    simp only [Instr.wellFormed, decide_eq_true_eq] at h
    omega
  refine (mask_commandWord _ _ _ _ 0xff 0xf 0xf 0xffe0).trans ?_
  rw [imm_mask hi]; rfl

theorem tblDequant (sf : BitVec 4) (q : BitVec 16) : Statement (.tblDequant sf q) := fun h => by
  have hq : q.toNat < 8 := by
    simp only [Instr.wellFormed, decide_eq_true_eq] at h
    omega
  refine (mask_commandWord _ _ _ _ 0xff 0xf 0x0 0xfff8).trans ?_
  rw [q_mask hq, show sf &&& 0 = 0 by simp]; rfl

theorem lmsLoad (c : BitVec 4) : Statement (.lmsLoad c) := by revert c; unfold Statement; decide
theorem lmsStore (c : BitVec 4) : Statement (.lmsStore c) := by revert c; unfold Statement; decide
theorem lmsPredict (c : BitVec 4) : Statement (.lmsPredict c) := by revert c; unfold Statement; decide
theorem lmsUpdate (c : BitVec 4) : Statement (.lmsUpdate c) := by revert c; unfold Statement; decide

/-- What a well-formed channel and slice length say. -/
theorem fields_ok {c : BitVec 4} {len : BitVec 16} (h : (channelFieldOk c && lenFieldOk len) = true) :
    c.toNat < 8 ∧ len.toNat < 32 := by
  simp only [channelFieldOk, lenFieldOk, Bool.and_eq_true, decide_eq_true_eq] at h
  omega

theorem decSlice (c : BitVec 4) (len : BitVec 16) : Statement (.decSlice c len) := fun h => by
  obtain ⟨hc, hl⟩ := fields_ok h
  refine (mask_commandWord _ _ _ _ 0xff 0x8 0xf 0xffe0).trans ?_
  rw [channel_mask hc, imm_mask hl]; rfl

theorem encTrial (c sf : BitVec 4) (len : BitVec 16) : Statement (.encTrial c sf len) := fun h => by
  obtain ⟨hc, hl⟩ := fields_ok h
  refine (mask_commandWord _ _ _ _ 0xff 0x8 0x0 0xffe0).trans ?_
  rw [channel_mask hc, imm_mask hl, show sf &&& 0 = 0 by simp]; rfl

theorem encSlice (c : BitVec 4) (len : BitVec 16) : Statement (.encSlice c len) := fun h => by
  obtain ⟨hc, hl⟩ := fields_ok h
  refine (mask_commandWord _ _ _ _ 0xff 0x8 0xf 0xffe0).trans ?_
  rw [channel_mask hc, imm_mask hl]; rfl

theorem fileHeader (samples : BitVec 32) : Statement (.fileHeader samples) := fun _ => by
  show fileHeaderPack samples &&& 0xffffffff00000000 = 0x716f616600000000
  rw [show (0xffffffff00000000 : BitVec 64) = BitVec.allOnes 32 ++ 0x0#32 from rfl,
    show (0x716f616600000000 : BitVec 64) = magic ++ 0x0#32 from rfl, fileHeaderPack]
  ext i hi
  simp only [BitVec.getElem_and, BitVec.getElem_append, BitVec.getElem_allOnes]
  grind

theorem frameHeader (role : HeaderRole) (channels : BitVec 8) (sampleRate : BitVec 24) (fsamples fsize : BitVec 16) :
    Statement (.frameHeader role channels sampleRate fsamples fsize) := fun _ => BitVec.and_zero
theorem lmsHistory (c : Fin 8) (h0 h1 h2 h3 : Sample) : Statement (.lmsHistory c h0 h1 h2 h3) := fun _ => BitVec.and_zero
theorem lmsWeights (c : Fin 8) (w0 w1 w2 w3 : Sample) : Statement (.lmsWeights c w0 w1 w2 w3) := fun _ => BitVec.and_zero
theorem slice (p : SlicePos) (sf : BitVec 4) (qs : BitVec 60) : Statement (.slice p sf qs) := fun _ => BitVec.and_zero

end Sys2Proof.Laws.TableRow
end

