-- ==== Sys2Proof/Laws/Samples.lean ====
section
/-! SUPPORT. The samples `DEC.FRAME` writes and the channels it touches (20_memory.md R54, R68, 43_frame.md R172). -/

namespace Sys2Proof.Machine

/-- The unit writes `PCMOUT` at index `i`. -/
def writesSample (s : State) (u : WirePos) (i : Nat) : Prop :=
  match u with
  | .slice p => ∃ k < p.len, i = (s.samplePos.toNat + 20 * p.s + k) * s.channels.toNat + p.c.val
  | _ => False

theorem applyWord_pcmout_outside (p : WirePos) (w : WireWord) (s : State) (i : Nat) (h : ¬ writesSample s p i) :
    Memory.read (applyWord p w s).pcmout i = Memory.read s.pcmout i := by
  cases p with
  | slice p =>
    refine writeSamples_outside p.c _ _ (s.setLms p.c _) i ?_
    intro k hk he
    exact h ⟨k, by simpa using hk, he⟩
  | _ => rfl

theorem applyWord_pcmout_inside (p : WirePos) (w : WireWord) (s : State) (i : Nat) (h : writesSample s p i)
    (hC : 0 < s.channels.toNat) : (Memory.read (applyWord p w s).pcmout i).isSome = true := by
  cases p with
  | slice p =>
    obtain ⟨k, hk, rfl⟩ := h
    simp only [applyWord, applySlice]
    rw [show (s.samplePos.toNat + 20 * p.s + k) * s.channels.toNat =
      (s.samplePos.toNat + 20 * p.s + k) * (s.setLms p.c (decSlice (s.lms.get p.c) w p.len).2).channels.toNat from rfl]
    rw [writeSamples_inside p.c _ _ (s.setLms p.c _) k hC (by simpa using hk)]
    simp [hk]
  | _ => exact h.elim

/-- Consuming units writes exactly the locations its slices write. -/
theorem decodeUnits_pcmout (us : List (Nat × WirePos)) (s : State) (hC : 0 < s.channels.toNat) :
    (∀ i, (∀ u ∈ us, ¬ writesSample s u.2 i) →
      Memory.read (decodeUnits us s).pcmout i = Memory.read s.pcmout i) ∧
    (∀ i, (∃ u ∈ us, writesSample s u.2 i) → (Memory.read (decodeUnits us s).pcmout i).isSome = true) := by
  induction us generalizing s with
  | nil => exact ⟨fun _ _ => rfl, by rintro i ⟨u, hu, _⟩; cases hu⟩
  | cons u us ih =>
    have hf := applyWord_frame u.2 (s.bsinWord u.1) s
    have hidx : ∀ p i, writesSample (applyWord u.2 (s.bsinWord u.1) s) p i ↔ writesSample s p i := by
      intro p i; rw [hf]; cases p <;> rfl
    obtain ⟨h1, h2⟩ := ih (applyWord u.2 (s.bsinWord u.1) s) (by rw [hf]; exact hC)
    rw [decodeUnits_cons]
    constructor
    · intro i hi
      rw [h1 i (fun v hv => by rw [hidx]; exact hi v (by simp [hv])),
        applyWord_pcmout_outside _ _ _ _ (hi u (by simp))]
    · rintro i ⟨v, hv, hvi⟩
      by_cases hr : ∃ v ∈ us, writesSample s v.2 i
      · obtain ⟨v, hv, hvi⟩ := hr; exact h2 i ⟨v, hv, (hidx _ _).mpr hvi⟩
      · rw [h1 i (fun v hv => by rw [hidx]; exact fun h => hr ⟨v, hv, h⟩)]
        rcases List.mem_cons.mp hv with rfl | hv
        · exact applyWord_pcmout_inside _ _ _ _ hvi hC
        · exact absurd ⟨v, hv, hvi⟩ hr

/-- The locations a frame of `n` samples per channel writes are those from `SAMPLE_POS·C` up to
`(SAMPLE_POS + n)·C`. -/
theorem frameUnits_writes (s : State) (n : Nat) (hC : 0 < s.channels.toNat) (h8 : s.channels.toNat ≤ 8) (i : Nat) :
    (∃ u ∈ frameUnits s.bsinPos.toNat s.channels.toNat n, writesSample s u.2 i) ↔
      s.samplePos.toNat * s.channels.toNat ≤ i ∧ i < (s.samplePos.toNat + n) * s.channels.toNat := by
  set C := s.channels.toNat with hCd
  constructor
  · rintro ⟨u, hu, hi⟩
    simp only [frameUnits, List.mem_append, List.mem_flatMap, List.mem_map, List.mem_cons, List.not_mem_nil,
      or_false] at hu
    rcases hu with ⟨c, _, rfl | rfl⟩ | ⟨p, hp, rfl⟩
    · exact hi.elim
    · exact hi.elim
    · obtain ⟨k, hk, rfl⟩ := hi
      obtain ⟨h1, h2, h3⟩ := mem_slicePositions.mp hp
      rw [h3] at hk
      have e1 : s.samplePos.toNat * C ≤ (s.samplePos.toNat + 20 * p.s + k) * C := Nat.mul_le_mul_right _ (by omega)
      have e2 : (s.samplePos.toNat + 20 * p.s + k + 1) * C ≤ (s.samplePos.toNat + n) * C :=
        Nat.mul_le_mul_right _ (by omega)
      rw [Nat.add_mul _ 1] at e2
      rw [← hCd]; omega
  · rintro ⟨h1, h2⟩
    have hq : s.samplePos.toNat ≤ i / C := by rw [Nat.le_div_iff_mul_le hC]; exact h1
    have hq2 : i / C < s.samplePos.toNat + n := by rw [Nat.div_lt_iff_lt_mul hC]; exact h2
    obtain ⟨d, hd⟩ : ∃ d, i / C = s.samplePos.toNat + d := ⟨i / C - s.samplePos.toNat, by omega⟩
    have hc : i % C < 8 := Nat.lt_of_lt_of_le (Nat.mod_lt _ hC) h8
    refine ⟨(s.bsinPos.toNat + 8 + 16 * C + 8 * (d / 20 * C + i % C),
      .slice ⟨d / 20, ⟨i % C, hc⟩, min 20 (n - 20 * (d / 20))⟩), ?_, ?_⟩
    · simp only [frameUnits, List.mem_append, List.mem_map]
      right
      refine ⟨⟨d / 20, ⟨i % C, hc⟩, min 20 (n - 20 * (d / 20))⟩,
        mem_slicePositions.mpr ⟨?_, Nat.mod_lt _ hC, rfl⟩, rfl⟩
      simp only [ceilDiv]; omega
    · refine ⟨d % 20, by show d % 20 < min 20 (n - 20 * (d / 20)); omega, ?_⟩
      show i = (s.samplePos.toNat + 20 * (d / 20) + d % 20) * s.channels.toNat + i % C
      rw [← hCd, show s.samplePos.toNat + 20 * (d / 20) + d % 20 = i / C by omega]
      have := Nat.div_add_mod i C
      rw [Nat.mul_comm] at this; omega

/-- A channel no unit names keeps its registers. -/
theorem decodeUnits_lms_other (us : List (Nat × WirePos)) (c : Fin 8)
    (hus : ∀ u ∈ us, u.2 ≠ .history c ∧ u.2 ≠ .weights c ∧ ∀ p, u.2 = .slice p → p.c ≠ c) (s : State) :
    (decodeUnits us s).lms.get c = s.lms.get c := by
  induction us generalizing s with
  | nil => rfl
  | cons u us ih =>
    rw [decodeUnits_cons, ih (fun v hv => hus v (by simp [hv]))]
    obtain ⟨h1, h2, h3⟩ := hus u (by simp)
    rcases u with ⟨a, p⟩
    cases p with
    | fileHeader => rfl
    | frameHeader => rfl
    | history d =>
      simp only [applyWord, loadHistory, State.setLms]
      rw [Bank.get_set_other]; rintro rfl; exact h1 rfl
    | weights d =>
      simp only [applyWord, loadWeights, State.setLms]
      rw [Bank.get_set_other]; rintro rfl; exact h2 rfl
    | slice p =>
      simp only [applyWord, applySlice]; rw [writeSamples_frame]
      simp only [State.setLms]
      rw [Bank.get_set_other]; exact fun h => h3 p rfl h.symm

/-- A frame touches the channels of the stream alone. -/
theorem frameUnits_other_channel {base channels n : Nat} {c : Fin 8} (hc : channels ≤ c.val) :
    ∀ u ∈ frameUnits base channels n,
      u.2 ≠ WirePos.history c ∧ u.2 ≠ WirePos.weights c ∧ ∀ p, u.2 = WirePos.slice p → p.c ≠ c := by
  intro u hu
  simp only [frameUnits, List.mem_append, List.mem_flatMap, List.mem_map, List.mem_cons, List.not_mem_nil, or_false,
    mem_channelList] at hu
  rcases hu with ⟨d, hd, rfl | rfl⟩ | ⟨p, hp, rfl⟩
  · refine ⟨?_, by simp, by simp⟩; intro h; simp only [WirePos.history.injEq] at h; subst h; omega
  · refine ⟨by simp, ?_, by simp⟩; intro h; simp only [WirePos.weights.injEq] at h; subst h; omega
  · refine ⟨by simp, by simp, ?_⟩
    intro q hq; simp only [WirePos.slice.injEq] at hq; subst hq; rintro rfl
    have := (mem_slicePositions.mp hp).2.1; omega

end Sys2Proof.Machine
end

