-- ==== Sys2Proof/Tests/Slice0.lean ====
section
/-! SUPPORT. Tests of one word or one step each, their expected results from spec/95_test_vectors.md unless a comment says
otherwise, and for every obligation with hypotheses a named witness that meets them. -/

open Sys2Proof Sys2Proof.Machine Sys2Proof.Claims

namespace Sys2Proof.Tests

/-! ## Helpers -/

/-- The state an instruction leaves when it runs with these operands. -/
def run (i : Instr) (arg : List Int) (s : State) : Option State :=
  match exec i { s with arg := arg } with
  | .next t => some t
  | _ => none

/-- What it returns. -/
def results (i : Instr) (arg : List Int) (s : State) : Option (List Int) := (run i arg s).map (·.res)

/-- The eight LMS values of a channel, history first. -/
def taps (l : Lms) : List Int := ints l.h ++ ints l.w

/-- The state a step leaves. -/
def next (s : State) : Option State :=
  match step s with
  | .next t => some t
  | _ => none

/-- `RDREG STATUS` after a step on a command word with these operands. -/
def statusAfter (w : CommandWord) (arg : List Int) (s : State) : Option Nat :=
  (next { s with pending := [.command w arg] }).map (·.statusWord.toNat)

/-- Power-on with channel 0's registers loaded. -/
def loaded (h w : List Int) : State :=
  let q (v : List Int) : Quad Sample :=
    ⟨BitVec.ofInt 16 (v.getD 0 0), BitVec.ofInt 16 (v.getD 1 0), BitVec.ofInt 16 (v.getD 2 0), BitVec.ofInt 16 (v.getD 3 0)⟩
  State.reset.setLms 0 ⟨q h, q w⟩

/-- Program P1 before `ENC.OPEN`. -/
def filled : State := { State.reset with pcmin := Memory.ofList [1000, BitVec.ofInt 16 (-1000), 500] }

/-- Program P1 after `ENC.OPEN : 8000, 1, 3, 3`. -/
def encoding : State :=
  { filled with
    channels := 1, sampleRate := 8000, samples := 3, pcminLen := 3, outTotal := 40, bsoutPos := 8
    bsout := Memory.ofList [0x71, 0x6f, 0x61, 0x66, 0, 0, 0, 3], mode := .enc, phase := .needFrame }

/-- The 40 bytes program P1 writes, with the bytes 8 to 15 of the frame header given. -/
def stream (header : List Byte) : List Byte :=
  [0x71, 0x6f, 0x61, 0x66, 0, 0, 0, 3] ++ header ++
  [0, 0, 0, 0, 0, 0, 0, 0, 0, 0, 0, 0, 0xe0, 0, 0x40, 0, 0x85, 0xf0, 0, 0, 0, 0, 0, 0]

/-- P1's frame header. -/
def goodHeader : List Byte := [1, 0, 0x1f, 0x40, 0, 3, 0, 0x20]

/-- Program P2 before `DEC.OPEN`. -/
def received : State := { State.reset with bsin := Memory.ofList (stream goodHeader) }

/-- Program P2 after `DEC.OPEN : 40`, over a stream with this frame header. -/
def decodingOf (header : List Byte) : State :=
  { State.reset with
    bsin := Memory.ofList (stream header), channels := 1, sampleRate := 8000, samples := 3, bsinLen := 40, bsinPos := 8
    mode := .dec, phase := .needFrame }

def decoding : State := decodingOf goodHeader

/-- A state in the error phase, as `IllegalCommand(1)` leaves power-on. -/
def faulted : State := State.reset.raise (illegal 1)

/-! ## Ill-formed terms are refused -/

theorem smoke_channel : [Instr.lmsLoad 8, .lmsStore 8, .lmsPredict 15, .lmsUpdate 8, .decSlice 8 1, .encTrial 8 0 1,
    .encSlice 8 1].all (fun i => !i.wellFormed) = true := by decide
theorem smoke_length : [Instr.decSlice 0 0, .decSlice 0 21, .encTrial 0 0 0, .encTrial 0 0 21, .encSlice 0 0,
    .encSlice 0 21].all (fun i => !i.wellFormed) = true := by decide
theorem smoke_register_number : [Instr.rdreg 0x0B, .rdreg 0x0F, .rdreg 0x18].all (fun i => !i.wellFormed) = true := by
  decide
theorem smoke_table_index : [Instr.tblQuant 17, .tblDequant 0 8].all (fun i => !i.wellFormed) = true := by decide
theorem smoke_headers : [Instr.fileHeader 0, .frameHeader .peek 0 1 0 0, .frameHeader .frame 9 1 0 0,
    .frameHeader .frame 1 0 0 0].all (fun i => !i.wellFormed) = true := by decide
theorem smoke_slice_place : [Instr.slice ⟨0, 0, 0⟩ 0 0, .slice ⟨0, 0, 21⟩ 0 0, .slice ⟨3276, 0, 16⟩ 0 0].all
    (fun i => !i.wellFormed) = true := by decide
theorem smoke_boundary_terms_pass : [Instr.lmsLoad 7, .decSlice 7 20, .encTrial 7 15 1, .rdreg 0x0A, .rdreg 0x17, .tblQuant 16,
    .tblDequant 15 7, .fileHeader 1, .frameHeader .frame 8 1 0 0, .slice ⟨3276, 7, 15⟩ 0 0].all Instr.wellFormed = true := by
  decide

/-! ## Decoding words written out from the encoding tables (2.1; for the wire words P1 and 2.11) -/

theorem test_decode_nop : decodeTableWord 32 0x00000000 = some .nop := by decide
theorem test_decode_rdreg : decodeTableWord 32 0x01000009 = some (.rdreg 9) := by decide
theorem test_decode_fnClamp : decodeTableWord 32 0x10000000 = some .fnClamp := by decide
theorem test_decode_fnClamps16 : decodeTableWord 32 0x11000000 = some .fnClamps16 := by decide
theorem test_decode_fnDivide : decodeTableWord 32 0x12010000 = some (.fnDivide 1) := by decide
theorem test_decode_tblRecip : decodeTableWord 32 0x18070000 = some (.tblRecip 7) := by decide
theorem test_decode_tblQuant : decodeTableWord 32 0x19000010 = some (.tblQuant 16) := by decide
theorem test_decode_tblDequant : decodeTableWord 32 0x1a0f0007 = some (.tblDequant 15 7) := by decide
theorem test_decode_lmsInit : decodeTableWord 32 0x20000000 = some .lmsInit := by decide
theorem test_decode_lmsLoad : decodeTableWord 32 0x21100000 = some (.lmsLoad 1) := by decide
theorem test_decode_lmsStore : decodeTableWord 32 0x22000000 = some (.lmsStore 0) := by decide
/-- Channel 5 in bits 23..20 (R71), which the table's word leaves 0. -/
theorem test_decode_lmsPredict : decodeTableWord 32 0x23500000 = some (.lmsPredict 5) := by decide
theorem test_decode_lmsUpdate : decodeTableWord 32 0x24000000 = some (.lmsUpdate 0) := by decide
theorem test_decode_decSlice : decodeTableWord 32 0x30000014 = some (.decSlice 0 20) := by decide
theorem test_decode_encTrial : decodeTableWord 32 0x31070003 = some (.encTrial 0 7 3) := by decide
theorem test_decode_encSlice : decodeTableWord 32 0x32700014 = some (.encSlice 7 20) := by decide
theorem test_decode_encOpen : decodeTableWord 32 0x40000000 = some .encOpen := by decide
theorem test_decode_encFrame : decodeTableWord 32 0x41000000 = some .encFrame := by decide
theorem test_decode_decOpen : decodeTableWord 32 0x48000000 = some .decOpen := by decide
theorem test_decode_decFrame : decodeTableWord 32 0x49000000 = some .decFrame := by decide
theorem test_decode_fileHeader : decodeTableWord 64 0x716f616600000003 = some (.fileHeader 3) := by decide
theorem test_decode_frameHeader :
    decodeWire (.frameHeader .frame) 0x02_00ac44_0019_0048 = .ok (.frameHeader .frame 2 44100 25 72) := by decide
theorem test_decode_lmsHistory :
    decodeWire (.history 0) 0x00c400de00f50159 = .ok (.lmsHistory 0 196 222 245 345) := by decide
theorem test_decode_lmsWeights : decodeWire (.weights 0) 0xff6c0474f0f228ec =
    .ok (.lmsWeights 0 (BitVec.ofInt 16 (-148)) 1140 (BitVec.ofInt 16 (-3854)) 10476) := by decide
/-- S1's word: `sf = 8`, then `q = 2, 7, 6` from bit 59 down. -/
theorem test_decode_slice : decodeWire (.slice ⟨0, 0, 3⟩) 0x85f0000000000000 = .ok (.slice ⟨0, 0, 3⟩ 8 0x5f0000000000000) ∧
    (List.range 4).map (fun k => (sliceQ 0x85f0000000000000 k).toNat) = [2, 7, 6, 0] := by decide
theorem test_decode_rejects : decodeCommand 0x02000000 = .error .reservedOp ∧ decodeCommand 0xff000000 = .error .reservedOp ∧
    decodeCommand 0x00000001 = .error .unusedField ∧ decodeCommand 0x01100000 = .error .unusedField ∧
    decodeWire .fileHeader 0 = .error .badMagic := by decide

/-! ## Primitives and tables (2.2 to 2.4) -/

theorem test_fnClamp : results .fnClamp [-9, -8, 8] State.reset = some [-8] ∧
    results .fnClamp [557039, -8, 8] State.reset = some [8] := by decide
theorem test_fnClamp_bounds_crossed : results .fnClamp [5, 8, -8] State.reset = some [8] ∧
    results .fnClamp [9, 8, -8] State.reset = some [-8] := by decide
theorem test_fnClamps16 : results .fnClamps16 [32768] State.reset = some [32767] ∧
    results .fnClamps16 [-32769] State.reset = some [-32768] := by decide
theorem test_fnDivide : results (.fnDivide 1) [-3] State.reset = some [-1] ∧
    results (.fnDivide 1) [-4] State.reset = some [-1] ∧ results (.fnDivide 1) [3] State.reset = some [0] := by decide
theorem test_fnDivide_largest : results (.fnDivide 15) [-1024] State.reset = some [-1] ∧
    results (.fnDivide 15) [32767] State.reset = some [16] ∧ results (.fnDivide 0) [-557056] State.reset = some [-557056] := by
  decide
theorem test_tblRecip : results (.tblRecip 15) [] State.reset = some [32] := by decide
theorem test_tblQuant : results (.tblQuant 7) [] State.reset = some [1] ∧
    results (.tblQuant 16) [] State.reset = some [6] := by decide
theorem test_tblDequant : results (.tblDequant 8 7) [] State.reset = some [-2947] := by decide
theorem test_quantIndex : quantIndex 11 1 = 2 ∧ quantIndex (-3) 1 = 1 ∧ quantIndex 53 1 = 6 ∧
    quantIndex (-16384) 15 = 7 := by decide

/-! ## The predictor (2.5 to 2.7) -/

theorem test_lmsInit : (run .lmsInit [] (loaded [1, 2, 3, 4] [5, 6, 7, 8])).map (fun t => taps t.lms.c0) =
    some [0, 0, 0, 0, 0, 0, -8192, 16384] := by decide
theorem test_lmsLoad : (run (.lmsLoad 2) [0xffffffffffffffff, 0x8000800080008000] State.reset).map
    (fun t => (taps t.lms.c2, taps t.lms.c3)) =
    some ([-1, -1, -1, -1, -32768, -32768, -32768, -32768], [0, 0, 0, 0, 0, 0, -8192, 16384]) := by decide
theorem test_lmsStore : results (.lmsStore 7) [] State.reset = some [0, 0x00000000e0004000] := by decide
theorem test_lmsPredict : results (.lmsPredict 0) [] (loaded [0, 0, 1000, 2000] [0, 0, -8192, 16384]) = some [3000] ∧
    results (.lmsPredict 0) [] (loaded [0, 0, 0, 1] [0, 0, 0, -1]) = some [-1] := by decide
theorem test_lmsPredict_extremes :
    results (.lmsPredict 0) [] (loaded [-32768, -32768, -32768, -32768] [-32768, -32768, -32768, -32768]) = some [524288] ∧
    results (.lmsPredict 0) [] (loaded [-32768, -32768, -32768, -32768] [32767, 32767, 32767, 32767]) = some [-524272] := by
  decide
/-- A history value 0 counts as non-negative, and `delta` is a floor. -/
theorem test_lmsUpdate : (run (.lmsUpdate 0) [-7, -17] (loaded [5, -5, 0, -5] [1, 2, 3, 4])).map
    (fun t => taps t.lms.c0) = some [-5, 0, -5, -7, -1, 4, 1, 6] := by decide
theorem test_lmsUpdate_wraps :
    (run (.lmsUpdate 0) [32767, 14336] (loaded [1, -1, 1, -1] [32767, -32768, 0, 0])).map (fun t => taps t.lms.c0) =
    some [-1, 1, -1, 32767, -31873, 31872, 896, -896] := by decide

/-! ## Slices (2.8 to 2.11) -/

theorem test_weightsPenalty : weightsPenalty Lms.seed = 0 ∧
    weightsPenalty ⟨⟨0, 0, 0, 0⟩, ⟨12288, 12288, 12288, 12288⟩⟩ = 1 ∧
    weightsPenalty ⟨⟨0, 0, 0, 0⟩, ⟨12287, 12288, 12288, 12288⟩⟩ = 0 := by decide
theorem test_encTrial : results (.encTrial 0 7 3) [1000, -1000, 500] State.reset =
    some [0x75f0000000000000, 331380, 331380, 0x000002f8fda4009e, 0x002f002fe02f3f25] := by decide
/-- Vector T4: the largest penalty. -/
theorem test_encTrial_penalty : (results (.encTrial 0 0 1) [-32768]
    (loaded [-32768, -32768, -32768, -32768] [-32768, -32768, -32768, -32768])).map (·.take 3) =
    some [0x0e00000000000000, 4294836225, 4493110786] := by decide
theorem test_decSlice : results (.decSlice 0 3) [0x85f0000000000000] State.reset = some [1053, -833, 224] := by
  decide
/-- Vector D4: a partial slice, whose low bits are not read. -/
theorem test_decSlice_partial : (run (.decSlice 0 5) [0xf000000000000fff] State.reset).map
    (fun t => (t.res, taps t.lms.c0)) =
    some ([1536, 4626, 9396, 16248, 26126], [4626, 9396, 16248, 26126, 480, 480, -7712, 16864]) := by decide
/-- Vector S2: the trials start at `PREV_SF`. -/
theorem test_encSlice : (run (.encSlice 0 3) [1000, -1000, 500] { State.reset with prevSf := allChannels 9 }).map
    (fun t => (t.res, taps t.lms.c0, t.prevSf.c0.toNat, t.errorCount.toNat)) =
    some ([0x85f0000000000000, 8, 106874], [0, 1053, -833, 224, 64, 64, -8128, 16080], 8, 106874) := by decide
/-- Vector SP: the two metrics differ. -/
theorem test_encSlice_metrics :
    let s := loaded [100, -100, 100, -100] [20000, -20000, 0, 0]
    results (.encSlice 0 3) [0, 0, 0] s = some [0x6698000000000000, 6, 4964] ∧
    results (.encSlice 0 3) [0, 0, 0] { s with params := ⟨.errorVsRank⟩ } = some [0xf208000000000000, 15, 3232532] := by
  decide

/-! ## Streams (1.1, P1, P2, P5) -/

/-- Scenario A. -/
theorem test_encOpen : (run .encOpen [44100, 2, 88200, 176400] State.reset).map
    (fun t => (bsoutWord t 0, t.outTotal.toNat, t.statusWord.toNat)) = some (some 0x716f616600015888, 71288, 5) := by
  decide
theorem test_encOpen_is_P1 : run .encOpen [8000, 1, 3, 3] filled = some { encoding with arg := [8000, 1, 3, 3] } := by
  decide
theorem test_encFrame : (run .encFrame [] encoding).map (fun t => ([8, 16, 24, 32].map (bsoutWord t), t.bsoutPos.toNat)) =
    some ([some 0x01001f4000030020, some 0, some 0x00000000e0004000, some 0x85f0000000000000], 40) := by decide +kernel
theorem test_encFrame_registers : (run .encFrame [] encoding).map
    (fun t => (t.statusWord.toNat, t.samplePos.toNat, t.errorCount.toNat, t.prevSf.c0.toNat, taps t.lms.c0)) =
    some (6, 3, 106874, 8, [0, 1053, -833, 224, 64, 64, -8128, 16080]) := by decide
theorem test_decOpen_is_P2 : run .decOpen [40] received = some { decoding with arg := [40] } := by decide
/-- Scenario B. -/
theorem test_decOpen : (run .decOpen [16] { State.reset with
      bsin := Memory.ofList [0x71, 0x6f, 0x61, 0x66, 0, 0, 0, 1, 1, 2, 3, 4, 5, 6, 7, 8] }).map
    (fun t => (t.samples.toNat, t.channels.toNat, t.sampleRate.toNat)) = some (1, 1, 131844) := by decide
theorem test_decFrame : (run .decFrame [] decoding).map
    (fun t => ((List.range 4).map (fun i => (Memory.read t.pcmout i).map BitVec.toInt), t.statusWord.toNat, t.bsinPos.toNat,
      t.samplePos.toNat)) = some ([some 1053, some (-833), some 224, none], 0xa, 40, 3) := by decide
/-- P5, the row with `fsamples` 0: no sample, the registers loaded, the phase stays. -/
theorem test_decFrame_empty : (run .decFrame [] (decodingOf [1, 0, 0x1f, 0x40, 0, 0, 0, 0x20])).map
    (fun t => (t.pcmout, t.bsinPos.toNat, t.phase)) = some ([], 32, .needFrame) := by decide
theorem test_rdreg : results (.rdreg 0) [] encoding = some [5] ∧ results (.rdreg 0x0A) [] encoding = some [40] := by
  decide
theorem test_nop : run .nop [] encoding = some encoding := by decide

/-! ## Wire words, from P1's bytes and R172 -/

theorem test_fileHeader : (run (.fileHeader 3) [] State.reset).map (·.samples.toNat) = some 3 ∧
    (run (.fileHeader 0) [] State.reset).map (·.statusWord.toNat) = some 0x033 := by decide
theorem test_frameHeader : (run (.frameHeader .peek 9 8000 0 0) [] State.reset).map (·.statusWord.toNat) = some 0x343 ∧
    run (.frameHeader .frame 1 8000 3 32) [] decoding = some decoding := by decide
theorem test_lmsHistory : (run (.lmsHistory 0 1 2 3 4) [] decoding).map (fun t => taps t.lms.c0) =
    some [1, 2, 3, 4, 0, 0, -8192, 16384] := by decide
theorem test_lmsWeights : (run (.lmsWeights 0 1 2 3 4) [] decoding).map (fun t => taps t.lms.c0) =
    some [0, 0, 0, 0, 1, 2, 3, 4] := by decide
theorem test_slice : (run (.slice ⟨0, 0, 3⟩ 8 0x5f0000000000000) [] decoding).map
    (fun t => ((List.range 4).map (fun i => (Memory.read t.pcmout i).map BitVec.toInt), taps t.lms.c0)) =
    some ([some 1053, some (-833), some 224, none], [0, 1053, -833, 224, 64, 64, -8128, 16080]) := by decide

/-! ## Errors and `RESET` (2.1, P5, R34) -/

theorem test_illegal_words : statusAfter 0x02000000 [] State.reset = some 0x1f3 ∧
    statusAfter 0x00000001 [] State.reset = some 0x2f3 ∧ statusAfter 0x21800000 [0, 0] State.reset = some 0x3f3 ∧
    statusAfter 0x30000015 [0] State.reset = some 0x4f3 ∧ statusAfter 0x0100000b [] State.reset = some 0x4f3 ∧
    statusAfter 0x24000000 [32768, 0] State.reset = some 0x5f3 ∧ statusAfter 0x49000000 [] State.reset = some 0x6f3 := by
  decide
theorem test_stream_errors : statusAfter 0x48000000 [15] received = some 0x013 ∧
    statusAfter 0x48000000 [16] { State.reset with bsin := Memory.ofList (List.replicate 16 0) } = some 0x023 := by
  decide
/-- P5: byte 8 set to 2; and from R171 (2), a channel count that is not the stream's. -/
theorem test_frame_errors : statusAfter 0x49000000 [] { decoding with channels := 2 } = some 0x05b ∧
    statusAfter 0x49000000 [] (decodingOf [2, 0, 0x1f, 0x40, 0, 3, 0, 0x20]) = some 0x16b := by decide
theorem test_error_phase : statusAfter 0x20000000 [] faulted = some 0x1f3 ∧ statusAfter 0xff000000 [] faulted = some 0x1f3 ∧
    (next { faulted with pending := [.reset] }).map (·.statusWord.toNat) = some 0 := by decide
theorem test_withFetchWord : step (State.reset.withFetchWord 32 0x12010000) = exec (.fnDivide 1) { State.reset with arg := [0] } ∧
    (next (State.reset.withFetchWord 64 0x716f616600000003)).map (·.statusWord.toNat) = some 0x143 := by
  refine ⟨rfl, by decide⟩

/-! ## Host programs (P1, P2, R194 to R196) -/

/-- The result of a host program. -/
def answer {α : Type} (r : HostAnswer α) : Option (Except (BitVec 4) α) :=
  match r with
  | .next run => some run.result
  | _ => none

theorem test_hostEncode : answer (hostEncode 8000 1 3 [1000, BitVec.ofInt 16 (-1000), 500] State.reset) =
    some (.ok ((stream goodHeader).map some)) := by decide +kernel
theorem test_hostEncode_error : answer (hostEncode 8000 1 3 [1000] State.reset) = some (.error 8) := by decide
theorem test_hostDecode : answer (hostDecode (stream goodHeader) State.reset) =
    some (.ok (⟨1, 8000, 3⟩, [some 1053, some (BitVec.ofInt 16 (-833)), some 224])) := by decide
/-- The error alone, of `DEC.OPEN` and of `DEC.FRAME`. -/
theorem test_hostDecode_error : answer (hostDecode [0x71] State.reset) = some (.error 1) ∧
    answer (hostDecode ((stream goodHeader).take 39) State.reset) = some (.error 6) := by decide
theorem test_hostDecodeHeader : answer (hostDecodeHeader (stream goodHeader) State.reset) = some (.ok ⟨1, 8000, 3⟩) ∧
    answer (hostDecodeHeader (List.replicate 16 0) State.reset) = some (.error 2) := by decide
/-- The samples of P2, which the encoder of P1 reconstructs. -/
theorem test_frameByCommands : (frameByCommands encoding).samples = [(0, 1053), (1, BitVec.ofInt 16 (-833)), (2, 224)] := by
  decide +kernel

/-! ## Witnesses: for each obligation with hypotheses, states and operands that meet them together -/

/-- P1's encode state keeps the registers' invariant. -/
theorem encoding_inv : encoding.Inv :=
  ⟨by decide, by decide, by decide, by decide, by decide, by decide⟩

/-- So does P2's decode state. -/
theorem decoding_inv : decoding.Inv :=
  ⟨by decide, by decide, by decide, by decide, by decide, by decide⟩

/-- P1's state at its one frame. -/
theorem witness_encode : encoding.Inv ∧ encoding.phase = .needFrame ∧ encoding.mode = .enc ∧ encoding.arg = [] :=
  ⟨encoding_inv, rfl, rfl, rfl⟩

theorem witness_EncFrameMovesTheCursors : ∃ s : State, s.Inv ∧ s.phase = .needFrame ∧ s.mode = .enc ∧ s.arg = [] :=
  ⟨encoding, witness_encode⟩

theorem witness_EncFrameWritesHeaderAndPrelude :
    ∃ s : State, (s.Inv ∧ s.phase = .needFrame ∧ s.mode = .enc ∧ s.arg = []) ∧ (0 : Fin 8).val < s.channels.toNat :=
  ⟨encoding, witness_encode, by decide⟩

theorem witness_EncFrameIsItsSlicesInOrder :
    ∃ (s : State) (w : Int), (s.Inv ∧ s.phase = .needFrame ∧ s.mode = .enc ∧ s.arg = []) ∧
      (frameByCommands s).words[0]? = some w :=
  ⟨encoding, 0x85f0000000000000, witness_encode, by decide⟩

theorem witness_EncodeOfDecodeIsTheWord : decode (.command 0x32700014) = .ok (.encSlice 7 20) := by decide

/-- An unmapped `op`, and a mapped one with `c`, `sf`, `imm` set that it does not use. -/
theorem witness_ReservedAndMalformedWordsRaise :
    ([0x02, 0x4A, 0xff].all fun op => decide (op ∉ mappedOps)) = true ∧
    (0x01 ∈ mappedOps ∧ 0x01 ∉ opsWithChannel) ∧ (0x20 ∈ mappedOps ∧ 0x20 ∉ opsWithScaleFactor) ∧
    (0x49 ∈ mappedOps ∧ 0x49 ∉ opsWithImmediate) ∧
    { State.reset with pending := [.command 0x49000001 []] }.pending = .command 0x49000001 [] :: [] ∧
    State.reset.phase ≠ .error := by decide

/-- Each of the five clauses, at the first value past a range or the last inside it. -/
theorem witness_FirstFailingTestGivesTheSubCause :
    ¬ channelLegal (.lmsLoad 8) ∧
    (channelLegal (.decSlice 7 21) ∧ ¬ immLegal (.decSlice 7 21)) ∧
    (channelLegal (.lmsUpdate 7) ∧ immLegal (.lmsUpdate 7) ∧ ¬ operandsLegal (.lmsUpdate 7) [32768, 0]) ∧
    (channelLegal .decFrame ∧ immLegal .decFrame ∧ operandsLegal .decFrame State.reset.arg ∧
      ¬ phaseAdmits .decFrame State.reset) ∧
    (channelLegal (.decSlice 7 20) ∧ immLegal (.decSlice 7 20) ∧ operandsLegal (.decSlice 7 20) [18446744073709551615] ∧
      phaseAdmits (.decSlice 7 20) State.reset) ∧
    (phaseAdmits .decFrame decoding ∧ phaseAdmits .encFrame encoding ∧ phaseAdmits .encOpen State.reset) := by
  have legal {i : Instr} (h : ∀ c, channelNumber i = some c → c ≤ 7) : channelLegal i := h
  refine ⟨fun h => absurd (h 8 rfl) (by decide), ⟨legal ?_, fun h => absurd h.2 (by decide)⟩, ⟨legal ?_, trivial, ?_⟩,
    ⟨legal ?_, trivial, rfl, fun h => absurd h.1 (by decide)⟩,
    ⟨legal ?_, ⟨by decide, by decide⟩, ⟨rfl, by simp [word64]⟩, trivial⟩, ⟨rfl, rfl⟩, ⟨rfl, rfl⟩, .inl rfl⟩
  · simp [channelNumber]
  · simp [channelNumber]
  · exact fun h => absurd (h.2 32768 (List.mem_cons_self ..)).2 (by decide)
  · simp [channelNumber]
  · simp [channelNumber]

/-- Positive, zero, negative rounding to −1, negative adjusted from 0 to −1. -/
theorem witness_DivideFollowsItsFourCases :
    (0 < (1 : Int)) ∧ ((-4 * recip 1 + 32768 : Int) / 65536 < 0) ∧ ((-3 * recip 1 + 32768 : Int) / 65536 = 0) := by decide

theorem witness_QuantizerKeepsTheSign : (-1 : Int) < 0 ∧ 0 ≤ (0 : Int) := by decide

theorem witness_FnOperationsReturnTheirValues :
    State.reset.phase ≠ .error ∧ int64 (-9223372036854775808) ∧ int64 9223372036854775807 ∧ int64 0 ∧
    (-2147483648 : Int) < -2147483647 ∧ (2147483647 : Int) < 2147483648 ∧
    { State.reset with arg := [0, -9223372036854775808, 9223372036854775807] }.arg =
      [0, -9223372036854775808, 9223372036854775807] := by
  simp [State.reset, int64]

theorem witness_TableOperationsReturnTheirEntries :
    State.reset.phase ≠ .error ∧ State.reset.arg = [] ∧ (16 : BitVec 16).toNat ≤ 16 ∧ (7 : BitVec 16).toNat ≤ 7 := by decide

theorem witness_LmsInitSeedsEveryChannel : State.reset.phase ≠ .error ∧ State.reset.arg = [] := by decide

theorem witness_LmsLoadReadsTheTwoWords :
    ∃ s : State, s.phase ≠ .error ∧ (7 : BitVec 4).toNat < 8 ∧ (18446744073709551615 : Nat) < 2 ^ 64 ∧ (0 : Nat) < 2 ^ 64 ∧
      s.arg = [((18446744073709551615 : Nat) : Int), ((0 : Nat) : Int)] :=
  ⟨{ State.reset with arg := [18446744073709551615, 0] }, by decide⟩

theorem witness_LmsStoreThenLoadIsIdentity :
    State.reset.phase ≠ .error ∧ (7 : BitVec 4).toNat < 8 ∧ State.reset.arg = [] := by decide

theorem witness_LmsPredictReturnsThePrediction :
    State.reset.phase ≠ .error ∧ (0 : BitVec 4).toNat < 8 ∧ State.reset.arg = [] := by decide

theorem witness_LmsUpdateStepsWeightsAndHistory :
    ∃ s : State, s.phase ≠ .error ∧ (7 : BitVec 4).toNat < 8 ∧ s.arg = [-32768, 32767] ∧ int16 (-32768) ∧ int16 32767 :=
  ⟨{ State.reset with arg := [-32768, 32767] }, by simp [State.reset, int16]⟩

theorem witness_SliceDecodesSampleBySample : (0 : Nat) < 20 ∧ (19 : Nat) < 20 := by decide

theorem witness_DecSliceCompletes :
    ∃ s : State, s.phase ≠ .error ∧ (7 : BitVec 4).toNat < 8 ∧ 1 ≤ (20 : BitVec 16).toNat ∧ (20 : BitVec 16).toNat ≤ 20 ∧
      (18446744073709551615 : Nat) < 2 ^ 64 ∧ s.arg = [((18446744073709551615 : Nat) : Int)] :=
  ⟨{ State.reset with arg := [18446744073709551615] }, by decide⟩

/-- Vector D4's two words. -/
theorem witness_UnusedSliceBitsAreIgnored :
    0xf000000000000000 / 2 ^ (60 - 3 * (5 : BitVec 16).toNat) = 0xf000000000000fff / 2 ^ (60 - 3 * (5 : BitVec 16).toNat) ∧
    (∃ t, exec (.decSlice 0 5) { State.reset with arg := [0xf000000000000000] } = .next t) ∧
    (∃ t, exec (.decSlice 0 5) { State.reset with arg := [0xf000000000000fff] } = .next t) :=
  ⟨by decide, ⟨_, rfl⟩, ⟨_, rfl⟩⟩

theorem witness_TrialAccumulatesErrorAndRank : (List.replicate 19 (0 : Sample)).length < 20 := by decide

theorem witness_TrialWordHoldsTheIndices :
    (List.replicate 20 (0 : Sample)).length ≤ 20 ∧
    (trialIndices 8 Lms.seed [1000, BitVec.ofInt 16 (-1000), 500])[2]? = some 6 := by decide

/-- The hypotheses of the statements about `ENC.TRIAL` and `ENC.SLICE`, at the longest slice and both bounds of a sample. -/
theorem witness_slice_samples :
    ∃ s : State, s.phase ≠ .error ∧ (7 : BitVec 4).toNat < 8 ∧ 1 ≤ (20 : BitVec 16).toNat ∧ (20 : BitVec 16).toNat ≤ 20 ∧
      s.arg.length = (20 : BitVec 16).toNat ∧ (∀ v ∈ s.arg, int16 v) ∧ -32768 ∈ s.arg ∧ 32767 ∈ s.arg :=
  ⟨{ State.reset with arg := List.replicate 10 (-32768) ++ List.replicate 10 32767 }, by
    simp [State.reset, int16, List.replicate]⟩

theorem witness_EncTrialWritesNoRegister :
    ∃ s : State, s.phase ≠ .error ∧ (0 : BitVec 4).toNat < 8 ∧ 1 ≤ (1 : BitVec 16).toNat ∧ (1 : BitVec 16).toNat ≤ 20 ∧
      s.arg.length = (1 : BitVec 16).toNat ∧ ∀ v ∈ s.arg, int16 v :=
  ⟨{ State.reset with arg := [-32768] }, by simp [State.reset, int16]⟩

theorem witness_DecSliceInvertsEncTrial :
    ∃ (s : State) (len : BitVec 16), s.phase ≠ .error ∧ (7 : BitVec 4).toNat < 8 ∧ 1 ≤ len.toNat ∧ len.toNat ≤ 20 ∧
      s.arg.length = len.toNat ∧ ∀ v ∈ s.arg, int16 v := by
  obtain ⟨s, h⟩ := witness_slice_samples
  exact ⟨s, 20, h.1, h.2.1, h.2.2.1, h.2.2.2.1, h.2.2.2.2.1, h.2.2.2.2.2.1⟩

theorem witness_EncSliceCommitsTheBestTrial :
    ∃ (s : State) (len : BitVec 16), s.phase ≠ .error ∧ (7 : BitVec 4).toNat < 8 ∧ 1 ≤ len.toNat ∧ len.toNat ≤ 20 ∧
      s.arg.length = len.toNat ∧ ∀ v ∈ s.arg, int16 v := witness_DecSliceInvertsEncTrial

theorem witness_SearchPicksFirstLeastRank : (List.replicate 20 (0 : Sample)).length ≤ 20 := by decide
theorem witness_LiteralMetricComparesErrorWithRank : (List.replicate 20 (0 : Sample)).length ≤ 20 := by decide

/-- Vector S1: no trial has a penalty. -/
theorem witness_MetricsAgreeWithoutPenalty : ∀ i < 16,
    (nthTrial Lms.seed 0 [1000, BitVec.ofInt 16 (-1000), 500] i).rank =
    (nthTrial Lms.seed 0 [1000, BitVec.ofInt 16 (-1000), 500] i).err := by decide

/-- A frame that passes the checks, and for each of the eight a frame whose first failing check it is, most of them one off
the bound (P5's rows, over P1's stream). -/
theorem witness_DecFrameRaisesFirstFailingCheck :
    (decoding.phase = .needFrame ∧ decoding.mode = .dec ∧ decoding.arg = []) ∧ frameError decoding = none ∧
    frameError { decoding with bsinLen := 31 } = some ⟨.frameTooSmall, 0⟩ ∧
    frameError (decodingOf [2, 0, 0x1f, 0x40, 0, 3, 0, 0x20]) = some ⟨.invalidFrame, 1⟩ ∧
    frameError (decodingOf [1, 0, 0x1f, 0x41, 0, 3, 0, 0x20]) = some ⟨.invalidFrame, 2⟩ ∧
    frameError { decoding with bsinLen := 39 } = some ⟨.invalidFrame, 3⟩ ∧
    frameError (decodingOf [1, 0, 0x1f, 0x40, 0, 3, 0, 0x17]) = some ⟨.invalidFrame, 4⟩ ∧
    frameError (decodingOf [1, 0, 0x1f, 0x40, 0, 21, 0, 0x20]) = some ⟨.invalidFrame, 5⟩ ∧
    frameError (decodingOf [1, 0, 0x1f, 0x40, 0, 4, 0, 0x20]) = some ⟨.invalidFrame, 6⟩ := by decide

/-- P5's row of 72 bytes: the eighth check alone fails. -/
theorem witness_DecFrameRaisesFirstFailingCheck_last :
    frameError { decoding with
      bsin := Memory.ofList ([0x71, 0x6f, 0x61, 0x66, 0, 0, 0, 0x1e, 2, 0, 0x1f, 0x40, 0, 0x1e, 0, 0x40] ++ List.replicate 56 0)
      channels := 2, samples := 30, bsinLen := 72 } = some ⟨.invalidFrame, 7⟩ := by decide

/-- P2's frame ends the decode; the same frame with `fsamples` 0 leaves it running. -/
theorem witness_DecFrameMovesTheCursors :
    (decoding.phase = .needFrame ∧ decoding.mode = .dec ∧ decoding.arg = [] ∧ decoding.channels.toNat ≤ 8 ∧
      frameError decoding = none) ∧
    frameError (decodingOf [1, 0, 0x1f, 0x40, 0, 0, 0, 0x20]) = none := by decide

theorem witness_DecFrameIsItsWireWordsInOrder :
    decoding.phase = .needFrame ∧ decoding.mode = .dec ∧ decoding.arg = [] ∧ frameError decoding = none := by decide

theorem witness_DecFrameForgetsEarlierRegisters :
    decoding.phase = .needFrame ∧ decoding.mode = .dec ∧ decoding.arg = [] ∧ frameError decoding = none := by decide

/-- P1's encode and P2's decode. -/
theorem witness_DecFrameFollowsEncFrame :
    ∃ s u t : State, (s.Inv ∧ s.phase = .needFrame ∧ s.mode = .enc ∧ s.arg = []) ∧
      (u.phase = .needFrame ∧ u.mode = .dec ∧ u.arg = [] ∧ u.channels = s.channels ∧ u.sampleRate = s.sampleRate ∧
        u.samples = s.samples ∧ u.samplePos = s.samplePos) ∧
      exec .encFrame s = .next t ∧
      (∀ k, k < t.bsoutPos.toNat - s.bsoutPos.toNat →
        Memory.read u.bsin (u.bsinPos.toNat + k) = Memory.read t.bsout (s.bsoutPos.toNat + k)) ∧
      u.bsinPos.toNat + (t.bsoutPos.toNat - s.bsoutPos.toNat) ≤ u.bsinLen.toNat ∧
      (2, 224) ∈ (frameByCommands s).samples ∧
      s.samplePos.toNat * s.channels.toNat ≤ 2 ∧ 2 < t.samplePos.toNat * s.channels.toNat := by
  have h : run .encFrame [] encoding = some ((run .encFrame [] encoding).getD encoding) := by decide
  refine ⟨encoding, decoding, (run .encFrame [] encoding).getD encoding, witness_encode, by decide, ?_,
    by decide, by decide, by rw [test_frameByCommands]; decide, by decide, by decide⟩
  have e : run .encFrame [] encoding = (match exec .encFrame encoding with | .next t => some t | _ => none) := rfl
  revert h
  generalize (run .encFrame [] encoding).getD encoding = t
  rw [e]
  cases exec .encFrame encoding with
  | next t' => intro h; simpa using h
  | fault f => intro h; simp at h
  | refused f => intro h; simp at h

/-- Legal parameters at every upper bound, and for each check parameters one off the bound. -/
theorem witness_EncOpenStartsAnEncode :
    { State.reset with arg := [16777215, 8, 4294967295, 34359738360] }.arg = [16777215, 8, 4294967295, 34359738360] ∧
    word64 34359738360 ∧ word64 0 ∧
    parameterError 16777215 8 4294967295 34359738360 = none ∧
    parameterError 16777215 9 4294967295 34359738360 = some ⟨.invalidParameters, 1⟩ ∧
    parameterError 0 8 4294967295 34359738360 = some ⟨.invalidParameters, 2⟩ ∧
    parameterError 16777215 8 4294967296 34359738360 = some ⟨.invalidParameters, 3⟩ ∧
    parameterError 16777215 8 4294967295 34359738359 = some ⟨.sampleCountMismatch, 0⟩ := by
  simp [word64, parameterError]

/-- P2's bytes, and for each check of `DEC.OPEN` bytes whose first failing check it is (P5's rows). -/
theorem witness_DecOpenStartsADecode :
    let s (bytes : List Byte) : State := { State.reset with bsin := Memory.ofList bytes, arg := [16] }
    (s []).phase = .needHeader ∧ (s []).arg = [((16 : Nat) : Int)] ∧ streamError received 40 = none ∧
    streamError received 15 = some ⟨.fileTooSmall, 0⟩ ∧
    streamError (s (List.replicate 16 0)) 16 = some ⟨.badMagic, 0⟩ ∧
    streamError (s ([0x71, 0x6f, 0x61, 0x66, 0, 0, 0, 0] ++ List.replicate 8 0)) 16 = some ⟨.noSamples, 0⟩ ∧
    streamError (s ([0x71, 0x6f, 0x61, 0x66, 0, 0, 0, 1, 0, 0, 0, 0] ++ List.replicate 4 0)) 16 =
      some ⟨.invalidStreamHeader, 1⟩ ∧
    streamError (s ([0x71, 0x6f, 0x61, 0x66, 0, 0, 0, 1, 1, 0, 0, 0] ++ List.replicate 4 0)) 16 =
      some ⟨.invalidStreamHeader, 2⟩ ∧
    streamError (s ([0x71, 0x6f, 0x61, 0x66, 0, 0, 0, 1, 9, 0, 0x1f, 0x40] ++ List.replicate 4 0)) 16 =
      some ⟨.invalidStreamHeader, 3⟩ := by decide

/-- P1's parameters, and P2's bytes for the decoder. -/
theorem witness_HeaderRoundTrip :
    ∃ s u : State, s.phase = .needHeader ∧ s.arg = [8000, 1, 3, 3] ∧ word64 8000 ∧ word64 1 ∧ word64 3 ∧
      parameterError 8000 1 3 3 = none ∧ u.phase = .needHeader ∧ u.arg = [((40 : Nat) : Int)] ∧
      ∃ t1 t2, run .encOpen s.arg s = some t1 ∧ run .encFrame [] t1 = some t2 ∧
        (∀ a, a < 16 → Memory.read u.bsin a = Memory.read t2.bsout a) ∧
        (stream goodHeader).length < 2 ^ 64 ∧ ∀ a, a < 16 → (stream goodHeader)[a]? = Memory.read t2.bsout a := by
  have h : (run .encFrame [] encoding).map
      (fun t => (List.range 16).all fun a => decide (Memory.read received.bsin a = Memory.read t.bsout a)) = some true := by
    decide
  have hb (a : Nat) : Memory.read received.bsin a = (stream goodHeader)[a]? := Memory.read_ofList _ a
  obtain ⟨t2, h2, hr⟩ := Option.map_eq_some_iff.mp h
  refine ⟨{ filled with arg := [8000, 1, 3, 3] }, { received with arg := [40] }, rfl, rfl, by simp [word64], by simp [word64],
    by simp [word64], by simp [parameterError], rfl, rfl, { encoding with arg := [8000, 1, 3, 3] }, t2,
    test_encOpen_is_P1, h2, fun a ha => ?_, by decide, fun a ha => ?_⟩
  · exact of_decide_eq_true (List.all_eq_true.mp hr a (List.mem_range.mpr ha))
  · rw [← hb]; exact of_decide_eq_true (List.all_eq_true.mp hr a (List.mem_range.mpr ha))

/-- Legal parameters, and parameters one sample short. -/
theorem witness_EncodeProgramEndsDone :
    State.reset.phase = .needHeader ∧ ([1000, 0, 500] : List Sample).length < 2 ^ 64 ∧ (8000 : Nat) < 2 ^ 64 ∧
    parameterError ((8000 : Nat) : Int) ((1 : Nat) : Int) ((3 : Nat) : Int) (([1000, 0, 500] : List Sample).length : Int) =
      none ∧
    parameterError ((8000 : Nat) : Int) ((1 : Nat) : Int) ((4 : Nat) : Int) (([1000, 0, 500] : List Sample).length : Int) =
      some ⟨.sampleCountMismatch, 0⟩ := by
  simp [parameterError, State.reset]

/-- Bytes whose headers pass, and bytes whose headers do not. -/
theorem witness_DecodeProgramEnds :
    State.reset.phase = .needHeader ∧ (stream goodHeader).length < 2 ^ 64 ∧
    streamError { State.reset with bsin := Memory.ofList (stream goodHeader) } (stream goodHeader).length = none ∧
    ([] : List Byte).length < 2 ^ 64 ∧
    streamError { State.reset with bsin := Memory.ofList [] } ([] : List Byte).length = some ⟨.fileTooSmall, 0⟩ := by decide

theorem witness_RdregReadsTheNumberedRegisters :
    State.reset.arg = [] ∧ ¬ ((0x0B : BitVec 16).toNat ≤ 0x0A ∨ (0x10 ≤ (0x0B : BitVec 16).toNat ∧ (0x0B : BitVec 16).toNat ≤ 0x17)) ∧
    ¬ ((0x18 : BitVec 16).toNat ≤ 0x0A ∨ (0x10 ≤ (0x18 : BitVec 16).toNat ∧ (0x18 : BitVec 16).toNat ≤ 0x17)) := by decide

theorem witness_NopDoesNothing : State.reset.arg = [] := rfl

/-- P1's header, and one whose channel count is not the stream's. -/
theorem witness_HeaderWordsAreCheckedAndTaken :
    let bad := decodingOf [2, 0, 0x1f, 0x40, 0, 3, 0, 0x20]
    State.reset.phase = .needHeader ∧
    (decoding.phase = .needFrame ∧ decoding.mode = .dec ∧ decoding.headerWord = frameHeaderPack 1 8000 3 32 ∧
      8 + 16 * decoding.channels.toNat ≤ decoding.bsinLen.toNat - decoding.bsinPos.toNat ∧ frameError decoding = none) ∧
    (bad.phase = .needFrame ∧ bad.mode = .dec ∧ bad.headerWord = frameHeaderPack 2 8000 3 32 ∧
      8 + 16 * bad.channels.toNat ≤ bad.bsinLen.toNat - bad.bsinPos.toNat ∧ frameError bad = some ⟨.invalidFrame, 1⟩) := by
  decide

theorem witness_LmsWordsLoadTheirChannel : decoding.phase = .needFrame ∧ decoding.mode = .dec := by decide

theorem witness_SliceWordDecodesIntoPcmout :
    decoding.phase = .needFrame ∧ decoding.mode = .dec ∧ 0 < decoding.channels.toNat := by decide

/-- One error of each operation that raises any. -/
theorem witness_ErrorsArePrecise :
    State.reset.phase ≠ .error ∧
    ([(Instr.encFrame, ([] : List Int), State.reset), (.encOpen, [1, 9, 1, 1], State.reset), (.decOpen, [15], State.reset),
      (.decFrame, [], { decoding with bsinLen := 31 })].all fun x =>
        decide ((run x.1 x.2.1 x.2.2).map (·.phase) = some .error)) = true := by decide

theorem witness_ErrorPhaseIgnoresCommands :
    ∃ s : State, s.pending = .command 0x49000000 [] :: [] ∧ s.phase = .error ∧
      (0x49000000 : CommandWord).toNat / 2 ^ 24 ≠ 1 :=
  ⟨{ faulted with pending := [.command 0x49000000 []] }, rfl, rfl, by decide⟩

theorem witness_OnlyResetLeavesTheErrorPhase :
    ∃ s t : State, s.phase = .error ∧ s.pending.head? ≠ some .reset ∧ step s = .next t :=
  ⟨{ faulted with pending := [.command 0x20000000 []] }, { faulted with pending := [] }, rfl, by decide, rfl⟩

theorem witness_ResetGivesEveryRegisterItsValue :
    ∃ s : State, s.pending = .reset :: [] ∧ s.phase = .error := ⟨{ faulted with pending := [.reset] }, rfl, rfl⟩

/-- A command of each case: the phase kept, an encode opened, a decode opened, an encode ended, a decode ended, an error. -/
theorem witness_PhaseChangesOnlyAsTabled :
    ([(Instr.nop, ([] : List Int), State.reset), (.encOpen, [8000, 1, 3, 3], filled), (.decOpen, [40], received),
      (.encFrame, [], encoding), (.decFrame, [], decoding), (.encFrame, [], State.reset)].map fun x =>
        (run x.1 x.2.1 x.2.2).map fun t => (t.phase, t.mode)) =
    [some (.needHeader, .none), some (.needFrame, .enc), some (.needFrame, .dec), some (.done, .enc), some (.done, .dec),
      some (.error, .none)] := by decide

theorem witness_OnlyListedOperationsWrite :
    isCommand .lmsInit = true ∧ ∃ t, exec .lmsInit State.reset = .next t := ⟨rfl, _, rfl⟩

theorem witness_StepRunsTheDecodedInstruction :
    ∃ s : State, s.pending = .command 0x32700014 [1, 2] :: [] ∧ decode (.command 0x32700014) = .ok (.encSlice 7 20) :=
  ⟨{ State.reset with pending := [.command 0x32700014 [1, 2]] }, rfl, by decide⟩

/-- A fill in each of the four cases. -/
theorem witness_HostFillsBuffersBetweenStreams :
    (decoding.phase = .needFrame ∧ decoding.mode = .dec) ∧ (encoding.phase = .needFrame ∧ encoding.mode = .enc) ∧
    ¬ (encoding.phase = .needFrame ∧ encoding.mode = .dec) ∧ ¬ (decoding.phase = .needFrame ∧ decoding.mode = .enc) ∧
    { decoding with pending := [.fillBsin [1]] }.pending = .fillBsin [1] :: [] ∧
    { encoding with pending := [.fillPcmin [1]] }.pending = .fillPcmin [1] :: [] := by decide

/-- P2's state with `LMS.PREDICT` next. -/
theorem witness_StepKeepsTheInvariant :
    ∃ s t : State, s.Inv ∧ step s = .next t :=
  ⟨{ decoding with pending := [.command 0x23000000 []] }, _, ⟨decoding_inv.1, decoding_inv.2, decoding_inv.3,
    decoding_inv.4, decoding_inv.5, decoding_inv.6⟩, rfl⟩

theorem witness_StepKeepsCanonicalSpaces :
    ∃ s t : State, s.buffersWf ∧ step s = .next t :=
  ⟨{ decoding with pending := [.command 0x20000000 []] }, _, by decide, rfl⟩

/-- P2's state has emitted nothing, and the next command takes a step. -/
theorem witness_StepKeepsPcmoutExact :
    ∃ s t : State, s.Inv ∧ s.pcmoutExact ∧ s.mode = .dec ∧ step s = .next t :=
  ⟨{ decoding with pending := [.command 0x20000000 []] }, _, ⟨decoding_inv.1, decoding_inv.2, decoding_inv.3,
    decoding_inv.4, decoding_inv.5, decoding_inv.6⟩, by
      intro _ i; simp [decoding, decodingOf, State.reset], rfl, rfl⟩

/-- P1's state has written the file header, and the next command takes a step. -/
theorem witness_StepKeepsBsoutWritten :
    ∃ s t : State, s.Inv ∧ s.bsoutWritten ∧ s.mode = .enc ∧ step s = .next t :=
  ⟨{ encoding with pending := [.command 0x20000000 []] }, _, ⟨encoding_inv.1, encoding_inv.2, encoding_inv.3,
    encoding_inv.4, encoding_inv.5, encoding_inv.6⟩, by
      intro _; show ∀ a, a < 8 → _; decide, rfl, rfl⟩

end Sys2Proof.Tests
end

/-! ## The scope of a step (00_scope.md) -/

namespace Sys2Proof.Machine

/-- A step on a waiting command word issues it, its operands on `ARG` and the action off the queue (R13, R15). -/
theorem step_command {s : State} {w : CommandWord} {arg : List Int} {rest : List HostAction}
    (h : s.pending = .command w arg :: rest) : step s = issue w { s with arg := arg, pending := rest } :=
  step_cons h

/-- Settles O54: the step issues the word, and a word that decodes is issued as its instruction. -/
theorem stepRunsTheDecodedInstruction : Obligations.StepRunsTheDecodedInstruction := by
  intro s w arg rest i hpending hdecode
  have hcommand : decodeCommand w = .ok i := hdecode
  calc step s = issue w { s with arg := arg, pending := rest } := step_command hpending
    _ = exec i { s with arg := arg, pending := rest } := issue_ok hcommand

end Sys2Proof.Machine

/-! ## The registers: what may write them, and their invariant (10_state.md) -/

namespace Sys2Proof.Machine

open Sys2Proof.Claims

/-! ### Tests that pass -/

theorem opensAdmitted_iff {s : State} : opensAdmitted s = true ↔ s.phase = .needHeader ∨ s.phase = .done := by
  simp [opensAdmitted]

theorem frameAdmitted_iff {m : Mode} {s : State} :
    frameAdmitted m s = true ↔ s.phase = .needFrame ∧ s.mode = m := by
  simp [frameAdmitted]

/-- `pcm_len`, the operand of `ENC.OPEN` that no check of R190 bounds, fits its register. -/
theorem encOpenOperands_pcmLen_lt {arg : List Int} {p : EncOpenOperands} (h : encOpenOperands arg = .ok p) :
    p.pcmLen < 2 ^ 64 := by
  unfold encOpenOperands at h
  split at h
  · split at h
    · rename_i hr
      cases h
      simp only [Bool.and_eq_true, isUnsigned64, decide_eq_true_eq] at hr
      dsimp only
      omega
    · cases h
  · cases h

/-- The checks of R190. -/
theorem checkParameters_eq_ok {p : EncOpenOperands} {u : Unit} :
    checkParameters p = .ok u ↔
      (1 ≤ p.channels ∧ p.channels ≤ 8) ∧ (1 ≤ p.sampleRate ∧ p.sampleRate ≤ 16777215) ∧
      (1 ≤ p.samples ∧ p.samples ≤ 4294967295) ∧ p.channels * p.samples ≤ p.pcmLen := by
  simp [checkParameters, bind_eq_ok, require_eq_ok]

/-- The checks of R191. -/
theorem checkStream_eq_ok {n : Nat} {s : State} {u : Unit} :
    checkStream n s = .ok u ↔
      16 ≤ n ∧ fileHeaderMagic (s.bsinWord 0) = magic ∧ fileHeaderSamples (s.bsinWord 0) ≠ 0 ∧
      headerChannels (s.bsinWord 8) ≠ 0 ∧ headerSampleRate (s.bsinWord 8) ≠ 0 ∧
      (headerChannels (s.bsinWord 8)).toNat ≤ 8 := by
  simp [checkStream, checkSampleCount, checkFirstHeader, bind_eq_ok, require_eq_ok]

/-- What a frame that passes the checks of R171 says of the cursors: checks 6 and 7. -/
theorem checkFrame_bounds {s : State} {u : Unit} (h : checkFrame s = .ok u) :
    s.samplePos.toNat + (headerFsamples s.headerWord).toNat ≤ s.samples.toNat ∧
    frameBytes s.channels.toNat (headerFsamples s.headerWord).toNat ≤ s.bsinLen.toNat - s.bsinPos.toNat := by
  simp only [checkFrame, checkFrameHeader, bind_eq_ok, require_eq_ok, decide_eq_true_eq] at h
  obtain ⟨-, -, -, -, -, -, -, -, -, -, -, -, -, hsamples, hbytes⟩ := h
  exact ⟨hsamples, hbytes⟩

/-! ### Commands, and those that touch no stream -/

/-- The command decoder answers commands. -/
theorem decodeCommand_isCommand {w : CommandWord} {i : Instr} (h : decodeCommand w = .ok i) : isCommand i = true := by
  have hbuild : ∀ row ∈ commandTable, ∀ c sf imm, isCommand (row.build c sf imm) = true := by
    simp [commandTable, isCommand]
  unfold decodeCommand at h
  split at h
  · cases h
  · rename_i row hrow
    split at h
    · cases h; exact hbuild row (List.mem_of_find?_eq_some hrow) _ _ _
    · cases h

/-- A command that neither opens a stream nor takes a frame. -/
def isRegisterCommand : Instr → Bool
  | .encOpen => false
  | .encFrame => false
  | .decOpen => false
  | .decFrame => false
  | i => isCommand i

theorem command_cases {i : Instr} (hi : isCommand i = true) :
    isRegisterCommand i = true ∨ i = .encOpen ∨ i = .encFrame ∨ i = .decOpen ∨ i = .decFrame := by
  cases i <;> simp_all [isCommand, isRegisterCommand]

/-- The command writes the LMS registers of the channel it names, and that is `c` (10_state.md R35). -/
def writesChannel (i : Instr) (c : Fin 8) : Prop :=
  channelNumber i = some c.val ∧
    ((∃ f, i = .lmsLoad f) ∨ (∃ f, i = .lmsUpdate f) ∨ (∃ f n, i = .decSlice f n) ∨ (∃ f n, i = .encSlice f n))

/-- What a command that touches no stream may do (10_state.md R35): it changes the LMS registers it is listed for, and
`ENC.SLICE` the registers of the search. -/
structure RegisterEffect (i : Instr) (s t : State) : Prop where
  frame  : t = { s with lms := t.lms, prevSf := t.prevSf, errorCount := t.errorCount, res := t.res }
  lms    : ∀ c, t.lms.get c ≠ s.lms.get c → i = .lmsInit ∨ writesChannel i c
  search : t.prevSf ≠ s.prevSf ∨ t.errorCount ≠ s.errorCount → ∃ f n, i = .encSlice f n

theorem RegisterEffect.refl (i : Instr) (s : State) : RegisterEffect i s s :=
  ⟨rfl, fun _ h => absurd rfl h, by simp⟩

theorem RegisterEffect.returns (i : Instr) (s : State) (r : List Int) : RegisterEffect i s (s.returns r) :=
  ⟨rfl, fun _ h => absurd rfl h, by simp⟩

/-- A register file with one channel replaced differs at that channel alone. -/
theorem channel_eq_of_set_ne {α : Type} {b : Bank α} {c d : Fin 8} {x : α} (h : (b.set c x).get d ≠ b.get d) :
    d = c := by
  by_contra hd
  exact h (Bank.get_set_other b x hd)

theorem RegisterEffect.setLms {i : Instr} {s : State} {ch : Fin 8} {l : Lms} {r : List Int}
    (hw : writesChannel i ch) : RegisterEffect i s ((s.setLms ch l).returns r) :=
  ⟨rfl, fun _ h => .inr (channel_eq_of_set_ne h ▸ hw), by simp⟩

theorem RegisterEffect.commit {s : State} {c : BitVec 4} {len : BitVec 16} {ch : Fin 8} {b : Best} {r : List Int}
    (hw : writesChannel (.encSlice c len) ch) : RegisterEffect (.encSlice c len) s ((s.commit ch b).returns r) :=
  ⟨rfl, fun _ h => .inr (channel_eq_of_set_ne h ▸ hw), fun _ => ⟨c, len, rfl⟩⟩

/-- A command that touches no stream is turned away or writes what it is listed for. -/
theorem exec_register_cases {i : Instr} {s t : State} (hi : isRegisterCommand i = true) (h : exec i s = .next t) :
    s.stopped t ∨ RegisterEffect i s t := by
  have named {c : BitVec 4} {ch : Fin 8} (hc : channelOperand c = .ok ch) : some c.toNat = some ch.val :=
    congrArg some (channelOperand_eq_ok.mp hc)
  cases i with
  | nop => exact (execNop_next h).imp_right (by rintro rfl; exact .refl _ _)
  | rdreg r => exact (execRdreg_next h).imp_right (by rintro ⟨v, -, -, rfl⟩; exact .returns _ _ _)
  | fnClamp => exact (execFnClamp_next h).imp_right (by rintro ⟨-, v, lo, hi, -, rfl⟩; exact .returns _ _ _)
  | fnClamps16 => exact (execFnClamps16_next h).imp_right (by rintro ⟨-, v, -, rfl⟩; exact .returns _ _ _)
  | fnDivide sf => exact (execFnDivide_next h).imp_right (by rintro ⟨-, r, -, rfl⟩; exact .returns _ _ _)
  | tblRecip sf => exact (execTblRecip_next h).imp_right (by rintro ⟨-, -, rfl⟩; exact .returns _ _ _)
  | tblQuant i => exact (execTblQuant_next h).imp_right (by rintro ⟨-, n, -, -, rfl⟩; exact .returns _ _ _)
  | tblDequant sf q => exact (execTblDequant_next h).imp_right (by rintro ⟨-, n, -, -, rfl⟩; exact .returns _ _ _)
  | lmsInit =>
    refine (execLmsInit_next h).imp_right ?_
    rintro ⟨-, -, rfl⟩
    exact ⟨rfl, fun _ _ => .inl rfl, by simp⟩
  | lmsLoad c =>
    refine (execLmsLoad_next h).imp_right ?_
    rintro ⟨-, ch, hw, ww, hc, -, rfl⟩
    exact .setLms ⟨named hc, .inl ⟨c, rfl⟩⟩
  | lmsStore c => exact (execLmsStore_next h).imp_right (by rintro ⟨-, ch, -, -, rfl⟩; exact .returns _ _ _)
  | lmsPredict c => exact (execLmsPredict_next h).imp_right (by rintro ⟨-, ch, -, -, rfl⟩; exact .returns _ _ _)
  | lmsUpdate c =>
    refine (execLmsUpdate_next h).imp_right ?_
    rintro ⟨-, ch, x, dq, hc, -, rfl⟩
    exact .setLms ⟨named hc, .inr (.inl ⟨c, rfl⟩)⟩
  | decSlice c len =>
    refine (execDecSlice_next h).imp_right ?_
    rintro ⟨-, ch, n, w, hc, -, -, rfl⟩
    exact .setLms ⟨named hc, .inr (.inr (.inl ⟨c, len, rfl⟩))⟩
  | encTrial c sf len =>
    exact (execEncTrial_next h).imp_right (by rintro ⟨-, ch, n, xs, -, -, -, rfl⟩; exact .returns _ _ _)
  | encSlice c len =>
    refine (execEncSlice_next h).imp_right ?_
    rintro ⟨-, ch, n, xs, hc, -, -, rfl⟩
    exact .commit ⟨named hc, .inr (.inr (.inr ⟨c, len, rfl⟩))⟩
  | encOpen => cases hi
  | encFrame => cases hi
  | decOpen => cases hi
  | decFrame => cases hi
  | fileHeader samples => cases hi
  | frameHeader role ch sr n z => cases hi
  | lmsHistory c h0 h1 h2 h3 => cases hi
  | lmsWeights c w0 w1 w2 w3 => cases hi
  | slice p sf qs => cases hi

/-- A wire word is turned away, or changes the registers a header or a slice carries and `PCMOUT` alone. -/
theorem exec_not_command_cases {i : Instr} {s t : State} (hi : isCommand i = false) (h : exec i s = .next t) :
    s.stopped t ∨
    t = { s with samples := t.samples, channels := t.channels, sampleRate := t.sampleRate, lms := t.lms
                 pcmout := t.pcmout } := by
  cases i with
  | fileHeader samples =>
    exact exec_wire_cases (p := .fileHeader) (w := fileHeaderPack samples) (by simp [decodeWire]) h
  | frameHeader role ch sr n z =>
    exact exec_wire_cases (p := .frameHeader role) (w := frameHeaderPack ch sr n z) (by simp [decodeWire]) h
  | lmsHistory c h0 h1 h2 h3 =>
    exact exec_wire_cases (p := .history c) (w := pack4 ⟨h0, h1, h2, h3⟩) (by simp [decodeWire]) h
  | lmsWeights c w0 w1 w2 w3 =>
    exact exec_wire_cases (p := .weights c) (w := pack4 ⟨w0, w1, w2, w3⟩) (by simp [decodeWire]) h
  | slice p sf qs => exact exec_wire_cases (p := .slice p) (w := slicePack sf qs) (by simp [decodeWire]) h
  | _ => cases hi

/-- A command that is turned away keeps its state or raises one error. -/
theorem State.stopped_cases {s t : State} (h : s.stopped t) : t = s ∨ (s.phase ≠ .error ∧ ∃ e, t = s.raise e) := by
  obtain ⟨e, ⟨-, ht⟩ | ⟨hp, ht⟩⟩ := h
  · exact .inl ht
  · exact .inr ⟨hp, e, ht⟩

/-! ### The state after `ENC.FRAME` -/

/-- `SAMPLE_POS` after the frame at `SAMPLE_POS` is encoded (43_frame.md R169). -/
def State.frameEnd (s : State) : BitVec 32 := BitVec.ofNat 32 (s.samplePos.toNat + s.nextFrameLength)

/-- What `ENC.FRAME` leaves but for `RES`: the registers and bytes its body writes, the position moved, the phase. -/
def State.afterEncode (s : State) : State :=
  { s with
    lms := (encodeFrameBody s).lms, prevSf := (encodeFrameBody s).prevSf
    errorCount := (encodeFrameBody s).errorCount, bsout := (encodeFrameBody s).bsout
    bsoutPos := (encodeFrameBody s).bsoutPos
    samplePos := s.frameEnd
    phase := if s.frameEnd = s.samples then .done else s.phase }

theorem finishEncode_encodeFrameBody (s : State) :
    finishEncode s.nextFrameLength (encodeFrameBody s) = s.afterEncode := by
  have h := encodeFrameBody_frame s
  unfold State.afterEncode
  generalize encodeFrameBody s = b at h ⊢
  rw [h]
  rfl

/-- A channel the stream does not have keeps its LMS registers through `ENC.FRAME`. -/
theorem encodeFrameBody_lms_other (s : State) {c : Fin 8} (hc : s.channels.toNat ≤ c.val) :
    (encodeFrameBody s).lms.get c = s.lms.get c := by
  rw [encodeFrameBody_eq]
  refine List.foldlRecOn (motive := fun u : State => u.lms.get c = s.lms.get c) _ _ ?_ fun u hu p hp => ?_
  · rw [afterPrelude_frame]
  · have hne : c ≠ p.c := by
      rintro rfl
      have := (mem_slicePositions.mp hp).2.1
      omega
    simp only [encodeSlice, State.put_lms, State.commit_lms, Bank.get_set_other _ _ hne, hu]

/-! ### The invariant of the registers -/

/-- The states agree on every register the invariant speaks of. -/
def State.sameControl (s t : State) : Prop :=
  t = { s with
    lms := t.lms, prevSf := t.prevSf, errorCount := t.errorCount, bsin := t.bsin, bsout := t.bsout, pcmin := t.pcmin
    pcmout := t.pcmout, arg := t.arg, res := t.res, pending := t.pending, params := t.params }

theorem State.Inv.of_sameControl {s t : State} (h : s.Inv) (ht : s.sameControl t) : t.Inv := by
  rw [ht]
  exact ⟨h.error, h.mode, h.descriptor, h.cursor, h.output, h.encodeDone⟩

section
variable {s : State} (h : s.Inv)
include h

theorem State.Inv.samplePos_le : s.samplePos.toNat ≤ s.samples.toNat := h.cursor.1

theorem State.Inv.bsinPos_le : s.bsinPos.toNat ≤ s.bsinLen.toNat := h.cursor.2.1

/-- Where a frame is due there is a sample to take. -/
theorem State.Inv.samplePos_lt (hp : s.phase = .needFrame) : s.samplePos.toNat < s.samples.toNat := h.cursor.2.2.1 hp

theorem State.Inv.bsoutPos_le : s.bsoutPos.toNat ≤ s.outTotal.toNat := h.output.1

theorem State.Inv.outTotal_lt : s.outTotal.toNat < 2 ^ 34 := h.output.2.1

end

theorem State.Inv.returns {s : State} (h : s.Inv) (r : List Int) : (s.returns r).Inv := h.of_sameControl rfl

theorem State.reset_inv : State.reset.Inv :=
  ⟨by decide, by decide, by decide, by decide, by decide, by decide⟩

/-- Outside the error phase there is no error (10_state.md R29). -/
theorem State.Inv.noError {s : State} (h : s.Inv) (hp : s.phase ≠ .error) : s.err = 0 ∧ s.errInfo = 0 := by
  obtain ⟨hiff, hinfo⟩ := h.error
  have he : s.err = 0 := by
    by_contra hne
    exact hp (hiff.mpr hne)
  exact ⟨he, hinfo he⟩

/-- The error clause of a state outside the error phase. -/
theorem State.errorWf_of_noError {s : State} (hp : s.phase ≠ .error) (h : s.err = 0 ∧ s.errInfo = 0) : s.errorWf :=
  ⟨⟨fun he => absurd he hp, fun he => absurd h.1 he⟩, fun _ => h.2⟩

theorem ErrorCode.code_ne_zero (c : ErrorCode) : c.code ≠ 0 := by cases c <;> decide

/-- Raising an error keeps the invariant: the error phase asks nothing of mode and cursors beyond their bounds. -/
theorem State.Inv.raise {s : State} (h : s.Inv) (e : Cause) : (s.raise e).Inv where
  error := ⟨⟨fun _ => e.code.code_ne_zero, fun _ => rfl⟩, fun he => absurd he e.code.code_ne_zero⟩
  mode := by simp [State.modeWf]
  descriptor := h.descriptor
  cursor := ⟨h.samplePos_le, h.bsinPos_le, by simp, by simp⟩
  output := h.output
  encodeDone := by simp [State.encodeDoneWf]

theorem State.Inv.stopped {s t : State} (h : s.Inv) (ht : s.stopped t) : t.Inv := by
  obtain rfl | ⟨-, e, rfl⟩ := State.stopped_cases ht
  · exact h
  · exact h.raise e

theorem State.Inv.registerEffect {i : Instr} {s t : State} (h : s.Inv) (ht : RegisterEffect i s t) : t.Inv := by
  rw [ht.frame]
  exact h.of_sameControl rfl

/-! ### Opening a stream keeps the invariant -/

/-- Before the first frame a stream is its file header. -/
@[simp] theorem encodedLength_zero (channels : Nat) : encodedLength channels 0 = 8 := by
  simp [encodedLength, ceilDiv]

theorem openEncoder_inv {s : State} (h : s.Inv) (hp : s.phase ≠ .error) {p : EncOpenOperands}
    (hlen : p.pcmLen < 2 ^ 64) (hcheck : checkParameters p = .ok ()) : (openEncoder p s).Inv := by
  obtain ⟨⟨hc1, hc8⟩, ⟨hr1, hr⟩, ⟨hn1, hn⟩, hpcm⟩ := checkParameters_eq_ok.mp hcheck
  have hlt : encodedLength p.channels p.samples < 2 ^ 34 := encodedLength_lt hc8 (by omega)
  have h8 : 8 ≤ encodedLength p.channels p.samples := by
    simpa using encodedLength_mono p.channels (Nat.zero_le p.samples)
  have hchannels : (openEncoder p s).channels.toNat = p.channels := Nat.mod_eq_of_lt (by omega)
  have hrate : (openEncoder p s).sampleRate.toNat = p.sampleRate := Nat.mod_eq_of_lt (by omega)
  have hsamples : (openEncoder p s).samples.toNat = p.samples := Nat.mod_eq_of_lt (by omega)
  have htotal : (openEncoder p s).outTotal.toNat = encodedLength p.channels p.samples :=
    Nat.mod_eq_of_lt (by omega)
  have hpcmLen : (openEncoder p s).pcminLen.toNat = p.pcmLen := Nat.mod_eq_of_lt hlen
  have hpos : (openEncoder p s).samplePos.toNat = 0 := rfl
  have hout : (openEncoder p s).bsoutPos.toNat = 8 := rfl
  exact {
    error := State.errorWf_of_noError (by simp [openEncoder]) (h.noError hp)
    mode := by simp [State.modeWf, openEncoder]
    descriptor := fun _ => by omega
    cursor := ⟨by omega, h.bsinPos_le, fun _ => by omega, by simp [openEncoder]⟩
    output := ⟨by omega, by omega, fun _ =>
      ⟨by rw [hchannels, hpos, hout, encodedLength_zero], by rw [hchannels, hsamples, htotal], .inl (by omega),
        by rw [hchannels, hsamples, hpcmLen]; exact hpcm⟩⟩
    encodeDone := by simp [State.encodeDoneWf, openEncoder] }

theorem openDecoder_inv {s : State} (h : s.Inv) (hp : s.phase ≠ .error) {n : Nat} (hn : n < 2 ^ 64)
    (hcheck : checkStream n s = .ok ()) : (openDecoder n s).Inv := by
  obtain ⟨hn16, -, hsamples, hchannels, hrate, hc8⟩ := checkStream_eq_ok.mp hcheck
  have hlen : (openDecoder n s).bsinLen.toNat = n := Nat.mod_eq_of_lt hn
  have hin : (openDecoder n s).bsinPos.toNat = 8 := rfl
  exact {
    error := State.errorWf_of_noError (by simp [openDecoder]) (h.noError hp)
    mode := by simp [State.modeWf, openDecoder]
    descriptor := fun _ => ⟨BitVec.toNat_pos_of_ne_zero hchannels, hc8, BitVec.toNat_pos_of_ne_zero hrate⟩
    cursor := ⟨Nat.zero_le _, by omega, fun _ => BitVec.toNat_pos_of_ne_zero hsamples, fun _ _ => by omega⟩
    output := ⟨h.bsoutPos_le, h.outTotal_lt, by simp [openDecoder]⟩
    encodeDone := by simp [State.encodeDoneWf, openDecoder] }

/-! ### A frame keeps the invariant -/

/-- Where a frame of an encode ends: past its start, within the stream, and at a whole number of full frames or at the
end of the stream (43_frame.md R168). -/
theorem frameEnd_bounds {s : State} (h : s.samplePos.toNat < s.samples.toNat) (hfull : s.samplePos.toNat % 5120 = 0) :
    s.frameEnd.toNat = s.samplePos.toNat + s.nextFrameLength ∧ 1 ≤ s.nextFrameLength ∧ s.nextFrameLength ≤ 5120 ∧
    s.frameEnd.toNat ≤ s.samples.toNat ∧ (s.frameEnd.toNat % 5120 = 0 ∨ s.frameEnd.toNat = s.samples.toNat) := by
  have hlt := s.samples.isLt
  have hn : s.nextFrameLength = min 5120 (s.samples.toNat - s.samplePos.toNat) := rfl
  have hend : s.frameEnd.toNat = s.samplePos.toNat + s.nextFrameLength := Nat.mod_eq_of_lt (by omega)
  omega

/-- `ENC.FRAME` leaves `BSOUT_POS` at the length of the stream so far (20_memory.md R53, R62). -/
theorem encodeFrameBody_bsoutPos {s : State} (h : s.Inv) (hp : s.phase = .needFrame) (hm : s.mode = .enc) :
    (encodeFrameBody s).bsoutPos.toNat = encodedLength s.channels.toNat s.frameEnd.toNat := by
  obtain ⟨-, hC, -⟩ := h.descriptor (by simp [hm])
  have hlt := h.samplePos_lt hp
  obtain ⟨hout, -, hwhole, -⟩ := h.output.2.2 hm
  have hfull := hwhole.resolve_right (by omega)
  obtain ⟨hend, h1, h5120, -⟩ := frameEnd_bounds hlt hfull
  have hbytes := frameBytes_lt hC h5120
  have hlen := encodedLength_lt hC s.samplePos.isLt
  have happ := (encodeFrameBody_appends s hC (by omega)).pos
  rw [happ, hend, encodedLength_add_frame _ _ _ hfull h1 h5120, hout, ← frameBytes_eq_words]

theorem afterEncode_inv {s : State} (h : s.Inv) (hp : s.phase = .needFrame) (hm : s.mode = .enc) :
    s.afterEncode.Inv := by
  have hlt := h.samplePos_lt hp
  obtain ⟨-, htotal, hwhole, hpcm⟩ := h.output.2.2 hm
  obtain ⟨-, -, -, hend, hwhole'⟩ := frameEnd_bounds hlt (hwhole.resolve_right (by omega))
  have hout' := encodeFrameBody_bsoutPos h hp hm
  have hphase : s.afterEncode.phase = if s.frameEnd = s.samples then .done else .needFrame := by
    rw [← hp]; rfl
  have hdone : s.afterEncode.phase = .done → s.frameEnd = s.samples := by
    rw [hphase]; split <;> simp_all
  have hmore : s.afterEncode.phase = .needFrame → s.frameEnd.toNat < s.samples.toNat := by
    rw [hphase]
    split
    · simp
    · rename_i hne
      exact fun _ => Nat.lt_of_le_of_ne hend fun he => hne (BitVec.eq_of_toNat_eq he)
  have hrunning : s.afterEncode.phase ≠ .error := by rw [hphase]; split <;> simp
  have hneed : s.afterEncode.phase ≠ .needHeader := by rw [hphase]; split <;> simp
  have hmode : s.afterEncode.mode = .enc := hm
  exact {
    error := State.errorWf_of_noError hrunning (h.noError (by simp [hp]))
    mode := ⟨fun he => absurd he hneed, fun _ => by simp [hmode]⟩
    descriptor := h.descriptor
    cursor := ⟨hend, h.bsinPos_le, hmore, fun _ hd => by simp [hmode] at hd⟩
    output := ⟨hout'.trans_le ((encodedLength_mono _ hend).trans htotal.ge), h.outTotal_lt,
      fun _ => ⟨hout', htotal, hwhole', hpcm⟩⟩
    encodeDone := fun _ => hdone }

theorem decodeFrameBody_inv {s : State} (h : s.Inv) (hp : s.phase = .needFrame) (hm : s.mode = .dec) {n : Nat}
    (hsamples : s.samplePos.toNat + n ≤ s.samples.toNat)
    (hbytes : frameBytes s.channels.toNat n ≤ s.bsinLen.toNat - s.bsinPos.toNat) : (decodeFrameBody n s).Inv := by
  have hn := s.samples.isLt
  have hl := s.bsinLen.isLt
  have hin := h.bsinPos_le
  have hnoEnc : s.mode ≠ .enc := by simp [hm]
  have hpos : (s.afterUnits n).samplePos.toNat = s.samplePos.toNat + n := Nat.mod_eq_of_lt (by omega)
  have hcursor : (s.afterUnits n).bsinPos.toNat = s.bsinPos.toNat + frameBytes s.channels.toNat n :=
    Nat.mod_eq_of_lt (by omega)
  have hle : (s.afterUnits n).bsinPos.toNat ≤ s.bsinLen.toNat := by omega
  rw [decodeFrameBody_eq]
  obtain ⟨hmore, hinput, heq⟩ | ⟨-, heq⟩ := finishDecode_cases (s.afterUnits n) <;> rw [heq]
  · exact {
      error := h.error
      mode := h.mode
      descriptor := h.descriptor
      cursor := ⟨hpos.trans_le hsamples, hle, fun _ => hmore, fun _ _ => hinput⟩
      output := ⟨h.bsoutPos_le, h.outTotal_lt, fun he => absurd he hnoEnc⟩
      encodeDone := fun he => absurd he hnoEnc }
  · exact {
      error := State.errorWf_of_noError (by simp) (h.noError (by simp [hp]))
      mode := ⟨by simp, fun _ => h.mode.2 (.inl hp)⟩
      descriptor := h.descriptor
      cursor := ⟨Nat.le_refl _, hle, by simp, by simp⟩
      output := ⟨h.bsoutPos_le, h.outTotal_lt, fun he => absurd he hnoEnc⟩
      encodeDone := fun he => absurd he hnoEnc }

/-! ### Every step keeps the invariant -/

/-- Every command keeps the invariant. -/
theorem exec_inv {i : Instr} {s t : State} (h : s.Inv) (hi : isCommand i = true) (ht : exec i s = .next t) :
    t.Inv := by
  by_cases hst : s.stopped t
  · exact h.stopped hst
  rcases command_cases hi with hr | rfl | rfl | rfl | rfl
  · exact h.registerEffect ((exec_register_cases hr ht).resolve_left hst)
  · obtain ⟨hp, p, harg, -, hcheck, rfl⟩ := (execEncOpen_next ht).resolve_left hst
    exact (openEncoder_inv h hp (encOpenOperands_pcmLen_lt harg) hcheck).returns []
  · obtain ⟨-, -, hadm, rfl⟩ := (execEncFrame_next ht).resolve_left hst
    obtain ⟨hp, hm⟩ := frameAdmitted_iff.mp hadm
    rw [finishEncode_encodeFrameBody]
    exact (afterEncode_inv h hp hm).returns []
  · obtain ⟨hp, n, harg, -, hcheck, rfl⟩ := (execDecOpen_next ht).resolve_left hst
    have hn := (oneOperand_eq_ok.mp harg).2
    simp only [isUnsigned64, Bool.and_eq_true, decide_eq_true_eq] at hn
    exact (openDecoder_inv h hp (by omega) hcheck).returns []
  · obtain ⟨-, -, hadm, hcheck, rfl⟩ := (execDecFrame_next ht).resolve_left hst
    obtain ⟨hp, hm⟩ := frameAdmitted_iff.mp hadm
    obtain ⟨hsamples, hbytes⟩ := checkFrame_bounds hcheck
    exact (decodeFrameBody_inv h hp hm hsamples hbytes).returns []

/-- Settles O57: a command keeps the invariant by the case of what it does, `RESET` makes it anew, and the other
actions of the host touch no register it speaks of. -/
theorem stepKeepsTheInvariant : Obligations.StepKeepsTheInvariant := by
  intro s t h hstep
  obtain ⟨-, rfl⟩ | ⟨w, arg, rest, -, ⟨i, hd, ht⟩ | ⟨e, -, ht⟩⟩ | ⟨rest, -, rfl⟩ | ⟨bytes, rest, -, -, rfl⟩ |
    ⟨samples, rest, -, -, rfl⟩ := step_cases hstep
  · exact h
  · have hs : State.Inv { s with arg := arg, pending := rest } := h.of_sameControl rfl
    exact exec_inv hs (decodeCommand_isCommand hd) ht
  · have hs : State.Inv { s with arg := arg, pending := rest } := h.of_sameControl rfl
    exact hs.stopped ht
  · exact State.reset_inv.of_sameControl rfl
  · exact h.of_sameControl rfl
  · exact h.of_sameControl rfl

/-- Settles O56: nothing is listed or written at power-on, and no mode is set. -/
theorem resetKeepsTheInvariant : Obligations.ResetKeepsTheInvariant :=
  ⟨State.reset_inv, by decide, fun h => absurd h (by decide), fun h => absurd h (by decide)⟩

/-- Settles O51: `RESET` gives every register the value it has at power-on. -/
theorem resetGivesEveryRegisterItsValue : Obligations.ResetGivesEveryRegisterItsValue := by
  unfold Obligations.ResetGivesEveryRegisterItsValue
  intro registersReset
  have hreset : registersReset State.reset := by
    refine ⟨fun c => ?_, by decide⟩
    have hlms : State.reset.lms.get c = Lms.seed := allChannels_get _ c
    have hsf : State.reset.prevSf.get c = 0 := allChannels_get _ c
    rw [hlms, hsf]
    decide
  refine ⟨hreset, fun s rest hp => ?_⟩
  have hstep : step s = .next (State.resetInput { s with pending := rest }) := step_cons hp
  exact ⟨_, hstep, hreset, rfl, rfl, rfl, rfl, rfl, rfl⟩

/-- Settles O52, by what each kind of instruction does: turned away, it raises an error or does nothing; a wire word
and a command that touches no stream keep both registers; the four stream operations move them as tabled. -/
theorem phaseChangesOnlyAsTabled : Obligations.PhaseChangesOnlyAsTabled := by
  intro i s t h
  by_cases hst : s.stopped t
  · obtain rfl | ⟨hp, e, rfl⟩ := State.stopped_cases hst
    · exact .inl ⟨rfl, rfl⟩
    · exact .inr (.inr (.inr (.inr (.inr ⟨hp, rfl, rfl⟩))))
  cases hi : isCommand i with
  | false =>
    rw [(exec_not_command_cases hi h).resolve_left hst]
    exact .inl ⟨rfl, rfl⟩
  | true =>
    rcases command_cases hi with hr | rfl | rfl | rfl | rfl
    · rw [((exec_register_cases hr h).resolve_left hst).frame]
      exact .inl ⟨rfl, rfl⟩
    · obtain ⟨-, p, -, hadm, -, rfl⟩ := (execEncOpen_next h).resolve_left hst
      exact .inr (.inl ⟨rfl, opensAdmitted_iff.mp hadm, rfl, rfl⟩)
    · obtain ⟨-, -, hadm, rfl⟩ := (execEncFrame_next h).resolve_left hst
      obtain ⟨hp, hm⟩ := frameAdmitted_iff.mp hadm
      rw [finishEncode_encodeFrameBody]
      by_cases hend : s.frameEnd = s.samples
      · exact .inr (.inr (.inr (.inl ⟨rfl, hp, hm, if_pos hend, hm, hend⟩)))
      · exact .inl ⟨if_neg hend, rfl⟩
    · obtain ⟨-, n, -, hadm, -, rfl⟩ := (execDecOpen_next h).resolve_left hst
      exact .inr (.inr (.inl ⟨rfl, opensAdmitted_iff.mp hadm, rfl, rfl⟩))
    · obtain ⟨-, -, hadm, -, rfl⟩ := (execDecFrame_next h).resolve_left hst
      obtain ⟨hp, hm⟩ := frameAdmitted_iff.mp hadm
      rw [decodeFrameBody_eq]
      obtain ⟨-, -, heq⟩ | ⟨-, heq⟩ := finishDecode_cases (s.afterUnits (headerFsamples s.headerWord).toNat)
      · rw [heq]; exact .inl ⟨rfl, rfl⟩
      · rw [heq]; exact .inr (.inr (.inr (.inr (.inl ⟨rfl, hp, hm, rfl, hm⟩))))

/-- Settles O53: a command that is turned away writes no register or space the statement speaks of, one that touches no
stream has its listed effect, and each stream operation is listed for all it writes, a frame's LMS writes within the
stream's channels. -/
theorem onlyListedOperationsWrite : Obligations.OnlyListedOperationsWrite := by
  intro i s t hi h
  by_cases hst : s.stopped t
  · obtain rfl | ⟨-, e, rfl⟩ := State.stopped_cases hst <;> simp
  rcases command_cases hi with hr | rfl | rfl | rfl | rfl
  · obtain ⟨hframe, hlms, hsearch⟩ := (exec_register_cases hr h).resolve_left hst
    rw [hframe]
    simp only [ne_eq, not_true_eq_false, or_self, false_imp_iff, and_true, true_and]
    refine ⟨fun c hc => ?_, fun hs => .inr (.inr (hsearch hs))⟩
    rcases hlms c hc with hinit | hchannel
    · exact .inl hinit
    · exact .inr (.inr (.inr (.inr hchannel)))
  · obtain ⟨-, p, -, -, -, rfl⟩ := (execEncOpen_next h).resolve_left hst
    simp [openEncoder]
  · obtain ⟨-, -, -, rfl⟩ := (execEncFrame_next h).resolve_left hst
    have hother : ∀ c, (encodeFrameBody s).lms.get c ≠ s.lms.get c → c.val < s.channels.toNat := fun c =>
      not_imp_comm.mp fun hge => encodeFrameBody_lms_other s (Nat.le_of_not_lt hge)
    rw [finishEncode_encodeFrameBody]
    simpa [State.afterEncode] using hother
  · obtain ⟨-, n, -, -, -, rfl⟩ := (execDecOpen_next h).resolve_left hst
    simp [openDecoder]
  · obtain ⟨-, -, -, -, rfl⟩ := (execDecFrame_next h).resolve_left hst
    generalize (headerFsamples s.headerWord).toNat = n
    have hother : ∀ c, (s.afterUnits n).lms.get c ≠ s.lms.get c → c.val < s.channels.toNat := fun c =>
      not_imp_comm.mp fun hge =>
        decodeUnits_lms_other _ c (frameUnits_other_channel (Nat.le_of_not_lt hge)) s
    rw [decodeFrameBody_eq]
    obtain ⟨-, -, heq⟩ | ⟨-, heq⟩ := finishDecode_cases (s.afterUnits n) <;> rw [heq] <;>
      simpa [State.afterUnits] using hother

end Sys2Proof.Machine

/-! ## The address spaces (20_memory.md) -/

namespace Sys2Proof.Machine

open Sys2Proof.Claims

/-! ### What a step does to the streams -/

/-- The states agree on the four spaces and on the registers that say what a stream holds in them. -/
def State.sameStream (s t : State) : Prop :=
  t = { s with
    lms := t.lms, prevSf := t.prevSf, samples := t.samples, errorCount := t.errorCount, phase := t.phase, err := t.err
    errInfo := t.errInfo, arg := t.arg, res := t.res, pending := t.pending }

theorem State.sameStream.of_stopped {s t : State} (h : s.stopped t) : s.sameStream t := by
  obtain rfl | ⟨-, e, rfl⟩ := State.stopped_cases h <;> rfl

theorem State.sameStream.of_registerEffect {i : Instr} {s t : State} (h : RegisterEffect i s t) : s.sameStream t := by
  rw [h.frame]; rfl

/-- Whether a frame ends the decode or not, the stream is the one its units left. -/
theorem sameStream_finishDecode (s : State) : s.sameStream (finishDecode s) := by
  obtain ⟨-, -, h⟩ | ⟨-, h⟩ := finishDecode_cases s <;> rw [h] <;> rfl

/-- All that a command can do to the streams: none of them touched, or one opened, or a frame of one taken. -/
inductive StreamEffect (s : State) : State → Prop
  | quiet {t : State} (h : s.sameStream t) : StreamEffect s t
  | encOpen (p : EncOpenOperands) : StreamEffect s ((openEncoder p s).returns [])
  | encFrame (hm : s.mode = .enc) : StreamEffect s (s.afterEncode.returns [])
  | decOpen (n : Nat) : StreamEffect s ((openDecoder n s).returns [])
  | decFrame (n : Nat) (hm : s.mode = .dec) (hn : s.samplePos.toNat + n ≤ s.samples.toNat) :
      StreamEffect s ((finishDecode (s.afterUnits n)).returns [])

theorem exec_streamEffect {i : Instr} {s t : State} (hi : isCommand i = true) (ht : exec i s = .next t) :
    StreamEffect s t := by
  by_cases hst : s.stopped t
  · exact .quiet (.of_stopped hst)
  rcases command_cases hi with hr | rfl | rfl | rfl | rfl
  · exact .quiet (.of_registerEffect ((exec_register_cases hr ht).resolve_left hst))
  · obtain ⟨-, p, -, -, -, rfl⟩ := (execEncOpen_next ht).resolve_left hst
    exact .encOpen p
  · obtain ⟨-, -, hadm, rfl⟩ := (execEncFrame_next ht).resolve_left hst
    rw [finishEncode_encodeFrameBody]
    exact .encFrame (frameAdmitted_iff.mp hadm).2
  · obtain ⟨-, n, -, -, -, rfl⟩ := (execDecOpen_next ht).resolve_left hst
    exact .decOpen n.toNat
  · obtain ⟨-, -, hadm, hcheck, rfl⟩ := (execDecFrame_next ht).resolve_left hst
    rw [decodeFrameBody_eq]
    exact .decFrame _ (frameAdmitted_iff.mp hadm).2 (checkFrame_bounds hcheck).1

/-- All that a step can do to the streams: what a command does, `RESET`, or the fill of an input buffer. -/
theorem step_streamEffect {s t : State} (h : step s = .next t) :
    (∃ arg rest, StreamEffect { s with arg := arg, pending := rest } t) ∨
    (∃ rest, t = State.resetInput { s with pending := rest }) ∨
    (∃ bytes rest, t = { s with bsin := Memory.ofList bytes, pending := rest }) ∨
    (∃ samples rest, t = { s with pcmin := Memory.ofList samples, pending := rest }) := by
  obtain ⟨-, rfl⟩ | ⟨w, arg, rest, -, ⟨i, hd, ht⟩ | ⟨e, -, ht⟩⟩ | ⟨rest, -, rfl⟩ | ⟨bytes, rest, -, -, rfl⟩ |
    ⟨samples, rest, -, -, rfl⟩ := step_cases h
  · exact .inl ⟨t.arg, t.pending, .quiet rfl⟩
  · exact .inl ⟨arg, rest, exec_streamEffect (decodeCommand_isCommand hd) ht⟩
  · exact .inl ⟨arg, rest, .quiet (.of_stopped ht)⟩
  · exact .inr (.inl ⟨rest, rfl⟩)
  · exact .inr (.inr (.inl ⟨bytes, rest, rfl⟩))
  · exact .inr (.inr (.inr ⟨samples, rest, rfl⟩))

/-! ### The canonical form of the spaces -/

theorem put_wf (s : State) (v : WireWord) (h : Memory.wf s.bsout) : Memory.wf (s.put v).bsout := memWrite_wf h _ _ _

/-- The body of `ENC.FRAME` writes `BSOUT` by `put` alone. -/
theorem encodeFrameBody_wf {s : State} (h : Memory.wf s.bsout) : Memory.wf (encodeFrameBody s).bsout := by
  have hprelude : Memory.wf s.afterPrelude.bsout :=
    List.foldlRecOn (motive := fun u : State => Memory.wf u.bsout) _ _ (put_wf s _ h)
      fun _ hu _ _ => put_wf _ _ (put_wf _ _ hu)
  rw [encodeFrameBody_eq]
  exact List.foldlRecOn (motive := fun u : State => Memory.wf u.bsout) _ _ hprelude fun _ hu _ _ => put_wf _ _ hu

theorem State.sameStream.buffersWf {s t : State} (h : s.sameStream t) (hs : s.buffersWf) : t.buffersWf := by
  rw [h]; exact hs

theorem StreamEffect.buffersWf {s t : State} (he : StreamEffect s t) (hs : s.buffersWf) : t.buffersWf := by
  obtain ⟨hbsin, hbsout, hpcmin, hpcmout⟩ := hs
  cases he with
  | quiet h => exact h.buffersWf ⟨hbsin, hbsout, hpcmin, hpcmout⟩
  | encOpen p => exact ⟨hbsin, memWrite_wf hbsout _ _ _, hpcmin, hpcmout⟩
  | encFrame hm => exact ⟨hbsin, encodeFrameBody_wf hbsout, hpcmin, hpcmout⟩
  | decOpen n => exact ⟨hbsin, hbsout, hpcmin, List.Pairwise.nil⟩
  | decFrame n hm hn =>
    exact (sameStream_finishDecode _).buffersWf ⟨hbsin, hbsout, hpcmin, decodeUnits_wf _ _ hpcmout⟩

/-- Settles O58: a command writes the spaces by writes that keep the addresses rising, `RESET` keeps the spaces, and a
buffer the host filled is listed from 0 up. -/
theorem stepKeepsCanonicalSpaces : Obligations.StepKeepsCanonicalSpaces := by
  intro s t hs hstep
  obtain ⟨arg, rest, he⟩ | ⟨rest, rfl⟩ | ⟨bytes, rest, rfl⟩ | ⟨samples, rest, rfl⟩ := step_streamEffect hstep
  · exact he.buffersWf hs
  · exact hs
  · exact ⟨Memory.wf_ofList bytes, hs.2⟩
  · exact ⟨hs.1, hs.2.1, Memory.wf_ofList samples, hs.2.2.2⟩

/-! ### The samples a decode has emitted -/

/-- A frame of `n` samples per channel extends the samples `PCMOUT` holds by its own (R54, R68). -/
theorem afterUnits_pcmoutExact {s : State} {n : Nat} (hinv : s.Inv) (hs : s.pcmoutExact) (hm : s.mode = .dec)
    (hn : s.samplePos.toNat + n ≤ s.samples.toNat) : (s.afterUnits n).pcmoutExact := by
  intro _ i
  obtain ⟨hC, hC8, -⟩ := hinv.descriptor (by simp [hm])
  have hlt := s.samples.isLt
  have hpos : (s.afterUnits n).samplePos.toNat = s.samplePos.toNat + n := Nat.mod_eq_of_lt (by omega)
  have hle : s.samplePos.toNat * s.channels.toNat ≤ (s.samplePos.toNat + n) * s.channels.toNat :=
    Nat.mul_le_mul_right _ (by omega)
  have hwrites := frameUnits_writes s n hC hC8 i
  obtain ⟨hold, hnew⟩ := decodeUnits_pcmout (frameUnits s.bsinPos.toNat s.channels.toNat n) s hC
  rw [hpos]
  change (Memory.read (decodeUnits (frameUnits s.bsinPos.toNat s.channels.toNat n) s).pcmout i).isSome = true ↔
    i < (s.samplePos.toNat + n) * s.channels.toNat
  by_cases hi : ∃ u ∈ frameUnits s.bsinPos.toNat s.channels.toNat n, writesSample s u.2 i
  · exact iff_of_true (hnew i hi) (hwrites.mp hi).2
  · rw [hold i fun u hu hw => hi ⟨u, hu, hw⟩, hs hm i]
    rw [hwrites] at hi
    omega

theorem State.sameStream.pcmoutExact {s t : State} (h : s.sameStream t) (hs : s.pcmoutExact) : t.pcmoutExact := by
  rw [h]; exact hs

theorem StreamEffect.pcmoutExact {s t : State} (he : StreamEffect s t) (hinv : s.Inv) (hs : s.pcmoutExact) :
    t.pcmoutExact := by
  cases he with
  | quiet h => exact h.pcmoutExact hs
  | encOpen p => exact nofun
  | encFrame hm => exact fun hdec => absurd (hm.symm.trans hdec) nofun
  | decOpen n => intro _ i; simp [openDecoder]
  | decFrame n hm hn => exact (sameStream_finishDecode _).pcmoutExact (afterUnits_pcmoutExact hinv hs hm hn)

/-- Settles O59: `DEC.OPEN` empties `PCMOUT` and a frame adds its own samples; nothing else moves a decode's position or
writes `PCMOUT`, and `RESET` leaves no decode. -/
theorem stepKeepsPcmoutExact : Obligations.StepKeepsPcmoutExact := by
  intro s t hinv hs hstep
  obtain ⟨arg, rest, he⟩ | ⟨rest, rfl⟩ | ⟨bytes, rest, rfl⟩ | ⟨samples, rest, rfl⟩ := step_streamEffect hstep
  · exact he.pcmoutExact (hinv.of_sameControl rfl) hs
  · exact nofun
  · exact hs
  · exact hs

/-! ### The bytes an encode has written -/

/-- Appending words leaves no gap below the cursor. -/
theorem Appended.written {s t : State} {k : Nat} (h : Appended s t k)
    (hs : ∀ a, a < s.bsoutPos.toNat → (Memory.read s.bsout a).isSome = true) :
    ∀ a, a < t.bsoutPos.toNat → (Memory.read t.bsout a).isSome = true := by
  intro a ha
  rw [h.pos] at ha
  by_cases hold : a < s.bsoutPos.toNat
  · rw [h.outside a (.inl hold)]; exact hs a hold
  · exact h.inside a (by omega) ha

/-- `ENC.OPEN` writes the file header, the eight bytes below the cursor it sets (R52). -/
theorem openEncoder_bsoutWritten (p : EncOpenOperands) (s : State) : (openEncoder p s).bsoutWritten := by
  intro _ a ha
  have h8 : a < 8 := ha
  have hread := memWrite_read_inside s.bsout 0 8 (fileHeaderPack (BitVec.ofNat 32 p.samples)).toNat a h8
  rw [Nat.zero_add] at hread
  exact Option.isSome_of_eq_some hread

theorem afterEncode_bsoutWritten {s : State} (hinv : s.Inv) (hs : s.bsoutWritten) (hm : s.mode = .enc) :
    s.afterEncode.bsoutWritten := by
  obtain ⟨-, hC, -⟩ := hinv.descriptor (by simp [hm])
  have hlen : s.nextFrameLength ≤ 5120 := Nat.min_le_left _ _
  have hbytes := frameBytes_lt hC hlen
  have hpos := hinv.bsoutPos_le
  have htotal := hinv.outTotal_lt
  exact fun _ => (encodeFrameBody_appends s hC (by omega)).written (hs hm)

theorem State.sameStream.bsoutWritten {s t : State} (h : s.sameStream t) (hs : s.bsoutWritten) : t.bsoutWritten := by
  rw [h]; exact hs

theorem StreamEffect.bsoutWritten {s t : State} (he : StreamEffect s t) (hinv : s.Inv) (hs : s.bsoutWritten) :
    t.bsoutWritten := by
  cases he with
  | quiet h => exact h.bsoutWritten hs
  | encOpen p => exact openEncoder_bsoutWritten p s
  | encFrame hm => exact afterEncode_bsoutWritten hinv hs hm
  | decOpen n => exact nofun
  | decFrame n hm hn =>
    refine (sameStream_finishDecode (s.afterUnits n)).bsoutWritten ?_
    exact fun henc => absurd (hm.symm.trans henc) nofun

/-- Settles O60: `ENC.OPEN` writes the bytes below its cursor and a frame appends whole words; nothing else moves the
cursor of an encode or writes `BSOUT`, and `RESET` leaves no encode. -/
theorem stepKeepsBsoutWritten : Obligations.StepKeepsBsoutWritten := by
  intro s t hinv hs hstep
  obtain ⟨arg, rest, he⟩ | ⟨rest, rfl⟩ | ⟨bytes, rest, rfl⟩ | ⟨samples, rest, rfl⟩ := step_streamEffect hstep
  · exact he.bsoutWritten (hinv.of_sameControl rfl) hs
  · exact nofun
  · exact hs
  · exact hs

/-! ### The host fills the input buffers -/

section
variable {s : State} {rest : List HostAction}

theorem step_fillBsin_refused {bytes : List Byte} (hp : s.pending = .fillBsin bytes :: rest)
    (h : s.phase = .needFrame ∧ s.mode = .dec) : step s = .refused .hostBreaksBufferRule :=
  (step_cons hp).trans (if_pos (frameAdmitted_iff (s := { s with pending := rest }).mpr h))

theorem step_fillBsin {bytes : List Byte} (hp : s.pending = .fillBsin bytes :: rest)
    (h : ¬ (s.phase = .needFrame ∧ s.mode = .dec)) :
    step s = .next { s with bsin := Memory.ofList bytes, pending := rest } :=
  (step_cons hp).trans (if_neg (mt frameAdmitted_iff.mp h))

theorem step_fillPcmin_refused {samples : List Sample} (hp : s.pending = .fillPcmin samples :: rest)
    (h : s.phase = .needFrame ∧ s.mode = .enc) : step s = .refused .hostBreaksBufferRule :=
  (step_cons hp).trans (if_pos (frameAdmitted_iff (s := { s with pending := rest }).mpr h))

theorem step_fillPcmin {samples : List Sample} (hp : s.pending = .fillPcmin samples :: rest)
    (h : ¬ (s.phase = .needFrame ∧ s.mode = .enc)) :
    step s = .next { s with pcmin := Memory.ofList samples, pending := rest } :=
  (step_cons hp).trans (if_neg (mt frameAdmitted_iff.mp h))

end

/-- Settles O55: with nothing waiting the step is idle; a fill is refused where a running stream reads the buffer, and
elsewhere leaves a buffer that reads as the list it was filled with. -/
theorem hostFillsBuffersBetweenStreams : Obligations.HostFillsBuffersBetweenStreams := by
  intro s rest
  refine ⟨step_idle, fun bytes hp => ⟨step_fillBsin_refused hp, fun hidle => ?_⟩,
    fun samples hp => ⟨step_fillPcmin_refused hp, fun hidle => ?_⟩⟩
  · exact ⟨_, step_fillBsin hp hidle, rfl, Memory.read_ofList bytes⟩
  · exact ⟨_, step_fillPcmin hp hidle, rfl, Memory.read_ofList samples⟩

end Sys2Proof.Machine

/-! ## The encodings (30_encoding.md) -/

namespace Sys2Proof.Machine

open Sys2Proof.Claims

/-! ### The opcode map, row by row -/

/-- The command word of a row: the fields it uses, zero in the others (R71, R72 (b)). -/
def commandOfRow (row : CommandRow) (c sf : BitVec 4) (imm : BitVec 16) : CommandWord :=
  commandWord row.op (if row.usesC then c else 0) (if row.usesSf then sf else 0) (if row.usesImm then imm else 0)

/-- The `op` byte selects its row: no other row has it. -/
theorem find?_op_eq_some {row : CommandRow} (h : row ∈ commandTable) :
    commandTable.find? (fun r => r.op == row.op) = some row := by
  have hsome : (commandTable.find? (fun r => r.op == row.op)).isSome :=
    List.find?_isSome.mpr ⟨row, h, beq_self_eq_true _⟩
  obtain ⟨found, hfound⟩ := Option.isSome_iff_exists.mp hsome
  have hop : found.op = row.op := by simpa using List.find?_some hfound
  rw [hfound, List.inj_on_of_nodup_map commandTable_ops_differ (List.mem_of_find?_eq_some hfound) h hop]

section
variable {w : CommandWord} {row : CommandRow} (hrow : row ∈ commandTable) (hop : row.op = opField w)
include hrow hop

theorem decodeCommand_eq_build (hw : row.unusedZero w = true) :
    decodeCommand w = .ok (row.build (cField w) (sfField w) (immField w)) := by
  simp [decodeCommand, ← hop, find?_op_eq_some hrow, hw]

theorem decodeCommand_eq_unusedField (hw : row.unusedZero w = false) : decodeCommand w = .error .unusedField := by
  simp [decodeCommand, ← hop, find?_op_eq_some hrow, hw]

end

theorem decodeCommand_eq_reservedOp {w : CommandWord} (h : ∀ row ∈ commandTable, row.op ≠ opField w) :
    decodeCommand w = .error .reservedOp := by
  have hnone : commandTable.find? (fun row => row.op == opField w) = none := by simpa using h
  simp [decodeCommand, hnone]

/-- A word that decodes is one of a row, and the instruction is the row's. -/
theorem decodeCommand_eq_ok {w : CommandWord} {i : Instr} (h : decodeCommand w = .ok i) :
    ∃ row ∈ commandTable, row.op = opField w ∧ row.unusedZero w = true ∧
      i = row.build (cField w) (sfField w) (immField w) := by
  by_cases hmapped : ∀ row ∈ commandTable, row.op ≠ opField w
  · rw [decodeCommand_eq_reservedOp hmapped] at h; cases h
  · push Not at hmapped
    obtain ⟨row, hrow, hop⟩ := hmapped
    cases hz : row.unusedZero w
    · rw [decodeCommand_eq_unusedField hrow hop hz] at h; cases h
    · rw [decodeCommand_eq_build hrow hop hz, Except.ok.injEq] at h
      exact ⟨row, hrow, hop, hz, h.symm⟩

theorem unusedZero_eq_true {row : CommandRow} {w : CommandWord} : row.unusedZero w = true ↔
    (row.usesC = false → cField w = 0) ∧ (row.usesSf = false → sfField w = 0) ∧
      (row.usesImm = false → immField w = 0) := by
  simp [CommandRow.unusedZero, and_assoc, Bool.or_eq_true, Decidable.or_iff_not_imp_left]

/-- The encoder writes the row's word. -/
theorem encode_build {row : CommandRow} (h : row ∈ commandTable) (c sf : BitVec 4) (imm : BitVec 16) :
    encode (row.build c sf imm) = .command (commandOfRow row c sf imm) := by
  revert row
  simp [commandTable, encode, commandOfRow]

/-- A row's instruction holds the fields the row uses and no other. -/
theorem build_usedFields {row : CommandRow} (h : row ∈ commandTable) (c sf : BitVec 4) (imm : BitVec 16) :
    row.build (if row.usesC then c else 0) (if row.usesSf then sf else 0) (if row.usesImm then imm else 0) =
      row.build c sf imm := by
  revert row
  simp [commandTable]

/-- Every command is the instruction of a row. -/
theorem command_eq_build {i : Instr} (hi : isCommand i = true) :
    ∃ row ∈ commandTable, ∃ c sf imm, i = row.build c sf imm := by
  cases i with
  | fileHeader samples => cases hi
  | frameHeader role ch sr n z => cases hi
  | lmsHistory c h0 h1 h2 h3 => cases hi
  | lmsWeights c w0 w1 w2 w3 => cases hi
  | slice p sf qs => cases hi
  | _ => simp [commandTable]

/-- A word with zero in every field its row does not use is the row's word of its fields. -/
theorem commandOfRow_fields {row : CommandRow} {w : CommandWord} (hop : row.op = opField w)
    (hz : row.unusedZero w = true) : commandOfRow row (cField w) (sfField w) (immField w) = w := by
  obtain ⟨hc, hsf, himm⟩ := unusedZero_eq_true.mp hz
  have used {n : Nat} {b : Bool} {x : BitVec n} (h : b = false → x = 0) : (if b then x else 0) = x := by
    cases b
    · exact (h rfl).symm
    · rfl
  rw [commandOfRow, used hc, used hsf, used himm, hop, commandWord_fields]

theorem decodeCommand_commandOfRow {row : CommandRow} (h : row ∈ commandTable) (c sf : BitVec 4) (imm : BitVec 16) :
    decodeCommand (commandOfRow row c sf imm) = .ok (row.build c sf imm) := by
  have hz : row.unusedZero (commandOfRow row c sf imm) = true := by
    rw [unusedZero_eq_true]; simp +contextual [commandOfRow]
  rw [decodeCommand_eq_build h (by simp [commandOfRow]) hz]
  simp only [commandOfRow, cField_commandWord, sfField_commandWord, immField_commandWord, build_usedFields h]

/-! ### Decoding and encoding are inverse -/

/-- Settles O2: a command is a row's instruction and decodes from the row's word; a wire word gives back the fields it is
packed of. -/
theorem decodeOfEncodeIsTheInstruction : Obligations.DecodeOfEncodeIsTheInstruction := by
  intro i
  by_cases hi : isCommand i = true
  · obtain ⟨row, hrow, c, sf, imm, rfl⟩ := command_eq_build hi
    rw [encode_build hrow]
    exact decodeCommand_commandOfRow hrow c sf imm
  · cases i with
    | fileHeader samples => simp [encode, decode, decodeWire]
    | frameHeader role ch sr n z => simp [encode, decode, decodeWire]
    | lmsHistory c h0 h1 h2 h3 => simp [encode, decode, decodeWire]
    | lmsWeights c w0 w1 w2 w3 => simp [encode, decode, decodeWire]
    | slice p sf qs => simp [encode, decode, decodeWire]
    | _ => exact absurd rfl hi

/-- Settles O3: the fields of a word that decodes, packed again, are the word. -/
theorem encodeOfDecodeIsTheWord : Obligations.EncodeOfDecodeIsTheWord := by
  intro l i h
  cases l with
  | command w =>
    obtain ⟨row, hrow, hop, hz, rfl⟩ := decodeCommand_eq_ok h
    rw [encode_build hrow, commandOfRow_fields hop hz]
  | wire p w =>
    cases p with
    | fileHeader =>
      rw [decode, decodeWire] at h
      split at h
      next hmagic => cases h; rw [encode, fileHeaderPack_fields hmagic]
      next => cases h
    | frameHeader role => cases h; rw [encode, frameHeaderPack_fields]
    | history c => cases h; exact congrArg _ (pack4_unpack4 w)
    | weights c => cases h; exact congrArg _ (pack4_unpack4 w)
    | slice p => cases h; rw [encode, slicePack_fields]

/-- Settles O1: each word is evaluated. -/
theorem commandWordsDecodeAsTabled : Obligations.CommandWordsDecodeAsTabled := by
  unfold Obligations.CommandWordsDecodeAsTabled
  decide

/-- Settles O6: `pack4` and `unpack4` are inverse, and each pattern stands at its place. -/
theorem fourRegistersPackAndUnpack : Obligations.FourRegistersPackAndUnpack :=
  ⟨fun v => ⟨unpack4_pack4 v, pack4_toNat v⟩, pack4_unpack4⟩

/-! ### Words that do not decode -/

theorem mem_mappedOps {n : Nat} : n ∈ mappedOps ↔ ∃ row ∈ commandTable, row.op.toNat = n := by
  rw [show mappedOps = commandTable.map (fun row => row.op.toNat) from rfl, List.mem_map]

/-- The lists of R73 of the rows that use a field are the columns of the opcode map. -/
theorem usesField_iff_mem : ∀ row ∈ commandTable,
    (row.usesC = true ↔ row.op.toNat ∈ opsWithChannel) ∧ (row.usesSf = true ↔ row.op.toNat ∈ opsWithScaleFactor) ∧
      (row.usesImm = true ↔ row.op.toNat ∈ opsWithImmediate) := by
  decide

/-- A word that does not decode is refused by the step that takes it. -/
theorem step_eq_raise_of_decode_error {s : State} {w : CommandWord} {arg : List Int} {rest : List HostAction}
    {e : DecodeError} (hpending : s.pending = .command w arg :: rest) (hp : s.phase ≠ .error)
    (h : decodeCommand w = .error e) :
    step s = .next (State.raise { s with arg := arg, pending := rest } (decodeCause e)) := by
  rw [step_command hpending, issue_error h, if_neg hp]

/-- Settles O4: the `op` byte selects a row or none, and the row says which fields must be zero. -/
theorem reservedAndMalformedWordsRaise : Obligations.ReservedAndMalformedWordsRaise := by
  intro s w arg rest hpending hp s0 op c sf imm
  have hopw : (opField w).toNat = op := opField_toNat w
  refine ⟨fun hop => step_eq_raise_of_decode_error hpending hp (decodeCommand_eq_reservedOp ?_),
    fun hop hset => step_eq_raise_of_decode_error (e := .unusedField) hpending hp ?_⟩
  · intro row hrow heq
    exact hop (mem_mappedOps.mpr ⟨row, hrow, heq ▸ hopw⟩)
  · obtain ⟨row, hrow, hrowop⟩ := mem_mappedOps.mp hop
    refine decodeCommand_eq_unusedField hrow (BitVec.eq_of_toNat_eq (hrowop.trans hopw.symm)) ?_
    obtain ⟨husesC, husesSf, husesImm⟩ := usesField_iff_mem row hrow
    rw [hrowop] at husesC husesSf husesImm
    have field_eq_zero {n m : Nat} {x : BitVec n} {used : Bool} {ops : List Nat} (hused : used = true ↔ op ∈ ops)
        (hnot : op ∉ ops) (hz : used = false → x = 0) (hx : x.toNat = m) : m = 0 := by
      rw [← hx, hz (Bool.eq_false_iff.mpr (mt hused.mp hnot))]; rfl
    rw [Bool.eq_false_iff, Ne, unusedZero_eq_true]
    rintro ⟨hc, hsf, himm⟩
    rcases hset with ⟨hnot, hne⟩ | ⟨hnot, hne⟩ | ⟨hnot, hne⟩
    · exact hne (field_eq_zero husesC hnot hc (cField_toNat w))
    · exact hne (field_eq_zero husesSf hnot hsf (sfField_toNat w))
    · exact hne (field_eq_zero husesImm hnot himm (immField_toNat w))

end Sys2Proof.Machine

/-! ## The tests of a command in order (30_encoding.md R72 (c) to (f), 44_stream.md R199) -/

namespace Sys2Proof.Machine

open Sys2Proof.Claims

/-! ### Operand forms as tests -/

/-- `x` is the test of `P`: it fails where `P` does not hold, and then with the error `e`. -/
def Tests {α : Type} (x : Except Cause α) (P : Prop) (e : Cause) : Prop := ∀ e', x = .error e' ↔ ¬ P ∧ e' = e

theorem Tests.error_of_not {α : Type} {x : Except Cause α} {P : Prop} {e : Cause} (h : Tests x P e) (hP : ¬ P) :
    x = .error e := (h e).mpr ⟨hP, rfl⟩

theorem Tests.ok_of {α : Type} {x : Except Cause α} {P : Prop} {e : Cause} (h : Tests x P e) (hP : P) :
    ∃ a, x = .ok a := by
  cases hx : x with
  | ok a => exact ⟨a, rfl⟩
  | error e' => exact absurd hP ((h e').mp hx).1

theorem tests_ite {α : Type} {b : Bool} {a : α} {P : Prop} {e : Cause} (h : b = true ↔ P) :
    Tests (if b then .ok a else .error e) P e := by
  intro e'
  cases b
  · simp [← h, eq_comm]
  · simp [← h]

theorem tests_error {α : Type} {P : Prop} {e : Cause} (h : ¬ P) : Tests (.error e : Except Cause α) P e := by
  intro e'
  simp [h, eq_comm]

theorem require_tests {b : Bool} {P : Prop} {e : Cause} (h : b = true ↔ P) : Tests (require b e) P e := tests_ite h

theorem channelLegal_of_none {i : Instr} (h : channelNumber i = none) : channelLegal i := by
  intro c hc
  rw [h] at hc
  cases hc

theorem channelOperand_tests {i : Instr} {c : BitVec 4} (h : channelNumber i = some c.toNat) :
    Tests (channelOperand c) (channelLegal i) (illegal 3) := by
  intro e
  have hlegal : channelLegal i ↔ c.toNat ≤ 7 := by simp [channelLegal, h]
  rw [channelOperand_eq_error, hlegal, Nat.not_le]
  rfl

theorem lenOperand_tests (len : BitVec 16) :
    Tests (lenOperand len) (1 ≤ len.toNat ∧ len.toNat ≤ 20) (illegal 4) := fun _ => lenOperand_eq_error

theorem indexOperand_tests (i : BitVec 16) (top : Nat) : Tests (indexOperand i top) (i.toNat ≤ top) (illegal 4) :=
  fun _ => by rw [indexOperand_eq_error, Nat.not_le]

/-- The numbers `RDREG` reads are those of 10_state.md R31. -/
theorem readRegister_isSome {r : BitVec 16} {s : State} : (s.readRegister r).isSome = true ↔ immLegal (.rdreg r) := by
  show _ ↔ r.toNat ≤ 0x0A ∨ (0x10 ≤ r.toNat ∧ r.toNat ≤ 0x17)
  unfold State.readRegister
  split
  case h_20 => simp only [imp_false, Option.isSome_none, Bool.false_eq_true, false_iff] at *; omega
  all_goals rename_i h; simp [h]

theorem registerOperand_tests (r : BitVec 16) (s : State) :
    Tests (registerOperand r s) (immLegal (.rdreg r)) (illegal 4) := by
  rw [← readRegister_isSome (s := s)]
  unfold registerOperand
  cases s.readRegister r with
  | none => exact tests_error (by simp)
  | some v => intro e; simp

theorem isInt16_iff {v : Int} : isInt16 v = true ↔ int16 v := by simp [isInt16, int16]

theorem isInt64_iff {v : Int} : isInt64 v = true ↔ int64 v := by
  simp only [isInt64, int64, Bool.and_eq_true, decide_eq_true_eq]; omega

theorem isUnsigned64_iff {v : Int} : isUnsigned64 v = true ↔ word64 v := by simp [isUnsigned64, word64]

theorem isResidual_iff {v : Int} : isResidual v = true ↔ -2147483648 < v ∧ v < 2147483648 := by simp [isResidual]

theorem noOperand_tests (arg : List Int) : Tests (noOperand arg) (arg = []) (illegal 5) := fun _ => noOperand_eq_error

section
variable {range : Int → Bool} {P : Int → Prop} (hrange : ∀ {v}, range v = true ↔ P v) (arg : List Int)
include hrange

theorem oneOperand_tests : Tests (oneOperand range arg) (arg.length = 1 ∧ ∀ v ∈ arg, P v) (illegal 5) := by
  unfold oneOperand
  split
  · exact tests_ite (by simp [hrange])
  next h =>
    refine tests_error fun ⟨hlen, _⟩ => ?_
    obtain ⟨a, rfl⟩ := List.length_eq_one_iff.mp hlen
    exact h a rfl

theorem twoOperands_tests : Tests (twoOperands range arg) (arg.length = 2 ∧ ∀ v ∈ arg, P v) (illegal 5) := by
  unfold twoOperands
  split
  · exact tests_ite (by simp [hrange])
  next h =>
    refine tests_error fun ⟨hlen, _⟩ => ?_
    obtain ⟨a, b, rfl⟩ := List.length_eq_two.mp hlen
    exact h a b rfl

end

theorem clampOperands_tests (arg : List Int) :
    Tests (clampOperands arg) (arg.length = 3 ∧ ∀ v ∈ arg, int64 v) (illegal 5) := by
  unfold clampOperands
  split
  · exact tests_ite (by simp [isInt64_iff, and_assoc])
  next h =>
    refine tests_error fun ⟨hlen, _⟩ => ?_
    obtain ⟨v, lo, hi, rfl⟩ := List.length_eq_three.mp hlen
    exact h v lo hi rfl

theorem encOpenOperands_tests (arg : List Int) :
    Tests (encOpenOperands arg) (arg.length = 4 ∧ ∀ v ∈ arg, word64 v) (illegal 5) := by
  unfold encOpenOperands
  split
  · exact tests_ite (by simp [isUnsigned64_iff, and_assoc])
  next h =>
    refine tests_error fun ⟨hlen, _⟩ => ?_
    match arg, hlen with
    | [rate, channels, samples, pcmLen], _ => exact h rate channels samples pcmLen rfl

theorem samplesOperand_tests {len : BitVec 16} {n : Nat} (hn : lenOperand len = .ok n) (arg : List Int) :
    Tests (samplesOperand n arg) (arg.length = len.toNat ∧ ∀ v ∈ arg, int16 v) (illegal 5) := by
  intro e
  obtain ⟨rfl, -⟩ := lenOperand_eq_ok.mp hn
  simp only [samplesOperand_eq_error, List.all_eq_true, isInt16_iff]

/-! ### The checks of a stream and of a frame raise errors of their own (60_exceptions.md R220) -/

/-- Every error of `x` has a code of the set. -/
def RaisesOnly {α : Type} (codes : ErrorCode → Prop) (x : Except Cause α) : Prop := ∀ e, x = .error e → codes e.code

theorem RaisesOnly.require {codes : ErrorCode → Prop} {b : Bool} {e : Cause} (h : codes e.code) :
    RaisesOnly codes (require b e) := by
  intro e' he
  rw [← (require_eq_error.mp he).2]
  exact h

theorem RaisesOnly.bind {α β : Type} {codes : ErrorCode → Prop} {x : Except Cause α} {f : α → Except Cause β}
    (hx : RaisesOnly codes x) (hf : ∀ a, RaisesOnly codes (f a)) : RaisesOnly codes (x >>= f) := by
  intro e he
  rcases bind_eq_error.mp he with he | ⟨a, -, he⟩
  · exact hx e he
  · exact hf a e he

theorem RaisesOnly.mono {α : Type} {p q : ErrorCode → Prop} {x : Except Cause α} (h : RaisesOnly p x)
    (hpq : ∀ c, p c → q c) : RaisesOnly q x := fun e he => hpq _ (h e he)

theorem checkParameters_raisesOnly (p : EncOpenOperands) :
    RaisesOnly (fun c => c = .invalidParameters ∨ c = .sampleCountMismatch) (checkParameters p) :=
  .bind (.require (.inl rfl)) fun _ => .bind (.require (.inl rfl)) fun _ => .bind (.require (.inl rfl)) fun _ =>
    .require (.inr rfl)

theorem checkStream_raisesOnly (n : Nat) (s : State) :
    RaisesOnly (fun c => c = .fileTooSmall ∨ c = .badMagic ∨ c = .noSamples ∨ c = .invalidStreamHeader)
      (checkStream n s) :=
  .bind (.require (.inl rfl)) fun _ => .bind (.require (.inr (.inl rfl))) fun _ =>
    .bind (.require (.inr (.inr (.inl rfl)))) fun _ => .bind (.require (.inr (.inr (.inr rfl)))) fun _ =>
    .bind (.require (.inr (.inr (.inr rfl)))) fun _ => .require (.inr (.inr (.inr rfl)))

theorem checkFrame_raisesOnly (s : State) :
    RaisesOnly (fun c => c = .frameTooSmall ∨ c = .invalidFrame) (checkFrame s) :=
  .bind (.require (.inl rfl)) fun _ => .bind (.require (.inr rfl)) fun _ => .bind (.require (.inr rfl)) fun _ =>
    .bind (.require (.inr rfl)) fun _ => .bind (.require (.inr rfl)) fun _ => .bind (.require (.inr rfl)) fun _ =>
    .bind (.require (.inr rfl)) fun _ => .require (.inr rfl)

/-! ### The phase a frame ends in -/

theorem finishEncode_phase_ne_error {s : State} (hp : s.phase ≠ .error) (n : Nat) :
    (finishEncode n (encodeFrameBody s)).phase ≠ .error := by
  have hbody : (encodeFrameBody s).phase = s.phase :=
    encodeFrameBody_keeps State.phase (fun _ _ => rfl) (fun _ _ _ => rfl) (fun _ => rfl) s
  obtain ⟨-, h⟩ | ⟨-, h⟩ := finishEncode_cases n (encodeFrameBody s)
  · rw [h]; simp
  · rw [h]; exact hbody ▸ hp

theorem decodeFrameBody_phase_ne_error {s : State} (hp : s.phase ≠ .error) (n : Nat) :
    (decodeFrameBody n s).phase ≠ .error := by
  rw [decodeFrameBody_eq]
  obtain ⟨-, -, h⟩ | ⟨-, h⟩ := finishDecode_cases (s.afterUnits n)
  · rw [h]; exact hp
  · rw [h]; simp

/-! ### The first failing test -/

/-- The verdict is a state outside the error phase, or an error that is no `IllegalCommand`. -/
def NoIllegal (v : Verdict) : Prop := (∀ t, v = .ok t → t.phase ≠ .error) ∧ RaisesOnly (· ≠ .illegalCommand) v

theorem noIllegal_ok {t : State} (h : t.phase ≠ .error) : NoIllegal (.ok t) :=
  ⟨fun _ ht => by cases ht; exact h, nofun⟩

theorem noIllegal_returns {t : State} (h : t.phase ≠ .error) (r : List Int) : NoIllegal (.ok (t.returns r)) :=
  noIllegal_ok h

theorem noIllegal_checked {x : Except Cause Unit} {t : State} {codes : ErrorCode → Prop} (hx : RaisesOnly codes x)
    (hcodes : ¬ codes .illegalCommand) (h : t.phase ≠ .error) (r : List Int) :
    NoIllegal (x >>= fun _ => .ok (t.returns r)) :=
  ⟨fun _ ht => by obtain ⟨-, -, ht⟩ := bind_eq_ok.mp ht; cases ht; exact h,
    .bind (hx.mono fun _ hc he => hcodes (he ▸ hc)) fun _ => nofun⟩

/-- The verdict is the error of the first of the tests that fails, and no `IllegalCommand` where none does. -/
def FailsFirst : List (Prop × Cause) → Verdict → Prop
  | [], v => NoIllegal v
  | (P, e) :: tests, v => (¬ P → v = .error e) ∧ (P → FailsFirst tests v)

section
variable {P : Prop} {e : Cause} {tests : List (Prop × Cause)}

theorem FailsFirst.fails {v : Verdict} (h : FailsFirst ((P, e) :: tests) v) (hP : ¬ P) : v = .error e := h.1 hP

theorem FailsFirst.passes {v : Verdict} (h : FailsFirst ((P, e) :: tests) v) (hP : P) : FailsFirst tests v := h.2 hP

/-- A test an operation does not make, since it holds of its operands. -/
theorem FailsFirst.skip {v : Verdict} (hP : P) (h : FailsFirst tests v) : FailsFirst ((P, e) :: tests) v :=
  ⟨fun hn => absurd hP hn, fun _ => h⟩

/-- The operation makes the test first. -/
theorem FailsFirst.test {α : Type} {x : Except Cause α} {f : α → Verdict} (hx : Tests x P e)
    (h : ∀ a, x = .ok a → FailsFirst tests (f a)) : FailsFirst ((P, e) :: tests) (x >>= f) := by
  refine ⟨fun hn => by rw [hx.error_of_not hn, error_bind], fun hP => ?_⟩
  obtain ⟨a, ha⟩ := hx.ok_of hP
  rw [ha, ok_bind]
  exact h a ha

end

/-- R72 (c) to (f), each with its sub-cause. -/
def legalityTests (i : Instr) (s : State) : List (Prop × Cause) :=
  [(channelLegal i, illegal 3), (immLegal i, illegal 4), (operandsLegal i s.arg, illegal 5),
    (phaseAdmits i s, illegal 6)]

/-- Outside the error phase a command settles a verdict that follows the tests in order. -/
theorem exec_failsFirst {i : Instr} {s : State} (hi : isCommand i = true) (hp : s.phase ≠ .error) :
    ∃ v, exec i s = settle s v ∧ FailsFirst (legalityTests i s) v := by
  have operated (v : Verdict) : operate s v = settle s v := operate_eq_settle hp v
  have done {t : State} {r : List Int} (ht : t.phase = s.phase) : NoIllegal (.ok (t.returns r)) :=
    noIllegal_returns (ht ▸ hp) r
  have noChannel {i : Instr} (h : channelNumber i = none) : channelLegal i := channelLegal_of_none h
  cases i with
  | nop => exact ⟨_, rfl, .skip (noChannel rfl) <| .skip trivial <| .test (noOperand_tests _) fun _ _ =>
      .skip trivial <| noIllegal_ok hp⟩
  | rdreg r => exact ⟨_, rfl, .skip (noChannel rfl) <| .test (registerOperand_tests r s) fun _ _ =>
      .test (noOperand_tests _) fun _ _ => .skip trivial <| done rfl⟩
  | fnClamp => exact ⟨_, operated _, .skip (noChannel rfl) <| .skip trivial <| .test (clampOperands_tests _)
      fun _ _ => .skip trivial <| done rfl⟩
  | fnClamps16 => exact ⟨_, operated _, .skip (noChannel rfl) <| .skip trivial <|
      .test (oneOperand_tests isInt64_iff _) fun _ _ => .skip trivial <| done rfl⟩
  | fnDivide sf => exact ⟨_, operated _, .skip (noChannel rfl) <| .skip trivial <|
      .test (oneOperand_tests isResidual_iff _) fun _ _ => .skip trivial <| done rfl⟩
  | tblRecip sf => exact ⟨_, operated _, .skip (noChannel rfl) <| .skip trivial <|
      .test (noOperand_tests _) fun _ _ => .skip trivial <| done rfl⟩
  | tblQuant i => exact ⟨_, operated _, .skip (noChannel rfl) <| .test (indexOperand_tests i 16) fun _ _ =>
      .test (noOperand_tests _) fun _ _ => .skip trivial <| done rfl⟩
  | tblDequant sf q => exact ⟨_, operated _, .skip (noChannel rfl) <| .test (indexOperand_tests q 7) fun _ _ =>
      .test (noOperand_tests _) fun _ _ => .skip trivial <| done rfl⟩
  | lmsInit => exact ⟨_, operated _, .skip (noChannel rfl) <| .skip trivial <| .test (noOperand_tests _) fun _ _ =>
      .skip trivial <| done rfl⟩
  | lmsLoad c => exact ⟨_, operated _, .test (channelOperand_tests rfl) fun _ _ => .skip trivial <|
      .test (twoOperands_tests isUnsigned64_iff _) fun _ _ => .skip trivial <| done rfl⟩
  | lmsStore c => exact ⟨_, operated _, .test (channelOperand_tests rfl) fun _ _ => .skip trivial <|
      .test (noOperand_tests _) fun _ _ => .skip trivial <| done rfl⟩
  | lmsPredict c => exact ⟨_, operated _, .test (channelOperand_tests rfl) fun _ _ => .skip trivial <|
      .test (noOperand_tests _) fun _ _ => .skip trivial <| done rfl⟩
  | lmsUpdate c => exact ⟨_, operated _, .test (channelOperand_tests rfl) fun _ _ => .skip trivial <|
      .test (twoOperands_tests isInt16_iff _) fun _ _ => .skip trivial <| done rfl⟩
  | decSlice c len => exact ⟨_, operated _, .test (channelOperand_tests rfl) fun _ _ =>
      .test (lenOperand_tests len) fun _ _ => .test (oneOperand_tests isUnsigned64_iff _) fun _ _ =>
      .skip trivial <| done rfl⟩
  | encTrial c sf len => exact ⟨_, operated _, .test (channelOperand_tests rfl) fun _ _ =>
      .test (lenOperand_tests len) fun _ hn => .test (samplesOperand_tests hn _) fun _ _ => .skip trivial <| done rfl⟩
  | encSlice c len => exact ⟨_, operated _, .test (channelOperand_tests rfl) fun _ _ =>
      .test (lenOperand_tests len) fun _ hn => .test (samplesOperand_tests hn _) fun _ _ => .skip trivial <| done rfl⟩
  | encOpen => exact ⟨_, operated _, .skip (noChannel rfl) <| .skip trivial <| .test (encOpenOperands_tests _)
      fun p _ => .test (require_tests opensAdmitted_iff) fun _ _ =>
      noIllegal_checked (checkParameters_raisesOnly p) (by simp) (by simp [openEncoder]) []⟩
  | encFrame => exact ⟨_, operated _, .skip (noChannel rfl) <| .skip trivial <| .test (noOperand_tests _) fun _ _ =>
      .test (require_tests frameAdmitted_iff) fun _ _ => noIllegal_returns (finishEncode_phase_ne_error hp _) []⟩
  | decOpen => exact ⟨_, operated _, .skip (noChannel rfl) <| .skip trivial <|
      .test (oneOperand_tests isUnsigned64_iff _) fun n _ => .test (require_tests opensAdmitted_iff) fun _ _ =>
      noIllegal_checked (checkStream_raisesOnly n.toNat s) (by simp) (by simp [openDecoder]) []⟩
  | decFrame => exact ⟨_, operated _, .skip (noChannel rfl) <| .skip trivial <| .test (noOperand_tests _) fun _ _ =>
      .test (require_tests frameAdmitted_iff) fun _ _ =>
      noIllegal_checked (checkFrame_raisesOnly s) (by simp) (decodeFrameBody_phase_ne_error hp _) []⟩
  | fileHeader samples => cases hi
  | frameHeader role ch sr n z => cases hi
  | lmsHistory c h0 h1 h2 h3 => cases hi
  | lmsWeights c w0 w1 w2 w3 => cases hi
  | slice p sf qs => cases hi

theorem settle_eq_raise {s : State} {e : Cause} (hp : s.phase ≠ .error) : settle s (.error e) = .next (s.raise e) := by
  rw [settle_error, if_neg hp]

theorem ErrorCode.code_eq_illegalCommand {c : ErrorCode} : c.code = ErrorCode.illegalCommand.code ↔
    c = .illegalCommand := by
  cases c <;> decide

/-- A verdict that is no `IllegalCommand` settles in a state that none made. -/
theorem settle_of_noIllegal {s : State} {v : Verdict} (hp : s.phase ≠ .error) (hv : NoIllegal v) :
    ∃ t, settle s v = .next t ∧ ∀ n, t ≠ s.raise ⟨.illegalCommand, n⟩ := by
  obtain ⟨hok, herror⟩ := hv
  cases v with
  | ok t => exact ⟨t, rfl, fun n ht => hok t rfl (congrArg State.phase ht)⟩
  | error e =>
    refine ⟨_, settle_eq_raise hp, fun n ht => herror e rfl ?_⟩
    exact ErrorCode.code_eq_illegalCommand.mp (congrArg State.err ht)

/-- Settles O5: the verdict of each command follows the four tests in order. -/
theorem firstFailingTestGivesTheSubCause : Obligations.FirstFailingTestGivesTheSubCause := by
  intro i s hi hp
  obtain ⟨v, hexec, htests⟩ := exec_failsFirst hi hp
  have raised {e : Cause} (hv : v = .error e) : exec i s = .next (s.raise e) := by
    rw [hexec, hv, settle_eq_raise hp]
  refine ⟨fun hc => raised (htests.fails hc), fun hc himm => raised ((htests.passes hc).fails himm),
    fun hc himm harg => raised (((htests.passes hc).passes himm).fails harg),
    fun hc himm harg hphase => raised ((((htests.passes hc).passes himm).passes harg).fails hphase),
    fun hc himm harg hphase => ?_⟩
  rw [hexec]
  exact settle_of_noIllegal hp ((((htests.passes hc).passes himm).passes harg).passes hphase)

end Sys2Proof.Machine

/-! ## Wire words where the block consumes them (30_encoding.md R74 to R78) -/

namespace Sys2Proof.Machine

open Sys2Proof.Claims

/-! ### Checks as the first error they find -/

/-- The verdict of checks that find this error, or none. -/
def firstError (o : Option Cause) : Except Cause Unit := o.elim (.ok ()) .error

theorem require_bind_eq_firstError {b : Bool} {e : Cause} {f : Unit → Except Cause Unit} {P : Prop} [Decidable P]
    {o : Option Cause} (hb : b = true ↔ ¬ P) (hrest : f () = firstError o) :
    (require b e >>= f) = firstError (if P then some e else o) := by
  by_cases hP : P
  · rw [Bool.eq_false_iff.mpr (mt hb.mp (not_not_intro hP)), if_pos hP]; rfl
  · rw [hb.mpr hP, if_neg hP, ← hrest]; rfl

theorem require_eq_firstError {b : Bool} {e : Cause} {P : Prop} [Decidable P] (hb : b = true ↔ ¬ P) :
    require b e = firstError (if P then some e else none) := by
  by_cases hP : P
  · rw [Bool.eq_false_iff.mpr (mt hb.mp (not_not_intro hP)), if_pos hP]; rfl
  · rw [hb.mpr hP, if_neg hP]; rfl

/-- Outside the error phase the checks' error is raised, and without one their operation's state is taken. -/
theorem settle_firstError {s : State} (hp : s.phase ≠ .error) (o : Option Cause) (t : State) :
    settle s (firstError o >>= fun _ => .ok t) = .next (o.elim t s.raise) := by
  cases o with
  | none => rfl
  | some e => exact settle_eq_raise hp

theorem checkSampleCount_eq (samples : BitVec 32) :
    checkSampleCount samples = firstError (if samples = 0 then some ⟨.noSamples, 0⟩ else none) :=
  require_eq_firstError (by simp)

theorem checkFirstHeader_eq (ch : BitVec 8) (sr : BitVec 24) :
    checkFirstHeader ch sr = firstError
      (if ch = 0 then some ⟨.invalidStreamHeader, 1⟩ else if sr = 0 then some ⟨.invalidStreamHeader, 2⟩
       else if 8 < ch.toNat then some ⟨.invalidStreamHeader, 3⟩ else none) :=
  require_bind_eq_firstError (by simp) <| require_bind_eq_firstError (by simp) <| require_eq_firstError (by simp)

/-- A word of the input is the number its eight bytes make (20_memory.md R56). -/
theorem bsinWord_toNat (s : State) (a : Nat) : (s.bsinWord a).toNat = memRead s.bsinByte a 8 := by
  rw [State.bsinWord, BitVec.toNat_ofNat]
  exact Nat.mod_eq_of_lt (memRead_lt s.bsinByte a 8)

theorem ceilDiv_twenty (n : Nat) : ceilDiv n 20 = slices n := by rw [ceilDiv, slices]; omega

/-- The checks of 43_frame.md R171, in order, on the bytes of the header word. -/
theorem checkFrame_eq (s : State) : checkFrame s = firstError (frameError s) := by
  have hw : s.headerWord.toNat = memRead s.bsinByte s.bsinPos.toNat 8 := bsinWord_toNat s _
  have hrem : s.remainingBytes = s.bsinLen.toNat - s.bsinPos.toNat := rfl
  unfold frameError
  rw [← hw, ← hrem]
  refine require_bind_eq_firstError ?prelude <| require_bind_eq_firstError ?channels <|
    require_bind_eq_firstError ?rate <| require_bind_eq_firstError ?fits <| require_bind_eq_firstError ?least <|
    require_bind_eq_firstError ?slices <| require_bind_eq_firstError ?total <| require_eq_firstError ?bytes
  case prelude => rw [decide_eq_true_eq, Nat.not_lt]
  case channels => rw [decide_eq_true_eq, not_ne_iff, ← headerChannels_toNat, BitVec.toNat_inj]
  case rate => rw [decide_eq_true_eq, not_ne_iff, ← headerSampleRate_toNat, BitVec.toNat_inj]
  case fits => rw [decide_eq_true_eq, headerFsize_toNat, gt_iff_lt, Nat.not_lt]
  case least => rw [decide_eq_true_eq, headerFsize_toNat, Nat.not_lt]
  case slices => rw [decide_eq_true_eq, headerFsamples_toNat, headerFsize_toNat, gt_iff_lt, Nat.not_lt]
  case total => rw [decide_eq_true_eq, headerFsamples_toNat, gt_iff_lt, Nat.not_lt]
  case bytes => rw [decide_eq_true_eq, frameBytes, ceilDiv_twenty, headerFsamples_toNat, gt_iff_lt, Nat.not_lt]

/-! ### The headers -/

theorem consume_admitted {b : Bool} (h : b = true) (s : State) (v : Verdict) : consume b s v = settle s v := if_pos h

section
variable {s : State}

theorem exec_fileHeader (h : s.phase = .needHeader ∨ s.phase = .done) (samples : BitVec 32) :
    exec (.fileHeader samples) s = .next
      (if samples = 0 then s.raise ⟨.noSamples, 0⟩ else { s with samples := samples }) := by
  have hp : s.phase ≠ .error := by rcases h with h | h <;> simp [h]
  calc exec (.fileHeader samples) s
      = settle s (checkSampleCount samples >>= fun _ => .ok { s with samples := samples }) :=
        consume_admitted (opensAdmitted_iff.mpr h) s _
    _ = _ := by rw [checkSampleCount_eq, settle_firstError hp]; split <;> rfl

theorem exec_frameHeader_peek (h : s.phase = .needHeader ∨ s.phase = .done) (ch : BitVec 8) (sr : BitVec 24)
    (n z : BitVec 16) :
    exec (.frameHeader .peek ch sr n z) s = .next
      (if ch = 0 then s.raise ⟨.invalidStreamHeader, 1⟩ else if sr = 0 then s.raise ⟨.invalidStreamHeader, 2⟩
       else if 8 < ch.toNat then s.raise ⟨.invalidStreamHeader, 3⟩
       else { s with channels := ch, sampleRate := sr }) := by
  have hp : s.phase ≠ .error := by rcases h with h | h <;> simp [h]
  calc exec (.frameHeader .peek ch sr n z) s
      = settle s (checkFirstHeader ch sr >>= fun _ => .ok { s with channels := ch, sampleRate := sr }) :=
        consume_admitted (opensAdmitted_iff.mpr h) s _
    _ = _ := by rw [checkFirstHeader_eq, settle_firstError hp]; split_ifs <;> rfl

/-- Where check 1 of R171 passes, the header's own checks are the frame's. -/
theorem checkFrameHeader_eq {ch : BitVec 8} {sr : BitVec 24} {n z : BitVec 16}
    (hw : s.headerWord = frameHeaderPack ch sr n z)
    (hrem : 8 + 16 * s.channels.toNat ≤ s.bsinLen.toNat - s.bsinPos.toNat) :
    checkFrameHeader s ch sr n z = firstError (frameError s) := by
  have hprelude : checkPrelude s = .ok () := require_eq_ok.mpr (decide_eq_true hrem)
  rw [← checkFrame_eq, checkFrame, hprelude, ok_bind, hw, headerChannels_pack, headerSampleRate_pack,
    headerFsamples_pack, headerFsize_pack]

theorem exec_frameHeader_frame (hp : s.phase = .needFrame) (hm : s.mode = .dec) {ch : BitVec 8} {sr : BitVec 24}
    {n z : BitVec 16} (hw : s.headerWord = frameHeaderPack ch sr n z)
    (hrem : 8 + 16 * s.channels.toNat ≤ s.bsinLen.toNat - s.bsinPos.toNat) :
    exec (.frameHeader .frame ch sr n z) s = .next ((frameError s).elim s s.raise) := by
  calc exec (.frameHeader .frame ch sr n z) s
      = settle s (checkFrameHeader s ch sr n z >>= fun _ => .ok s) :=
        consume_admitted (frameAdmitted_iff.mpr ⟨hp, hm⟩) s _
    _ = _ := by rw [checkFrameHeader_eq hw hrem, settle_firstError (by simp [hp])]

end

/-- Settles O45: each header raises the first error its checks find and is taken without one. -/
theorem headerWordsAreCheckedAndTaken : Obligations.HeaderWordsAreCheckedAndTaken := by
  intro s samples ch sr n z
  refine ⟨fun h => ⟨exec_fileHeader h samples, exec_frameHeader_peek h ch sr n z⟩, fun hp hm hw hrem => ?_⟩
  rw [exec_frameHeader_frame hp hm hw hrem]
  cases frameError s <;> rfl

/-! ### The LMS words and the slices -/

/-- A word of a frame has its effect where a decode is running. -/
theorem consume_inFrame {s : State} (hp : s.phase = .needFrame) (hm : s.mode = .dec) (t : State) :
    consume (frameAdmitted .dec s) s (.ok t) = .next t := consume_admitted (frameAdmitted_iff.mpr ⟨hp, hm⟩) s _

/-- Settles O46: the word replaces one half of one channel's registers. -/
theorem lmsWordsLoadTheirChannel : Obligations.LmsWordsLoadTheirChannel := by
  intro s c a0 a1 a2 a3 hp hm
  exact ⟨⟨loadHistory c ⟨a0, a1, a2, a3⟩ s, consume_inFrame hp hm _, rfl, Bank.get_set_same _ _ _,
      fun d hd => Bank.get_set_other _ _ hd⟩,
    ⟨loadWeights c ⟨a0, a1, a2, a3⟩ s, consume_inFrame hp hm _, rfl, Bank.get_set_same _ _ _,
      fun d hd => Bank.get_set_other _ _ hd⟩⟩

@[simp] theorem applySlice_lms (p : SlicePos) (w : WireWord) (s : State) :
    (applySlice p w s).lms = s.lms.set p.c (decSlice (s.lms.get p.c) w p.len).2 := by
  rw [applySlice, writeSamples_frame]
  rfl

/-- Settles O47: the samples stand at their indices in `PCMOUT`, and one channel's registers are the slice's. -/
theorem sliceWordDecodesIntoPcmout : Obligations.SliceWordDecodesIntoPcmout := by
  intro s p sf qs hp hm hC out idx
  have hlen : out.1.length = p.len := decSlice_length _ _ _
  refine ⟨applySlice p (slicePack sf qs) s, consume_inFrame hp hm _, applyWord_frame (.slice p) _ s,
    by simp [out], fun d hd => by simp [Bank.get_set_other _ _ hd], fun k hk => ?_, fun i hi => ?_⟩
  · exact writeSamples_inside p.c out.1 _ (s.setLms p.c out.2) k hC (hlen ▸ hk)
  · exact writeSamples_outside p.c out.1 _ (s.setLms p.c out.2) i fun k hk => hi k (hlen ▸ hk)

end Sys2Proof.Machine

/-! ## The fields of a slice word (30_encoding.md R78 to R80) -/

namespace Sys2Proof.Machine

open Sys2Proof.Claims

/-! ### The bits a slice of `len` samples reads -/

/-- Words that agree from bit `60 − 3·len` up agree on the scale factor and the first `len` indices. -/
theorem slice_fields_congr {v w : WireWord} {len : Nat} (hlen : len ≤ 20)
    (h : v.toNat / 2 ^ (60 - 3 * len) = w.toNat / 2 ^ (60 - 3 * len)) :
    sliceSf v = sliceSf w ∧ ∀ k < len, sliceQ v k = sliceQ w k := by
  have above {m : Nat} (hm : 60 - 3 * len ≤ m) : v.toNat / 2 ^ m = w.toNat / 2 ^ m := by
    rw [← Nat.add_sub_cancel' hm, Nat.pow_add, ← Nat.div_div_eq_div_mul, ← Nat.div_div_eq_div_mul, h]
  constructor
  · apply BitVec.eq_of_toNat_eq
    rw [sliceSf_toNat, sliceSf_toNat, above (by omega)]
  · intro k hk
    apply BitVec.eq_of_toNat_eq
    rw [sliceQ_toNat, sliceQ_toNat, above (by omega)]

theorem decSteps_congr {v w : WireWord} {ks : List Nat} (hsf : sliceSf v = sliceSf w)
    (hq : ∀ k ∈ ks, sliceQ v k = sliceQ w k) (l : Lms) : decSteps v ks l = decSteps w ks l := by
  induction ks generalizing l with
  | nil => rfl
  | cons k ks ih =>
    rw [decSteps_cons, decSteps_cons, hsf, hq k List.mem_cons_self, ih fun j hj => hq j (List.mem_cons_of_mem k hj)]

theorem decSlice_congr {v w : WireWord} {len : Nat} (hlen : len ≤ 20)
    (h : v.toNat / 2 ^ (60 - 3 * len) = w.toNat / 2 ^ (60 - 3 * len)) (l : Lms) :
    decSlice l v len = decSlice l w len := by
  obtain ⟨hsf, hq⟩ := slice_fields_congr hlen h
  exact decSteps_congr hsf (fun k hk => hq k (List.mem_range.mp hk)) l

theorem oneOperand_word {w : Nat} (h : w < 2 ^ 64) : oneOperand isUnsigned64 [(w : Int)] = .ok (w : Int) :=
  oneOperand_eq_ok.mpr ⟨rfl, isUnsigned64_iff.mpr ⟨Int.natCast_nonneg w, by norm_cast⟩⟩

theorem wordOperand_toNat {w : Nat} (h : w < 2 ^ 64) : (wordOperand (w : Int)).toNat = w := by
  rw [wordOperand, BitVec.ofInt_natCast, BitVec.toNat_ofNat, Nat.mod_eq_of_lt h]

/-- `DEC.SLICE` of a word, from the state it is issued in. -/
theorem execDecSlice_word {s : State} {c : BitVec 4} {len : BitVec 16} {ch : Fin 8} {n w : Nat} (hp : s.phase ≠ .error)
    (hc : channelOperand c = .ok ch) (hn : lenOperand len = .ok n) (hw : w < 2 ^ 64) :
    execDecSlice c len { s with arg := [(w : Int)] } =
      .next { s with
        arg := [(w : Int)]
        lms := s.lms.set ch (decSlice (s.lms.get ch) (wordOperand w) n).2
        res := (decSlice (s.lms.get ch) (wordOperand w) n).1.map BitVec.toInt } :=
  execDecSlice_ok (s := { s with arg := [(w : Int)] }) hp hc hn (oneOperand_word hw)

/-- Settles O21: both words decode to one slice, or the operation is ignored or turned away before it reads them. -/
theorem unusedSliceBitsAreIgnored : Obligations.UnusedSliceBitsAreIgnored := by
  intro s c len w w' hlen1 hlen20 hw hw' hagree t t' (ht : execDecSlice c len _ = _) (ht' : execDecSlice c len _ = _)
  by_cases hp : s.phase = .error
  · have ignored (arg : List Int) : execDecSlice c len { s with arg := arg } = .next { s with arg := arg } :=
      operate_error_phase (s := { s with arg := arg }) hp _
    rw [ignored] at ht ht'
    cases ht; cases ht'
    rfl
  · cases hc : channelOperand c with
    | error e =>
      have raised (arg : List Int) :
          execDecSlice c len { s with arg := arg } = .next (State.raise { s with arg := arg } e) :=
        operate_raise (s := { s with arg := arg }) hp (by rw [hc, error_bind])
      rw [raised] at ht ht'
      cases ht; cases ht'
      rfl
    | ok ch =>
      have hn : lenOperand len = .ok len.toNat := lenOperand_eq_ok.mpr ⟨rfl, hlen1, hlen20⟩
      have hslice : decSlice (s.lms.get ch) (wordOperand w) len.toNat =
          decSlice (s.lms.get ch) (wordOperand w') len.toNat :=
        decSlice_congr hlen20 (by rwa [wordOperand_toNat hw, wordOperand_toNat hw']) _
      rw [execDecSlice_word hp hc hn hw, hslice] at ht
      rw [execDecSlice_word hp hc hn hw'] at ht'
      cases ht; cases ht'
      rfl

/-! ### The word of a trial -/

@[simp] theorem trialIndices_length (sf : BitVec 4) (l : Lms) (xs : List Sample) :
    (trialIndices sf l xs).length = xs.length := by
  induction xs generalizing l with
  | nil => rfl
  | cons x xs ih => rw [trialIndices, List.length_cons, List.length_cons, ih]

/-- The LMS value after a sample and those that follow it. -/
theorem trialLoop_cons_lms (l : Lms) (sf : BitVec 4) (x : Sample) (xs : List Sample) :
    (trialLoop l sf (x :: xs)).lms = (trialLoop (encSample l sf x).lms sf xs).lms :=
  trialFold_lms sf xs rfl

theorem trialIndices_append (sf : BitVec 4) (l : Lms) (xs : List Sample) (x : Sample) :
    trialIndices sf l (xs ++ [x]) = trialIndices sf l xs ++ [(encSample (trialLoop l sf xs).lms sf x).q] := by
  induction xs generalizing l with
  | nil => rfl
  | cons y ys ih => rw [List.cons_append, trialIndices, trialIndices, ih, trialLoop_cons_lms, List.cons_append]

/-- A turn of the loop appends an index to the word, where three bits are free above. -/
theorem trialStep_word_toNat {sf : BitVec 4} {t : Trial} {x : Sample} (h : t.word.toNat < 2 ^ 61) :
    (trialStep sf t x).word.toNat = t.word.toNat * 8 + (encSample t.lms sf x).q.toNat := by
  have hq := (encSample t.lms sf x).q.isLt
  rw [trialStep, BitVec.toNat_or, BitVec.toNat_shiftLeft, BitVec.toNat_setWidth, Nat.shiftLeft_eq,
    Nat.mod_eq_of_lt (by omega : t.word.toNat * 2 ^ 3 < 2 ^ 64), Nat.mod_eq_of_lt (by omega : _ < 2 ^ 64),
    ← Nat.shiftLeft_eq, ← Nat.shiftLeft_add_eq_or_of_lt hq, Nat.shiftLeft_eq]

/-- The word of the loop over `n` samples: the scale factor above `n` octal digits, digit by digit the indices. -/
structure HoldsDigits (word : Nat) (sf : BitVec 4) (qs : List (BitVec 3)) : Prop where
  top   : word / 8 ^ qs.length = sf.toNat
  digit : ∀ k q, qs[k]? = some q → word / 8 ^ (qs.length - 1 - k) % 8 = q.toNat

theorem HoldsDigits.lt {word : Nat} {sf : BitVec 4} {qs : List (BitVec 3)} (h : HoldsDigits word sf qs) :
    word < 16 * 8 ^ qs.length := by
  rw [← Nat.div_lt_iff_lt_mul (by positivity), h.top]
  exact sf.isLt

/-- One more digit below. -/
theorem HoldsDigits.append {word : Nat} {sf : BitVec 4} {qs : List (BitVec 3)} (h : HoldsDigits word sf qs)
    (q : BitVec 3) : HoldsDigits (word * 8 + q.toNat) sf (qs ++ [q]) := by
  have hq := q.isLt
  have shift (m : Nat) : (word * 8 + q.toNat) / 8 ^ (m + 1) = word / 8 ^ m := by
    rw [Nat.pow_succ', ← Nat.div_div_eq_div_mul]
    congr 1
    omega
  constructor
  · rw [List.length_append, List.length_singleton, shift, h.top]
  · intro k d hd
    rw [List.length_append, List.length_singleton]
    by_cases hk : k < qs.length
    · rw [List.getElem?_append_left hk] at hd
      rw [show qs.length + 1 - 1 - k = qs.length - 1 - k + 1 by omega, shift, h.digit k d hd]
    · have hlen := (List.getElem?_eq_some_iff.mp hd).1
      obtain rfl : k = qs.length := by simp at hlen; omega
      obtain rfl : q = d := by simpa using hd
      simp only [Nat.add_sub_cancel, Nat.sub_self, Nat.pow_zero, Nat.div_one]
      omega

theorem trialLoop_holdsDigits (l : Lms) (sf : BitVec 4) (xs : List Sample) (h : xs.length ≤ 20) :
    HoldsDigits (trialLoop l sf xs).word.toNat sf (trialIndices sf l xs) := by
  induction xs using List.reverseRecOn with
  | nil =>
    have := sf.isLt
    exact ⟨by simp [trialIndices]; omega, by simp [trialIndices]⟩
  | append_singleton xs x ih =>
    rw [List.length_append, List.length_singleton] at h
    have hd := ih (by omega)
    have hlt : (trialLoop l sf xs).word.toNat < 2 ^ 61 := by
      have hpow : 8 ^ xs.length ≤ 8 ^ 19 := Nat.pow_le_pow_right (by decide) (by omega)
      have := hd.lt
      rw [trialIndices_length] at this
      omega
    rw [trialLoop_append, trialStep_word_toNat hlt, trialIndices_append]
    exact hd.append _

/-- A trial's word is the loop's, moved up by three bits for each sample it has less than twenty (R79). -/
theorem encTrial_word_toNat (l : Lms) (sf : BitVec 4) (xs : List Sample) (h : xs.length ≤ 20) :
    (encTrial l sf xs).word.toNat = (trialLoop l sf xs).word.toNat * 8 ^ (20 - xs.length) := by
  have hlt := (trialLoop_holdsDigits l sf xs h).lt
  rw [trialIndices_length] at hlt
  have hfit : (trialLoop l sf xs).word.toNat * 8 ^ (20 - xs.length) < 2 ^ 64 :=
    calc _ < 16 * 8 ^ xs.length * 8 ^ (20 - xs.length) := Nat.mul_lt_mul_of_pos_right hlt (by positivity)
      _ = 2 ^ 64 := by rw [Nat.mul_assoc, ← Nat.pow_add, Nat.add_sub_cancel' h]; rfl
  rw [encTrial, BitVec.toNat_shiftLeft, Nat.shiftLeft_eq, Nat.pow_mul]
  exact Nat.mod_eq_of_lt hfit

/-- Settles O23: the loop's word holds the scale factor and the digits, and the last shift keeps both and adds zeros. -/
theorem trialWordHoldsTheIndices : Obligations.TrialWordHoldsTheIndices := by
  intro l sf xs h w
  obtain ⟨htop, hdigit⟩ := trialLoop_holdsDigits l sf xs h
  have hw : w = (trialLoop l sf xs).word.toNat * 8 ^ (20 - xs.length) := encTrial_word_toNat l sf xs h
  have above (m : Nat) : w / 2 ^ (3 * (m + (20 - xs.length))) = (trialLoop l sf xs).word.toNat / 8 ^ m := by
    rw [hw, Nat.pow_mul, Nat.pow_add]
    exact Nat.mul_div_mul_right _ _ (by positivity)
  rw [trialIndices_length] at htop hdigit
  refine ⟨?_, ?_, fun k q hq => ?_⟩
  · rw [← htop, ← above]
    congr 2
    omega
  · rw [hw, Nat.pow_mul]
    exact Nat.mul_mod_left _ _
  · have hk : k < xs.length := by simpa using (List.getElem?_eq_some_iff.mp hq).1
    rw [← hdigit k q hq, ← above]
    congr 3
    omega

end Sys2Proof.Machine

/-! ## Primitives and tables (40_primitives_tables.md) -/

namespace Sys2Proof.Machine

open Sys2Proof.Claims

/-! ### The tables -/

/-- Settles O9: both sides are closed lists, the tables read entry by entry and the entries written out. -/
theorem tablesHoldTheirEntries : Obligations.TablesHoldTheirEntries := by
  refine ⟨?recip, ?quant, ?dequant⟩
  case recip => decide
  case quant => decide
  case dequant => decide

theorem recip_pos : ∀ sf, 0 < recip sf := by decide

/-- The lower half of `QUANT`, that of the negative scaled residuals, holds the odd indices. -/
theorem quant_odd : ∀ i < 8, (quant i).toNat % 2 = 1 := by decide

/-- The middle and the upper half hold the even indices. -/
theorem quant_even : ∀ i < 17, 8 ≤ i → (quant i).toNat % 2 = 0 := by decide

theorem dequant_neg_of_odd : ∀ sf (q : BitVec 3), q.toNat % 2 = 1 → dequant sf q < 0 := by decide

theorem dequant_pos_of_even : ∀ sf (q : BitVec 3), q.toNat % 2 = 0 → 0 < dequant sf q := by decide

/-! ### `divide` by the sign of the residual (R104) -/

section
variable {r : Int} (sf : BitVec 4)

theorem divideBase_eq (r : Int) : divideBase r sf = (r * recip sf + 32768) / 65536 := rfl

theorem divideBase_zero : divideBase 0 sf = 0 := by
  rw [divideBase_eq, Int.zero_mul]
  rfl

theorem divideBase_nonneg (h : 0 ≤ r) : 0 ≤ divideBase r sf := by
  have hprod : 0 ≤ r * recip sf := Int.mul_nonneg h (Int.natCast_nonneg _)
  rw [divideBase_eq]
  omega

theorem divideBase_nonpos (h : r < 0) : divideBase r sf ≤ 0 := by
  have hprod : r * recip sf < 0 := Int.mul_neg_of_neg_of_pos h (Int.natCast_pos.mpr (recip_pos sf))
  rw [divideBase_eq]
  omega

theorem divide_of_nonneg (h : 0 ≤ r) : divide r sf = divideBase r sf := by
  have hbase := divideBase_nonneg sf h
  rw [divide, negMark, negMark, if_neg (Int.not_lt.mpr h), if_neg (Int.not_lt.mpr hbase)]
  omega

/-- A negative residual is divided to `n0`, and to −1 where `n0` is 0. -/
theorem divide_of_neg (h : r < 0) : divide r sf = min (-1) (divideBase r sf) := by
  have hbase := divideBase_nonpos sf h
  rw [divide, negMark, negMark, if_pos h]
  split <;> omega

theorem divide_neg (h : r < 0) : divide r sf < 0 := by
  rw [divide_of_neg sf h]
  omega

theorem divide_nonneg (h : 0 ≤ r) : 0 ≤ divide r sf := by
  rw [divide_of_nonneg sf h]
  exact divideBase_nonneg sf h

end

/-- Scale factor 0 has the reciprocal 65536, so it divides by 1 (R105). -/
theorem divideBase_scale_zero (r : Int) : divideBase r 0 = r := by
  rw [divideBase_eq, show recip 0 = 65536 from rfl]
  omega

theorem divide_scale_zero (r : Int) : divide r 0 = r := by
  by_cases h : r < 0
  · rw [divide_of_neg 0 h, divideBase_scale_zero]
    omega
  · rw [divide_of_nonneg 0 (Int.not_lt.mp h), divideBase_scale_zero]

/-- Settles O7: `divide` is `n0`, which has the sign of the residual or is 0; for a negative one it is at most −1. -/
theorem divideFollowsItsFourCases : Obligations.DivideFollowsItsFourCases := by
  intro r sf n0
  have hn0 : divideBase r sf = n0 := divideBase_eq sf r
  refine ⟨fun h => ?positive, fun h => ?zero, fun h => ?base, fun h hbase => ?negative, fun h hbase => ?adjusted,
    divide_neg sf, divide_scale_zero r⟩
  case positive => exact ⟨hn0 ▸ divideBase_nonneg sf h.le, hn0 ▸ divide_of_nonneg sf h.le⟩
  case zero => rw [divide_of_nonneg sf h.ge, h, divideBase_zero]
  case base => exact hn0 ▸ divideBase_nonpos sf h
  case negative =>
    rw [divide_of_neg sf h, hn0]
    omega
  case adjusted =>
    rw [divide_of_neg sf h, hn0, hbase]
    rfl

/-! ### The quantizer (R114) -/

/-- With its bounds in order, `clamp` is the nearest value between them. -/
theorem clamp_eq_max_min {v lo hi : Int} (h : lo ≤ hi) : clamp v lo hi = max lo (min hi v) := by
  unfold clamp
  split
  · omega
  · split <;> omega

theorem quantIndex_eq (r : Int) (sf : BitVec 4) :
    quantIndex r sf = quant (max (-8) (min 8 (divide r sf)) + 8).toNat := by
  rw [quantIndex, clamp_eq_max_min (by decide)]

/-- A negative residual is divided to at most −1, so its index stands below the middle of `QUANT`. -/
theorem quantIndex_odd {r : Int} (sf : BitVec 4) (h : r < 0) : (quantIndex r sf).toNat % 2 = 1 := by
  have hdiv := divide_neg sf h
  rw [quantIndex_eq]
  exact quant_odd _ (by omega)

theorem quantIndex_even {r : Int} (sf : BitVec 4) (h : 0 ≤ r) : (quantIndex r sf).toNat % 2 = 0 := by
  have hdiv := divide_nonneg sf h
  rw [quantIndex_eq]
  exact quant_even _ (by omega) (by omega)

/-- Settles O8: `divide` keeps the sign of the residual, `QUANT` turns it into the parity of the index, and `DEQUANT` turns
the parity into the sign of the entry. -/
theorem quantizerKeepsTheSign : Obligations.QuantizerKeepsTheSign := by
  intro r sf
  refine ⟨quantIndex_eq r sf, fun h => ?negative, fun h => ?nonnegative⟩
  case negative =>
    have hodd := quantIndex_odd sf h
    exact ⟨hodd, dequant_neg_of_odd sf _ hodd⟩
  case nonnegative =>
    have heven := quantIndex_even sf h
    exact ⟨heven, dequant_pos_of_even sf _ heven⟩

/-! ### The operations -/

theorem clampOperands_ok {v lo hi : Int} (hv : int64 v) (hlo : int64 lo) (hhi : int64 hi) :
    clampOperands [v, lo, hi] = .ok (v, lo, hi) := by
  simp [clampOperands, isInt64_iff, hv, hlo, hhi]

/-- Settles O10: legal operands pass their test, so each operation answers its function's value. -/
theorem fnOperationsReturnTheirValues : Obligations.FnOperationsReturnTheirValues := by
  intro s hp
  refine ⟨fun v lo hi harg hv hlo hhi => ?clamp, fun v harg hv => ?clamps16, fun r sf harg hmin hmax => ?divide⟩
  case clamp => exact execFnClamp_ok hp (by rw [harg, clampOperands_ok hv hlo hhi])
  case clamps16 => exact execFnClamps16_ok hp (oneOperand_eq_ok.mpr ⟨harg, isInt64_iff.mpr hv⟩)
  case divide => exact execFnDivide_ok hp (oneOperand_eq_ok.mpr ⟨harg, isResidual_iff.mpr ⟨hmin, hmax⟩⟩)

/-- Settles O11: with no operand and the index in its range each operation answers the entry. -/
theorem tableOperationsReturnTheirEntries : Obligations.TableOperationsReturnTheirEntries := by
  intro s hp harg
  have hnone : noOperand s.arg = .ok () := noOperand_eq_ok.mpr harg
  refine ⟨fun sf => ?recip, fun i hi => ?quant, fun sf q hq => ?dequant⟩
  case recip => exact execTblRecip_ok hp hnone
  case quant => exact execTblQuant_ok hp (indexOperand_eq_ok.mpr ⟨rfl, hi⟩) hnone
  case dequant =>
    rw [← BitVec.ofNat_toNat]
    exact execTblDequant_ok hp (indexOperand_eq_ok.mpr ⟨rfl, hq⟩) hnone

end Sys2Proof.Machine

/-! ## The LMS predictor (41_lms.md) -/

namespace Sys2Proof.Machine

open Sys2Proof.Claims

/-! ### `int16` readings (00_scope.md R10) -/

theorem bmod_eq_wrap16 (v : Int) : v.bmod (2 ^ 16) = wrap16 v := by
  rw [Int.bmod_def, wrap16]
  split <;> omega

theorem toInt_ofInt_eq_wrap16 (v : Int) : (BitVec.ofInt 16 v).toInt = wrap16 v := by
  rw [BitVec.toInt_ofInt, bmod_eq_wrap16]

theorem toInt_eq_wrap16 (x : Sample) : x.toInt = wrap16 x.toNat := by
  rw [BitVec.toInt_eq_toNat_bmod, bmod_eq_wrap16]

theorem wrap16_of_int16 {v : Int} (h : int16 v) : wrap16 v = v := by
  obtain ⟨hlo, hhi⟩ := h
  rw [wrap16]
  omega

theorem toInt_int16 (x : Sample) : int16 x.toInt := ⟨BitVec.le_toInt x, Int.le_of_lt_add_one BitVec.toInt_lt⟩

theorem toInt_ofInt_of_int16 {v : Int} (h : int16 v) : (BitVec.ofInt 16 v).toInt = v := by
  rw [toInt_ofInt_eq_wrap16, wrap16_of_int16 h]

/-! ### The registers of a channel as two words (30_encoding.md R86) -/

theorem toInt_extractLsb' (w : WireWord) (k : Nat) :
    (w.extractLsb' k 16).toInt = wrap16 ((w.toNat / 2 ^ k % 65536 : Nat) : Int) := by
  rw [toInt_eq_wrap16, BitVec.extractLsb'_toNat, Nat.shiftRight_eq_div_pow]

theorem ints_unpack4 (w : WireWord) :
    ints (unpack4 w) = [48, 32, 16, 0].map (fun k => wrap16 ((w.toNat / 2 ^ k % 65536 : Nat) : Int)) := by
  simp only [ints, unpack4, toInt_extractLsb', List.map_cons, List.map_nil]

theorem wordOperand_wordResult (w : WireWord) : wordOperand (wordResult w) = w :=
  BitVec.eq_of_toNat_eq (wordOperand_toNat w.isLt)

/-- What `LMS.LOAD` loads of the two words of `LMS.STORE`. -/
theorem unpack4_stored (v : Quad Sample) : unpack4 (wordOperand (wordResult (pack4 v))) = v := by
  rw [wordOperand_wordResult, unpack4_pack4]

/-! ### `predict` and `update` (R120 to R123) -/

theorem predict_eq (l : Lms) : predict l = (List.zipWith (· * ·) (ints l.w) (ints l.h)).sum / 8192 := by
  simp only [predict, asr, Quad.sum, ints, List.zipWith_cons_cons, List.zipWith_nil_right, List.sum_cons, List.sum_nil]
  omega

theorem stepWeight_toInt (delta : Int) (h w : Sample) :
    (stepWeight delta h w).toInt = wrap16 (if h.toInt < 0 then w.toInt - delta else w.toInt + delta) :=
  toInt_ofInt_eq_wrap16 _

theorem movesTo_update (l : Lms) (x : Sample) (dq : Int) : movesTo l (update l x dq) x.toInt dq := by
  have hdelta : asr dq 4 = dq / 16 := rfl
  refine ⟨rfl, ?weights⟩
  case weights => simp only [update, ints, stepWeight_toInt, hdelta, List.zipWith_cons_cons, List.zipWith_nil_right]

/-! ### Ranges (R121, R145, R148) -/

/-- A product of two registers; the bounds are −32768 · 32767 and 32768². Each pair of distances to the ends of the range
has a product that is not negative, and the bounds are linear in those four products. -/
theorem product_bounds (a b : Sample) : -1073709056 ≤ a.toInt * b.toInt ∧ a.toInt * b.toInt ≤ 1073741824 := by
  obtain ⟨halo, hahi⟩ := toInt_int16 a
  obtain ⟨hblo, hbhi⟩ := toInt_int16 b
  have hlolo : 0 ≤ (a.toInt + 32768) * (b.toInt + 32768) := Int.mul_nonneg (by omega) (by omega)
  have hlohi : 0 ≤ (a.toInt + 32768) * (32767 - b.toInt) := Int.mul_nonneg (by omega) (by omega)
  have hhilo : 0 ≤ (32767 - a.toInt) * (b.toInt + 32768) := Int.mul_nonneg (by omega) (by omega)
  have hhihi : 0 ≤ (32767 - a.toInt) * (32767 - b.toInt) := Int.mul_nonneg (by omega) (by omega)
  constructor <;> linarith

/-- The sum of the four products of `predict` and of the penalty. -/
theorem sum_product_bounds (u v : Quad Sample) :
    -4294836224 ≤ Quad.sum (fun a b => a.toInt * b.toInt) u v ∧
    Quad.sum (fun a b => a.toInt * b.toInt) u v ≤ 4294967296 := by
  have h0 := product_bounds u.t0 v.t0
  have h1 := product_bounds u.t1 v.t1
  have h2 := product_bounds u.t2 v.t2
  have h3 := product_bounds u.t3 v.t3
  rw [Quad.sum]
  omega

theorem predict_bounds (l : Lms) : -524272 ≤ predict l ∧ predict l ≤ 524288 := by
  have hsum := sum_product_bounds l.w l.h
  rw [predict, asr]
  omega

theorem weightsPenalty_le (l : Lms) : weightsPenalty l ≤ 14081 := by
  have hsum := sum_product_bounds l.w l.w
  rw [weightsPenalty, asr]
  omega

/-- Two samples differ by at most 65535. -/
theorem squared_difference_le (x y : Sample) : ((x.toInt - y.toInt) ^ 2).toNat ≤ 4294836225 := by
  obtain ⟨hxlo, hxhi⟩ := toInt_int16 x
  obtain ⟨hylo, hyhi⟩ := toInt_int16 y
  have hsq : (x.toInt - y.toInt) ^ 2 ≤ 65535 ^ 2 := sq_le_sq' (by omega) (by omega)
  exact Int.toNat_le.mpr hsq

theorem dequant_bounds : ∀ sf (q : BitVec 3), -14336 ≤ dequant sf q ∧ dequant sf q ≤ 14336 := by decide

theorem dequant_ne_zero (sf : BitVec 4) (q : BitVec 3) : dequant sf q ≠ 0 := by
  rcases Nat.mod_two_eq_zero_or_one q.toNat with heven | hodd
  · exact (dequant_pos_of_even sf q heven).ne'
  · exact (dequant_neg_of_odd sf q hodd).ne

/-- Settles O18: each range follows from that of an `int16` and, for a dequantized residual, from the table. -/
theorem predictionAndSampleRanges : Obligations.PredictionAndSampleRanges := by
  intro l sf x
  obtain ⟨hplo, hphi⟩ := predict_bounds l
  obtain ⟨hxlo, hxhi⟩ := toInt_int16 x
  obtain ⟨hdlo, hdhi⟩ := dequant_bounds sf (encSample l sf x).q
  exact ⟨hplo, hphi, by omega, by omega, squared_difference_le x _, weightsPenalty_le l, hdlo, hdhi, dequant_ne_zero sf _⟩

/-! ### The operations (R125 to R129) -/

/-- Writing back what an entry holds changes nothing. -/
theorem bank_set_get {α : Type} (b : Bank α) (c : Fin 8) : b.set c (b.get c) = b := by
  apply Bank.ext_get
  intro d
  rw [Bank.get_set]
  split
  · next h => rw [h]
  · rfl

theorem channelOperand_ok {c : BitVec 4} (hc : c.toNat < 8) : channelOperand c = .ok ⟨c.toNat, hc⟩ :=
  channelOperand_eq_ok.mpr rfl

theorem twoOperands_words {hw ww : Nat} (hhw : hw < 2 ^ 64) (hww : ww < 2 ^ 64) :
    twoOperands isUnsigned64 [(hw : Int), (ww : Int)] = .ok ((hw : Int), (ww : Int)) := by
  have inRange {n : Nat} (h : n < 2 ^ 64) : isUnsigned64 (n : Int) = true :=
    isUnsigned64_iff.mpr ⟨Int.natCast_nonneg n, by norm_cast⟩
  exact twoOperands_eq_ok.mpr ⟨rfl, inRange hhw, inRange hww⟩

/-- Settles O13: the two words pass their test and are taken apart into the channel's registers. -/
theorem lmsLoadReadsTheTwoWords : Obligations.LmsLoadReadsTheTwoWords := by
  intro s c hw ww hp hc hhw hww harg
  refine ⟨_, execLmsLoad_ok hp (channelOperand_ok hc) (harg ▸ twoOperands_words hhw hww), rfl, ?others, ?history, ?weights⟩
  case others => exact fun d hd => Bank.get_set_other _ _ (Fin.ne_of_val_ne hd)
  case history => rw [State.returns_lms, State.setLms_lms, Bank.get_set_same, ints_unpack4, wordOperand_toNat hhw]
  case weights => rw [State.returns_lms, State.setLms_lms, Bank.get_set_same, ints_unpack4, wordOperand_toNat hww]

/-- What `LMS.STORE` answers for an LMS value. -/
def storedWords (l : Lms) : List Int := [wordResult (pack4 l.h), wordResult (pack4 l.w)]

theorem twoOperands_storedWords (l : Lms) :
    twoOperands isUnsigned64 (storedWords l) = .ok (wordResult (pack4 l.h), wordResult (pack4 l.w)) :=
  twoOperands_words (pack4 l.h).isLt (pack4 l.w).isLt

/-- `LMS.LOAD` of a channel's own stored words writes no register. -/
theorem execLmsLoad_storedWords {s : State} {c : BitVec 4} {ch : Fin 8} (hp : s.phase ≠ .error)
    (hc : channelOperand c = .ok ch) (harg : s.arg = storedWords (s.lms.get ch)) :
    execLmsLoad c s = .next (s.returns []) := by
  have hsame : s.setLms ch (s.lms.get ch) = s := by rw [State.setLms, bank_set_get]
  rw [execLmsLoad_ok hp hc (harg ▸ twoOperands_storedWords _), unpack4_stored, unpack4_stored, hsame]

/-- Settles O14: the load puts back in the channel what the stored words were packed from. -/
theorem lmsStoreThenLoadIsIdentity : Obligations.LmsStoreThenLoadIsIdentity := by
  intro s c hp hc harg
  have hch := channelOperand_ok hc
  have hload := execLmsLoad_storedWords (s := { s with arg := storedWords (s.lms.get ⟨c.toNat, hc⟩) }) hp hch rfl
  exact ⟨_, _, execLmsStore_ok hp hch (noOperand_eq_ok.mpr harg), rfl, rfl, _, hload, rfl⟩

/-- Settles O15: the operation answers `predict` of the channel and nothing else. -/
theorem lmsPredictReturnsThePrediction : Obligations.LmsPredictReturnsThePrediction := by
  intro s c hp hc harg h w
  rw [← predict_eq]
  exact execLmsPredict_ok hp (channelOperand_ok hc) (noOperand_eq_ok.mpr harg)

/-- Settles O16: the channel takes `update` of its old registers. -/
theorem lmsUpdateStepsWeightsAndHistory : Obligations.LmsUpdateStepsWeightsAndHistory := by
  intro s c x dq hp hc harg hx hdq old
  have hoperands : twoOperands isInt16 s.arg = .ok (x, dq) :=
    twoOperands_eq_ok.mpr ⟨harg, isInt16_iff.mpr hx, isInt16_iff.mpr hdq⟩
  refine ⟨_, execLmsUpdate_ok hp (channelOperand_ok hc) hoperands, rfl, ?others, ?moves⟩
  case others => exact fun d hd => Bank.get_set_other _ _ (Fin.ne_of_val_ne hd)
  case moves =>
    rw [State.returns_lms, State.setLms_lms, Bank.get_set_same]
    simpa only [toInt_ofInt_of_int16 hx] using movesTo_update old (BitVec.ofInt 16 x) dq

/-- Settles O12: every channel's entry is the seed, whose values are closed. -/
theorem lmsInitSeedsEveryChannel : Obligations.LmsInitSeedsEveryChannel := by
  intro s hp harg
  refine ⟨_, execLmsInit_ok hp (noOperand_eq_ok.mpr harg), rfl, fun c => ?_⟩
  rw [State.returns_lms, allChannels_get]
  decide

end Sys2Proof.Machine

/-! ## The slice codec (42_slice.md) -/

namespace Sys2Proof.Machine

open Sys2Proof.Claims

/-! ### One sample (R140, R141, R145) -/

theorem clampS16_int16 (v : Int) : int16 (clampS16 v) := by
  rw [int16, clampS16]
  omega

/-- The clamped sum fits the register, so the sample reads as the sum itself. -/
theorem reconstruct_toInt (p dq : Int) : (reconstruct p dq).toInt = max (-32768) (min 32767 (p + dq)) :=
  toInt_ofInt_of_int16 (clampS16_int16 _)

theorem encSample_err (l : Lms) (sf : BitVec 4) (x : Sample) :
    ((encSample l sf x).err : Int) = (x.toInt - (encSample l sf x).recon.toInt) ^ 2 :=
  Int.toNat_of_nonneg (sq_nonneg _)

theorem weightsPenalty_eq (l : Lms) :
    (weightsPenalty l : Int) = max 0 (((ints l.w).map (fun w => w * w)).sum / 262144 - 2303) := by
  have hsum : ((ints l.w).map (fun w => w * w)).sum = Quad.sum (fun a b => a.toInt * b.toInt) l.w l.w := by
    simp only [ints, Quad.sum, List.map_cons, List.map_nil, List.sum_cons, List.sum_nil]
    omega
  rw [hsum]
  exact Int.toNat_of_nonneg (le_max_left 0 _)

/-- The decoder given the encoder's index makes the encoder's own sample and LMS value (R147). -/
theorem decSample_encSample (l : Lms) (sf : BitVec 4) (x : Sample) :
    decSample l sf (encSample l sf x).q = ((encSample l sf x).recon, (encSample l sf x).lms) := rfl

/-- Settles O17: each component by the lemma about the function that makes it; both codecs reconstruct and update alike. -/
theorem decoderFollowsEncoderSample : Obligations.DecoderFollowsEncoderSample := by
  intro l sf x e dq
  exact ⟨predict_eq l, rfl, reconstruct_toInt _ _, encSample_err l sf x, weightsPenalty_eq l, movesTo_update l _ _,
    fun q => ⟨reconstruct_toInt _ _, movesTo_update l _ _⟩, decSample_encSample l sf x⟩

/-! ### Decoding a slice (R142, R143) -/

@[simp] theorem decSlice_zero (l : Lms) (w : WireWord) : decSlice l w 0 = ([], l) := rfl

/-- One sample more is decoded from the state the first `n` left. -/
theorem decSlice_succ (l : Lms) (w : WireWord) (n : Nat) :
    decSlice l w (n + 1) =
      ((decSlice l w n).1 ++ [(decSample (decSlice l w n).2 (sliceSf w) (sliceQ w n)).1],
        (decSample (decSlice l w n).2 (sliceSf w) (sliceQ w n)).2) := by
  simp only [decSlice, List.range_succ, decSteps_append]

theorem sliceSf_eq_ofNat (w : WireWord) : sliceSf w = BitVec.ofNat 4 (w.toNat / 2 ^ 60) := by
  rw [← sliceSf_toNat, BitVec.ofNat_toNat, BitVec.setWidth_eq]

theorem sliceQ_eq_ofNat (w : WireWord) (k : Nat) :
    sliceQ w k = BitVec.ofNat 3 (w.toNat / 2 ^ (57 - 3 * k) % 8) := by
  rw [← sliceQ_toNat, BitVec.ofNat_toNat, BitVec.setWidth_eq]

/-- Settles O19: the scale factor and the index are read from the bits their positions say. -/
theorem sliceDecodesSampleBySample : Obligations.SliceDecodesSampleBySample := by
  intro l w n _
  refine ⟨decSlice_zero l w, ?_⟩
  rw [decSlice_succ, sliceSf_eq_ofNat, sliceQ_eq_ofNat]

theorem lenOperand_ok {len : BitVec 16} (h1 : 1 ≤ len.toNat) (h20 : len.toNat ≤ 20) :
    lenOperand len = .ok len.toNat :=
  lenOperand_eq_ok.mpr ⟨rfl, h1, h20⟩

/-- Settles O20: the word passes its tests, and the channel takes the LMS value that `dec_slice` left. -/
theorem decSliceCompletes : Obligations.DecSliceCompletes := by
  intro s c len w hp hc hlen1 hlen20 hw harg out
  have hword : oneOperand isUnsigned64 s.arg = .ok (w : Int) := harg ▸ oneOperand_word hw
  have hexec := execDecSlice_ok hp (channelOperand_ok hc) (lenOperand_ok hlen1 hlen20) hword
  refine ⟨_, hexec, rfl, ?length, ?others, ?channel⟩
  case length => rw [State.returns_res, List.length_map, decSlice_length]
  case others => exact fun d hd => Bank.get_set_other _ _ (Fin.ne_of_val_ne hd)
  case channel => exact Bank.get_set_same _ _ _

/-! ### The counters of a trial (R144) -/

/-- One sample more, after the loop over those before it. -/
theorem encTrial_append (l : Lms) (sf : BitVec 4) (xs : List Sample) (x : Sample) :
    let e := encSample (encTrial l sf xs).lms sf x
    (encTrial l sf (xs ++ [x])).err = (encTrial l sf xs).err + e.err ∧
    (encTrial l sf (xs ++ [x])).rank = (encTrial l sf xs).rank + e.err + e.pen ^ 2 ∧
    (encTrial l sf (xs ++ [x])).lms = e.lms := by
  simp only [encTrial_err, encTrial_rank, encTrial_lms, trialLoop_append, trialStep, sq, and_self]

/-- The rank counts every error, and besides it only squares. -/
theorem encTrial_err_le_rank (l : Lms) (sf : BitVec 4) (xs : List Sample) :
    (encTrial l sf xs).err ≤ (encTrial l sf xs).rank := by
  induction xs using List.reverseRecOn with
  | nil => exact Nat.le_refl 0
  | append_singleton xs x ih =>
    obtain ⟨herr, hrank, -⟩ := encTrial_append l sf xs x
    omega

/-- A sample adds at most the greatest error and the square of the greatest penalty (R148): 4294836225 + 14081². -/
theorem encTrial_rank_le (l : Lms) (sf : BitVec 4) (xs : List Sample) :
    (encTrial l sf xs).rank ≤ 4493110786 * xs.length := by
  induction xs using List.reverseRecOn with
  | nil => exact Nat.le_refl 0
  | append_singleton xs x ih =>
    obtain ⟨-, hrank, -⟩ := encTrial_append l sf xs x
    have herr : (encSample (encTrial l sf xs).lms sf x).err ≤ 4294836225 := squared_difference_le x _
    have hpen : (encSample (encTrial l sf xs).lms sf x).pen ^ 2 ≤ 14081 ^ 2 := Nat.pow_le_pow_left (weightsPenalty_le _) 2
    rw [List.length_append, List.length_singleton]
    omega

/-- Settles O22: the turn of the loop, and the bound of twenty samples. -/
theorem trialAccumulatesErrorAndRank : Obligations.TrialAccumulatesErrorAndRank := by
  intro l sf xs x hlen before e after
  obtain ⟨herr, hrank, hlms⟩ := encTrial_append l sf xs x
  have hbound : after.rank < 2 ^ 37 := by
    have hle : after.rank ≤ 4493110786 * (xs ++ [x]).length := encTrial_rank_le l sf _
    rw [List.length_append, List.length_singleton] at hle
    omega
  exact ⟨rfl, rfl, rfl, herr, hrank, hlms, encTrial_err_le_rank l sf _, hbound⟩

/-! ### `ENC.TRIAL`, and `DEC.SLICE` of its word (R146, R147) -/

theorem samplesOperand_ok {n : Nat} {arg : List Int} (hlen : arg.length = n) (hrange : ∀ v ∈ arg, int16 v) :
    samplesOperand n arg = .ok (arg.map (BitVec.ofInt 16)) :=
  samplesOperand_eq_ok.mpr ⟨hlen, List.all_eq_true.mpr fun v hv => isInt16_iff.mpr (hrange v hv), rfl⟩

/-- Settles O24: the operands pass their tests, and the operation only returns the trial's results. -/
theorem encTrialWritesNoRegister : Obligations.EncTrialWritesNoRegister := by
  intro s c sf len hp hc hlen1 hlen20 harg hrange t
  exact execEncTrial_ok hp (channelOperand_ok hc) (lenOperand_ok hlen1 hlen20) (samplesOperand_ok harg hrange)

/-- Decoding the fields that hold a trial's indices replays the trial, sample by sample. -/
theorem decSteps_trialIndices {w : WireWord} {sf : BitVec 4} {ks : List Nat} {l : Lms} {xs : List Sample}
    (hsf : sliceSf w = sf) (h : ks.map (sliceQ w) = trialIndices sf l xs) :
    decSteps w ks l = (trialSamples sf l xs, (trialLoop l sf xs).lms) := by
  induction xs generalizing ks l with
  | nil =>
    obtain rfl : ks = [] := List.map_eq_nil_iff.mp h
    rfl
  | cons x xs ih =>
    obtain ⟨k, ks, rfl, hq, hqs⟩ := List.map_eq_cons_iff.mp h
    rw [decSteps_cons, hsf, hq, decSample_encSample, ih hqs, trialSamples, trialLoop_cons_lms]

theorem sliceSf_encTrial (l : Lms) (sf : BitVec 4) {xs : List Sample} (h : xs.length ≤ 20) :
    sliceSf (encTrial l sf xs).word = sf := by
  obtain ⟨htop, -, -⟩ := trialWordHoldsTheIndices l sf xs h
  apply BitVec.eq_of_toNat_eq
  rw [sliceSf_toNat, htop]

/-- The fields of a trial's word are its indices. -/
theorem map_sliceQ_encTrial (l : Lms) (sf : BitVec 4) {xs : List Sample} (h : xs.length ≤ 20) :
    (List.range xs.length).map (sliceQ (encTrial l sf xs).word) = trialIndices sf l xs := by
  obtain ⟨-, -, hindex⟩ := trialWordHoldsTheIndices l sf xs h
  apply List.ext_getElem
  · rw [List.length_map, List.length_range, trialIndices_length]
  · intro k _ hk
    apply BitVec.eq_of_toNat_eq
    rw [List.getElem_map, List.getElem_range, sliceQ_toNat, hindex k _ (List.getElem?_eq_getElem hk)]

/-- `dec_slice` of a trial's word yields the trial's samples and its LMS value (R147). -/
theorem decSlice_encTrial (l : Lms) (sf : BitVec 4) {xs : List Sample} (h : xs.length ≤ 20) :
    decSlice l (encTrial l sf xs).word xs.length = (trialSamples sf l xs, (encTrial l sf xs).lms) :=
  decSteps_trialIndices (sliceSf_encTrial l sf h) (map_sliceQ_encTrial l sf h)

/-- Settles O25: both commands complete, and `dec_slice` replays the trial whose word it is given. -/
theorem decSliceInvertsEncTrial : Obligations.DecSliceInvertsEncTrial := by
  intro s c sf len hp hc hlen1 hlen20 harg hrange
  have henc := encTrialWritesNoRegister s c sf len hp hc hlen1 hlen20 harg hrange
  have hlen : (s.arg.map (BitVec.ofInt 16)).length = len.toNat := by rw [List.length_map, harg]
  have hreplay := decSlice_encTrial (s.lms.get ⟨c.toNat, hc⟩) sf (hlen.trans_le hlen20)
  generalize encTrial (s.lms.get ⟨c.toNat, hc⟩) sf (s.arg.map (BitVec.ofInt 16)) = trial at henc hreplay
  obtain ⟨t, hdec, hframe, -, -, hlms⟩ :=
    decSliceCompletes { s with arg := [(trial.word.toNat : Int)] } c len _ hp hc hlen1 hlen20 trial.word.isLt rfl
  rw [BitVec.ofNat_toNat, BitVec.setWidth_eq, ← hlen, hreplay] at hframe hlms
  refine ⟨_, _, _, _, _, t, henc, hdec, congrArg State.res hframe, ?history, ?weights⟩
  case history => rw [hlms]
  case weights => rw [hlms]

end Sys2Proof.Machine

/-! ## The search (43_frame.md R160 to R167) -/

namespace Sys2Proof.Machine

open Sys2Proof.Claims

/-- What the search keeps once it has accepted trial `i` (R160, R161). -/
def trialBest (l : Lms) (prev : BitVec 4) (xs : List Sample) (i : Nat) : Best :=
  ⟨(nthTrial l prev xs i).rank, (nthTrial l prev xs i).word, BitVec.ofNat 4 ((i + prev.toNat) % 16),
    (nthTrial l prev xs i).err, (nthTrial l prev xs i).lms⟩

/-- Under the metric, trial `j` is the first one accepted after trial `i` was (R160, R162). -/
def acceptedNext (m : Config.SearchMetric) (l : Lms) (prev : BitVec 4) (xs : List Sample) (i j : Nat) : Prop :=
  i < j ∧ searchKey m (nthTrial l prev xs j) < (nthTrial l prev xs i).rank ∧
  ∀ k, i < k → k < j → (nthTrial l prev xs i).rank ≤ searchKey m (nthTrial l prev xs k)

section
variable {m : Config.SearchMetric} {l : Lms} {prev : BitVec 4} {xs : List Sample}

theorem searchKey_le_rank (l : Lms) (sf : BitVec 4) (xs : List Sample) :
    searchKey m (encTrial l sf xs) ≤ (encTrial l sf xs).rank := by
  cases m with
  | rank => exact Nat.le_refl _
  | errorVsRank => exact encTrial_err_le_rank l sf xs

/-- The key of a slice's trial stays below the rank the search starts from, so trial 0 is accepted (R148, R160). -/
theorem searchStep_first (h : xs.length ≤ 20) :
    searchStep m l prev xs (noBest l prev) 0 = trialBest l prev xs 0 := by
  refine searchStep_accept ?_
  have hkey := searchKey_le_rank (m := m) l (BitVec.ofNat 4 ((0 + prev.toNat) % 16)) xs
  have hrank := encTrial_rank_le l (BitVec.ofNat 4 ((0 + prev.toNat) % 16)) xs
  have hstart : (noBest l prev).rank = 2 ^ 64 - 1 := rfl
  omega

/-- After trials `0 .. n` the search holds the last trial of the chain of accepted ones. -/
theorem search_chain (h : xs.length ≤ 20) (n : Nat) :
    ∃ i ≤ n, (List.range (n + 1)).foldl (searchStep m l prev xs) (noBest l prev) = trialBest l prev xs i ∧
      Relation.ReflTransGen (acceptedNext m l prev xs) 0 i ∧
      ∀ j ≤ n, i < j → (nthTrial l prev xs i).rank ≤ searchKey m (nthTrial l prev xs j) := by
  induction n with
  | zero => exact ⟨0, Nat.le_refl 0, searchStep_first h, .refl, by omega⟩
  | succ n ih =>
    obtain ⟨i, hi, hbest, hchain, hlater⟩ := ih
    rw [List.range_succ, List.foldl_append, hbest, List.foldl_cons, List.foldl_nil]
    obtain ⟨hkey, hstep⟩ | ⟨hkey, hstep⟩ := searchStep_cases m l prev xs (trialBest l prev xs i) (n + 1)
    · refine ⟨i, by omega, hstep, hchain, fun j hj hij => ?_⟩
      obtain hj | rfl := Nat.le_or_eq_of_le_succ hj
      · exact hlater j hj hij
      · exact Nat.le_of_not_lt hkey
    · have hnext : acceptedNext m l prev xs i (n + 1) :=
        ⟨by omega, hkey, fun k hik hk => hlater k (by omega) hik⟩
      exact ⟨n + 1, Nat.le_refl _, hstep, hchain.tail hnext, by omega⟩

/-- With the default metric the rank of an accepted trial is below that of every trial before it. -/
theorem rank_lt_of_chain {i : Nat} (h : Relation.ReflTransGen (acceptedNext .rank l prev xs) 0 i) :
    ∀ j < i, (nthTrial l prev xs i).rank < (nthTrial l prev xs j).rank := by
  induction h with
  | refl => omega
  | @tail b c _ hnext ih =>
    obtain ⟨-, hlt, hbetween⟩ := hnext
    intro j hj
    obtain hjb | rfl | hbj := Nat.lt_trichotomy j b
    · exact Nat.lt_trans hlt (ih j hjb)
    · exact hlt
    · exact Nat.lt_of_lt_of_le hlt (hbetween j hbj hj)

end

/-- Settles O26: the trials before the last one accepted have a greater rank, and none after it a smaller one. -/
theorem searchPicksFirstLeastRank : Obligations.SearchPicksFirstLeastRank := by
  intro l prev xs h
  obtain ⟨i, hi, hbest, hchain, hlater⟩ := search_chain (m := .rank) (l := l) (prev := prev) h 15
  have hearlier := rank_lt_of_chain hchain
  refine ⟨i, by omega, hbest, fun j hj => ?_, hearlier⟩
  obtain hji | rfl | hij := Nat.lt_trichotomy j i
  · exact Nat.le_of_lt (hearlier j hji)
  · exact Nat.le_refl _
  · exact hlater j (by omega) hij

/-- Settles O27: the chain of accepted trials, with the error as the key. -/
theorem literalMetricComparesErrorWithRank : Obligations.LiteralMetricComparesErrorWithRank := by
  intro l prev xs h
  obtain ⟨i, hi, hbest, hchain, hlater⟩ := search_chain (m := .errorVsRank) (l := l) (prev := prev) h 15
  exact ⟨i, by omega, hbest, hchain, fun j hj hij => hlater j (by omega) hij⟩

/-- Settles O28: the two metrics compare the same key in every turn. -/
theorem metricsAgreeWithoutPenalty : Obligations.MetricsAgreeWithoutPenalty := by
  intro l prev xs h
  refine List.foldl_ext _ _ _ fun b i hi => ?_
  have hkey : searchKey .rank (nthTrial l prev xs i) = searchKey .errorVsRank (nthTrial l prev xs i) :=
    h i (List.mem_range.mp hi)
  obtain ⟨hrank, hstep⟩ | ⟨hrank, hstep⟩ := searchStep_cases .rank l prev xs b i
  · exact hstep.trans (searchStep_reject (m := .errorVsRank) (hkey ▸ hrank)).symm
  · exact hstep.trans (searchStep_accept (m := .errorVsRank) (hkey ▸ hrank)).symm

/-- Settles O29: the operands pass their tests, and the channel takes the search's result. -/
theorem encSliceCommitsTheBestTrial : Obligations.EncSliceCommitsTheBestTrial := by
  intro s c len hp hc hlen1 hlen20 harg hrange ch b
  have hexec := execEncSlice_ok hp (channelOperand_ok hc) (lenOperand_ok hlen1 hlen20) (samplesOperand_ok harg hrange)
  refine ⟨_, hexec, rfl, Bank.get_set_same _ _ _, Bank.get_set_same _ _ _, BitVec.toNat_ofNat _ _, fun d hd => ?_⟩
  exact ⟨Bank.get_set_other _ _ hd, Bank.get_set_other _ _ hd⟩

end Sys2Proof.Machine

/-! ## Encoding a frame (43_frame.md R168, R169, R174) -/

namespace Sys2Proof.Machine

open Sys2Proof.Claims

/-! ### Cursors, phase and bytes -/

theorem exec_encFrame {s : State} (hp : s.phase = .needFrame) (hm : s.mode = .enc) (harg : s.arg = []) :
    exec .encFrame s = .next (s.afterEncode.returns []) := by
  rw [← finishEncode_encodeFrameBody]
  exact execEncFrame_ok (by simp [hp]) (noOperand_eq_ok.mpr harg) (frameAdmitted_iff.mpr ⟨hp, hm⟩)

/-- What the invariant says of a frame that is due in an encode: its length, and the room for its bytes. -/
structure FrameDue (s : State) : Prop where
  channels : s.channels.toNat ≤ 8
  length : s.nextFrameLength ≤ 5120
  frameEnd : s.frameEnd.toNat = s.samplePos.toNat + s.nextFrameLength
  room : s.bsoutPos.toNat + frameBytes s.channels.toNat s.nextFrameLength < 2 ^ 64

theorem State.Inv.frameDue {s : State} (h : s.Inv) (hp : s.phase = .needFrame) (hm : s.mode = .enc) : FrameDue s := by
  obtain ⟨-, hC, -⟩ := h.descriptor (by simp [hm])
  have hlt := h.samplePos_lt hp
  obtain ⟨-, -, hwhole, -⟩ := h.output.2.2 hm
  obtain ⟨hend, -, h5120, -⟩ := frameEnd_bounds hlt (hwhole.resolve_right (by omega))
  have hbytes := frameBytes_lt hC h5120
  have hpos := h.bsoutPos_le
  have htotal := h.outTotal_lt
  exact ⟨hC, h5120, hend, by omega⟩

theorem frameBytes_eq_slices (channels n : Nat) :
    frameBytes channels n = 8 + 16 * channels + 8 * slices n * channels := by
  rw [frameBytes, ceilDiv_twenty]

/-- `ENC.FRAME` appends the `fsize` bytes of its frame. -/
theorem FrameDue.appended {s : State} (h : FrameDue s) :
    Appended s s.afterEncode (1 + 2 * s.channels.toNat + slices s.nextFrameLength * s.channels.toNat) := by
  obtain ⟨hpos, houtside, hinside⟩ := encodeFrameBody_appends s h.channels h.room
  rw [ceilDiv_twenty] at hpos houtside hinside
  exact ⟨hpos, houtside, hinside⟩

/-- A channel the stream does not have ends a frame with the `PREV_SF` its start cleared. -/
theorem encodeFrameBody_prevSf_other (s : State) {c : Fin 8} (hc : s.channels.toNat ≤ c.val) :
    (encodeFrameBody s).prevSf.get c = 0 := by
  rw [encodeFrameBody_eq]
  refine List.foldlRecOn (motive := fun u : State => u.prevSf.get c = 0) _ _ ?_ fun u hu p hp => ?_
  · rw [afterPrelude_frame, allChannels_get]
  · have hne : c ≠ p.c := by
      rintro rfl
      have := (mem_slicePositions.mp hp).2.1
      omega
    simp only [encodeSlice, State.put_prevSf, State.commit_prevSf, Bank.get_set_other _ _ hne, hu]

theorem afterEncode_phase {s : State} (hp : s.phase = .needFrame) :
    (s.afterEncode.phase = .done ↔ s.frameEnd = s.samples) ∧
    (s.afterEncode.phase = .needFrame ↔ s.frameEnd ≠ s.samples) := by
  have hphase : s.afterEncode.phase = if s.frameEnd = s.samples then .done else .needFrame := by rw [← hp]; rfl
  rw [hphase]
  split
  · next hlast => exact ⟨iff_of_true rfl hlast, iff_of_false nofun (not_not_intro hlast)⟩
  · next hmore => exact ⟨iff_of_false nofun hmore, iff_of_true rfl hmore⟩

/-- Settles O30: the frame appends its words; the rest is what `ENC.FRAME` leaves of each register. -/
theorem encFrameMovesTheCursors : Obligations.EncFrameMovesTheCursors := by
  intro s hinv hp hm harg C flen fsize
  have hdue := hinv.frameDue hp hm
  obtain ⟨hpos, houtside, hinside⟩ := hdue.appended
  obtain ⟨hdone, hmore⟩ := afterEncode_phase hp
  have hsize : 8 * (1 + 2 * s.channels.toNat + slices s.nextFrameLength * s.channels.toNat) = fsize := by
    rw [← ceilDiv_twenty, ← frameBytes_eq_words, frameBytes_eq_slices]; rfl
  rw [hsize] at hpos houtside hinside
  refine ⟨_, exec_encFrame hp hm harg, rfl, hdue.frameEnd, hpos, hdone, hmore, fun c hc => ?_, houtside, hinside⟩
  exact ⟨encodeFrameBody_lms_other s hc, encodeFrameBody_prevSf_other s hc⟩

/-! ### The header and the LMS words -/

/-- The eight bytes that hold a word read as it. -/
theorem bsoutWord_of_holds {s : State} {a : Nat} {w : WireWord} (h : HoldsWord s.bsout a w.toNat) :
    bsoutWord s a = some w.toNat := by
  have hwritten : (List.range 8).all (fun k => (Memory.read s.bsout (a + k)).isSome) = true := by
    rw [List.all_eq_true]
    intro k hk
    rw [h k (List.mem_range.mp hk)]
    rfl
  have hvalue : memRead (fun b => (Memory.read s.bsout b).getD 0) a 8 = w.toNat % 256 ^ 8 :=
    memRead_of_bytes _ a 8 w.toNat fun i hi => by rw [h i hi]; rfl
  have hlt : w.toNat < 256 ^ 8 := w.isLt
  rw [bsoutWord, if_pos hwritten, hvalue, Nat.mod_eq_of_lt hlt]

theorem channelList_getElem? {n : Nat} (h : n ≤ 8) {c : Fin 8} (hc : c.val < n) : (channelList n)[c.val]? = some c := by
  revert c
  interval_cases n <;> decide

/-- The two LMS words of a channel stand at the old cursor. -/
theorem putLms_holds {s : State} (c : Fin 8) (hroom : s.bsoutPos.toNat + 16 < 2 ^ 64) :
    HoldsWord (putLms s c).bsout s.bsoutPos.toNat (pack4 (s.lms.get c).h).toNat ∧
    HoldsWord (putLms s c).bsout (s.bsoutPos.toNat + 8) (pack4 (s.lms.get c).w).toNat := by
  have hpos := put_bsoutPos s (pack4 (s.lms.get c).h) (by omega)
  have happ := Appended.put (s.put (pack4 (s.lms.get c).h)) (pack4 (s.lms.get c).w) (by omega)
  refine ⟨(put_holds s _).kept happ (by omega), ?_⟩
  rw [← hpos]
  exact put_holds _ _

/-- The LMS words of channels stand one after another, a pair for each channel. -/
theorem putLms_fold_holds (cs : List (Fin 8)) {s : State} (hroom : s.bsoutPos.toNat + 16 * cs.length < 2 ^ 64)
    {j : Nat} {c : Fin 8} (hj : cs[j]? = some c) :
    HoldsWord (cs.foldl putLms s).bsout (s.bsoutPos.toNat + 16 * j) (pack4 (s.lms.get c).h).toNat ∧
    HoldsWord (cs.foldl putLms s).bsout (s.bsoutPos.toNat + 16 * j + 8) (pack4 (s.lms.get c).w).toNat := by
  induction cs generalizing s j with
  | nil => simp at hj
  | cons d cs ih =>
    rw [List.length_cons] at hroom
    have hpos := (putLms_appends s d (by omega)).pos
    cases j with
    | zero =>
      obtain rfl : d = c := by simpa using hj
      obtain ⟨hhistory, hweights⟩ := putLms_holds (s := s) d (by omega)
      have hrest := Appended.fold (k := 2) putLms_appends cs (putLms s d) (by omega)
      exact ⟨hhistory.kept hrest (by omega), hweights.kept hrest (by omega)⟩
    | succ j =>
      have hwords := ih (s := putLms s d) (by omega) (by simpa using hj)
      have hplace : (putLms s d).bsoutPos.toNat + 16 * j = s.bsoutPos.toNat + 16 * (j + 1) := by omega
      rw [hplace] at hwords
      exact hwords

theorem afterPrelude_bsout (s : State) :
    s.afterPrelude.bsout = ((channelList s.channels.toNat).foldl putLms (s.put s.nextFrameHeader)).bsout := rfl

section
variable {s : State} (h : FrameDue s)
include h

/-- The prelude of a frame: its header at the old cursor, then each channel's LMS words (20_memory.md R61). -/
theorem FrameDue.prelude_holds :
    HoldsWord s.afterPrelude.bsout s.bsoutPos.toNat s.nextFrameHeader.toNat ∧
    ∀ c : Fin 8, c.val < s.channels.toNat →
      HoldsWord s.afterPrelude.bsout (s.bsoutPos.toNat + 8 + 16 * c.val) (pack4 (s.lms.get c).h).toNat ∧
      HoldsWord s.afterPrelude.bsout (s.bsoutPos.toNat + 16 + 16 * c.val) (pack4 (s.lms.get c).w).toNat := by
  have hroom := h.room
  rw [frameBytes_eq_words] at hroom
  have hlist := channelList_length h.channels
  have hpos := put_bsoutPos s s.nextFrameHeader (by omega)
  rw [afterPrelude_bsout]
  refine ⟨?header, fun c hc => ?lms⟩
  case header =>
    have hrest := Appended.fold (k := 2) putLms_appends (channelList s.channels.toNat) (s.put s.nextFrameHeader)
      (by omega)
    exact (put_holds s s.nextFrameHeader).kept hrest (by omega)
  case lms =>
    have hwords := putLms_fold_holds _ (s := s.put s.nextFrameHeader) (by omega) (channelList_getElem? h.channels hc)
    rw [hpos, Nat.add_right_comm _ (16 * c.val) 8] at hwords
    exact hwords

/-- The slices of a frame are appended behind its prelude. -/
theorem FrameDue.slicesAppended :
    Appended s.afterPrelude (encodeFrameBody s) (slices s.nextFrameLength * s.channels.toNat) := by
  have hroom := h.room
  rw [frameBytes_eq_words, ceilDiv_twenty] at hroom
  have hprelude := (afterPrelude_appends s h.channels (by omega)).pos
  have hlen := slicePositions_length (n := s.nextFrameLength) h.channels
  rw [ceilDiv_twenty] at hlen
  have hfold := Appended.fold (k := 1) encodeSlice_appends (slicePositions s.channels.toNat s.nextFrameLength)
    s.afterPrelude (by omega)
  rwa [Nat.one_mul, hlen] at hfold

/-- A word of the prelude stays while the slices are encoded, and reads as itself. -/
theorem FrameDue.prelude_word {a : Nat} {w : WireWord}
    (hw : HoldsWord s.afterPrelude.bsout a w.toNat) (ha : a + 8 ≤ s.bsoutPos.toNat + 8 + 16 * s.channels.toNat) :
    bsoutWord (s.afterEncode.returns []) a = some w.toNat := by
  have hroom := h.room
  rw [frameBytes_eq_words] at hroom
  have hprelude := (afterPrelude_appends s h.channels (by omega)).pos
  have hkept : HoldsWord (encodeFrameBody s).bsout a w.toNat := hw.kept h.slicesAppended (by omega)
  exact bsoutWord_of_holds (s := s.afterEncode.returns []) hkept

/-- The header of the next frame holds its length and its true size (R169). -/
theorem FrameDue.header_toNat :
    s.nextFrameHeader.toNat = s.channels.toNat * 2 ^ 56 + s.sampleRate.toNat * 2 ^ 32 + s.nextFrameLength * 2 ^ 16 +
      frameBytes s.channels.toNat s.nextFrameLength := by
  have hlength := h.length
  have hbytes := frameBytes_lt h.channels hlength
  rw [State.nextFrameHeader, frameHeaderPack_toNat, BitVec.toNat_ofNat, BitVec.toNat_ofNat,
    Nat.mod_eq_of_lt (a := s.nextFrameLength) (by omega), Nat.mod_eq_of_lt hbytes]

end

/-- Settles O31: the prelude's words are put before any slice is encoded, from registers no word changes. -/
theorem encFrameWritesHeaderAndPrelude : Obligations.EncFrameWritesHeaderAndPrelude := by
  intro s hinv hp hm harg C flen
  have hdue := hinv.frameDue hp hm
  obtain ⟨hheader, hlms⟩ := hdue.prelude_holds
  have hsize : s.afterEncode.bsoutPos.toNat - s.bsoutPos.toNat = frameBytes s.channels.toNat s.nextFrameLength := by
    rw [hdue.appended.pos, frameBytes_eq_words, ceilDiv_twenty, Nat.add_sub_cancel_left]
  refine ⟨_, exec_encFrame hp hm harg, ?header, fun c hc => ?lms⟩
  case header =>
    rw [hdue.prelude_word hheader (by omega), hdue.header_toNat, State.returns_bsoutPos, hsize]
    rfl
  case lms =>
    obtain ⟨hhistory, hweights⟩ := hlms c hc
    exact ⟨hdue.prelude_word hhistory (by omega), hdue.prelude_word hweights (by omega)⟩

/-! ### The slices by command (R167, R174) -/

/-- `ENC.SLICE` of the next slice of a frame, with the samples the host would give it. -/
theorem exec_encSlice_samples {s : State} (hp : s.phase ≠ .error) (c : Fin 8) {xs : List Sample}
    (h1 : 1 ≤ xs.length) (h20 : xs.length ≤ 20) :
    exec (.encSlice (BitVec.ofNat 4 c.val) (BitVec.ofNat 16 xs.length)) { s with arg := xs.map BitVec.toInt } =
      .next ((State.commit { s with arg := xs.map BitVec.toInt } c (s.searchFor c xs)).returns
        (searchResults (s.searchFor c xs))) := by
  have hc : channelOperand (BitVec.ofNat 4 c.val) = .ok c :=
    channelOperand_eq_ok.mpr (Nat.mod_eq_of_lt (by omega))
  have hlen : (BitVec.ofNat 16 xs.length).toNat = xs.length := Nat.mod_eq_of_lt (by omega)
  have hlenOperand : lenOperand (BitVec.ofNat 16 xs.length) = .ok xs.length :=
    lenOperand_eq_ok.mpr ⟨hlen, by omega, by omega⟩
  have hsamples : samplesOperand xs.length (xs.map BitVec.toInt) = .ok xs := by
    rw [samplesOperand_ok (List.length_map _) (by simp [toInt_int16])]
    simp [Function.comp_def]
  exact execEncSlice_ok (s := { s with arg := xs.map BitVec.toInt }) hp hc hlenOperand hsamples

/-- The slice of the frame at `SAMPLE_POS` that stands at the place `p`. -/
def State.sliceAt (s : State) (p : Nat × Fin 8) : SlicePos := ⟨p.1, p.2, min 20 (s.nextFrameLength - 20 * p.1)⟩

theorem sliceSamples_length (s : State) (p : SlicePos) : (s.sliceSamples p).length = p.len := by
  rw [State.sliceSamples, List.length_map, List.length_range]

/-- What the command makes of the next slice of a frame: the search's result committed, its word, and the samples its
trial reconstructs. -/
theorem sliceByCommand_eq {s : State} {acc : EncodedFrame} {p : Nat × Fin 8} (hp : acc.state.phase ≠ .error)
    (hplace : 20 * p.1 < s.nextFrameLength) :
    let xs := s.sliceSamples (s.sliceAt p)
    let b := acc.state.searchFor p.2 xs
    sliceByCommand s acc p =
      { state := (State.commit { acc.state with arg := xs.map BitVec.toInt } p.2 b).returns (searchResults b)
        words := acc.words ++ [wordResult b.word]
        samples := acc.samples ++
          (trialSamples b.sf (acc.state.lms.get p.2) xs).mapIdx fun k x => (sliceIndex s p k, x) } := by
  intro xs b
  have hlen : xs.length = min 20 (s.nextFrameLength - 20 * p.1) := sliceSamples_length s _
  have hexec := exec_encSlice_samples hp p.2 (xs := xs) (by omega) (by omega)
  rw [hlen] at hexec
  have hsf : BitVec.ofInt 4 (b.sf.toNat : Int) = b.sf := by
    rw [BitVec.ofInt_natCast, BitVec.ofNat_toNat, BitVec.setWidth_eq]
  unfold sliceByCommand
  dsimp only
  split
  · next t ht =>
    obtain rfl := Host.Outcome.next.inj (hexec.symm.trans ht)
    rw [← hsf]
    rfl
  · next hne => exact absurd hexec (hne _)

/-- A frame of `s` encoded so far, by the commands in `acc` and by `ENC.FRAME` in `u`, whose slices begin at `base`: the
same registers, and the words the commands returned stand in `BSOUT` one after another. -/
structure SlicesAgree (s : State) (base : Nat) (acc : EncodedFrame) (u : State) : Prop where
  body : u = { s with lms := acc.state.lms, prevSf := acc.state.prevSf, errorCount := acc.state.errorCount
                      bsout := u.bsout, bsoutPos := u.bsoutPos }
  phase : acc.state.phase = s.phase
  params : acc.state.params = s.params
  pos : u.bsoutPos.toNat = base + 8 * acc.words.length
  words : ∀ j w, acc.words[j]? = some w → ∃ v : WireWord, w = wordResult v ∧ HoldsWord u.bsout (base + 8 * j) v.toNat

theorem SlicesAgree.registers {s u : State} {base : Nat} {acc : EncodedFrame} (h : SlicesAgree s base acc u) :
    u.lms = acc.state.lms ∧ u.prevSf = acc.state.prevSf ∧ u.errorCount = acc.state.errorCount := by
  rw [h.body]
  exact ⟨rfl, rfl, rfl⟩

/-- One slice more, by the command and by `ENC.FRAME`. -/
theorem SlicesAgree.next {s u : State} {base : Nat} {acc : EncodedFrame} (h : SlicesAgree s base acc u)
    (hp : s.phase = .needFrame) {p : Nat × Fin 8} (hplace : 20 * p.1 < s.nextFrameLength)
    (hroom : u.bsoutPos.toNat + 8 < 2 ^ 64) :
    SlicesAgree s base (sliceByCommand s acc p) (encodeSlice u (s.sliceAt p)) := by
  have hrunning : acc.state.phase ≠ .error := by simp [h.phase, hp]
  have happ := encodeSlice_appends u (s.sliceAt p) hroom
  have hbest : u.searchFor p.2 (u.sliceSamples (s.sliceAt p)) =
      acc.state.searchFor p.2 (s.sliceSamples (s.sliceAt p)) := by
    rw [State.searchFor, State.searchFor, h.params, h.body]
    rfl
  rw [sliceByCommand_eq hrunning hplace]
  generalize acc.state.searchFor p.2 (s.sliceSamples (s.sliceAt p)) = b at hbest ⊢
  have henc : encodeSlice u (s.sliceAt p) = (u.commit p.2 b).put b.word := by rw [← hbest]; rfl
  refine ⟨?body, h.phase, h.params, ?pos, ?words⟩
  case body =>
    rw [henc, h.body]
    rfl
  case pos => rw [happ.pos, h.pos, List.length_append, List.length_singleton]; omega
  case words =>
    intro j w hj
    obtain hlt | hge := Nat.lt_or_ge j acc.words.length
    · rw [List.getElem?_append_left hlt] at hj
      obtain ⟨v, rfl, hv⟩ := h.words j w hj
      exact ⟨v, rfl, hv.kept happ (by rw [h.pos]; omega)⟩
    · rw [List.getElem?_append_right hge] at hj
      obtain ⟨hlast, rfl⟩ := List.getElem?_eq_some_iff.mp hj
      rw [List.length_singleton] at hlast
      obtain rfl : j = acc.words.length := by omega
      refine ⟨_, List.getElem_singleton _, ?_⟩
      rw [henc, ← h.pos]
      exact put_holds (u.commit p.2 _) _

/-- The places of the slices of the frame at `SAMPLE_POS`, slice-major and channel-minor (R174). -/
def State.framePlaces (s : State) : List (Nat × Fin 8) :=
  (List.range (slices s.nextFrameLength)).flatMap fun k => (channelList s.channels.toNat).map fun c => (k, c)

theorem frameByCommands_eq (s : State) :
    frameByCommands s = s.framePlaces.foldl (sliceByCommand s) ⟨{ s with prevSf := allChannels 0 }, [], []⟩ := rfl

theorem slicePositions_eq (s : State) :
    slicePositions s.channels.toNat s.nextFrameLength = s.framePlaces.map s.sliceAt := by
  rw [slicePositions, State.framePlaces, ceilDiv_twenty, List.map_flatMap]
  simp only [List.map_map]
  rfl

/-- Every slice of a frame holds a sample. -/
theorem framePlaces_inFrame {s : State} : ∀ p ∈ s.framePlaces, 20 * p.1 < s.nextFrameLength := by
  intro p hp
  obtain ⟨k, hk, hp⟩ := List.mem_flatMap.mp hp
  obtain ⟨c, -, rfl⟩ := List.mem_map.mp hp
  have hlt : k < slices s.nextFrameLength := List.mem_range.mp hk
  rw [slices] at hlt
  show 20 * k < _
  omega

/-- The slices of a frame one after another, by the commands and by `ENC.FRAME`. -/
theorem SlicesAgree.fold {s : State} {base : Nat} (hp : s.phase = .needFrame) (ps : List (Nat × Fin 8))
    (hps : ∀ p ∈ ps, 20 * p.1 < s.nextFrameLength) {acc : EncodedFrame} {u : State} (h : SlicesAgree s base acc u)
    (hroom : u.bsoutPos.toNat + 8 * ps.length < 2 ^ 64) :
    SlicesAgree s base (ps.foldl (sliceByCommand s) acc) ((ps.map s.sliceAt).foldl encodeSlice u) := by
  induction ps generalizing acc u with
  | nil => exact h
  | cons p ps ih =>
    rw [List.length_cons] at hroom
    have hpos := (encodeSlice_appends u (s.sliceAt p) (by omega)).pos
    exact ih (fun q hq => hps q (by simp [hq])) (h.next hp (hps p (by simp)) (by omega)) (by omega)

/-- `ENC.FRAME`'s body and the commands `ENC.SLICE` agree on the whole frame. -/
theorem FrameDue.slicesAgree {s : State} (h : FrameDue s) (hp : s.phase = .needFrame) :
    SlicesAgree s (s.bsoutPos.toNat + 8 + 16 * s.channels.toNat) (frameByCommands s) (encodeFrameBody s) := by
  have hroom := h.room
  rw [frameBytes_eq_words] at hroom
  have hlength := slicePositions_length (n := s.nextFrameLength) h.channels
  have hpos := (afterPrelude_appends s h.channels (by omega)).pos
  have hstart : SlicesAgree s (s.bsoutPos.toNat + 8 + 16 * s.channels.toNat)
      ⟨{ s with prevSf := allChannels 0 }, [], []⟩ s.afterPrelude :=
    ⟨by rw [afterPrelude_frame], rfl, rfl, by rw [hpos, List.length_nil]; omega, nofun⟩
  rw [frameByCommands_eq, encodeFrameBody_eq, slicePositions_eq]
  refine hstart.fold hp _ framePlaces_inFrame ?_
  rw [slicePositions_eq, List.length_map] at hlength
  omega

/-- Settles O32: the frame's slices by the commands keep pace with those of `ENC.FRAME`. -/
theorem encFrameIsItsSlicesInOrder : Obligations.EncFrameIsItsSlicesInOrder := by
  intro s hinv hp hm harg C flen r
  have hdue := hinv.frameDue hp hm
  have hagree := hdue.slicesAgree hp
  have hpos := hagree.pos
  obtain ⟨hlms, hprevSf, herrors⟩ := hagree.registers
  refine ⟨_, exec_encFrame hp hm harg, hlms, hprevSf, herrors, ?count, fun j w hj => ?word⟩
  case count =>
    have hend : (encodeFrameBody s).bsoutPos.toNat = _ := hdue.appended.pos
    show (frameByCommands s).words.length = slices s.nextFrameLength * s.channels.toNat
    omega
  case word =>
    obtain ⟨v, rfl, hv⟩ := hagree.words j w hj
    rw [bsoutWord_of_holds (s := s.afterEncode.returns []) hv]
    rfl

end Sys2Proof.Machine

/-! ## Decoding a frame (43_frame.md R171 to R175) -/

namespace Sys2Proof.Machine

open Sys2Proof.Claims

/-! ### How `DEC.FRAME` ends -/

section
variable {s : State} (hp : s.phase = .needFrame) (hm : s.mode = .dec) (harg : s.arg = [])
include hp hm harg

/-- `DEC.FRAME` raises the error its checks find, and without one it decodes the frame. -/
theorem exec_decFrame :
    exec .decFrame s = .next
      ((frameError s).elim ((decodeFrameBody (headerFsamples s.headerWord).toNat s).returns []) s.raise) := by
  have hrunning : s.phase ≠ .error := by simp [hp]
  have hoperand : noOperand s.arg = .ok () := noOperand_eq_ok.mpr harg
  have hadmitted : frameAdmitted .dec s = true := frameAdmitted_iff.mpr ⟨hp, hm⟩
  have hcheck := checkFrame_eq s
  cases hfound : frameError s with
  | none =>
    rw [hfound] at hcheck
    exact execDecFrame_ok hrunning hoperand hadmitted hcheck
  | some e =>
    rw [hfound] at hcheck
    refine operate_raise hrunning ?_
    rw [hoperand, hadmitted, hcheck]
    rfl

theorem exec_decFrame_passed (hpass : frameError s = none) :
    exec .decFrame s = .next ((decodeFrameBody (headerFsamples s.headerWord).toNat s).returns []) := by
  rw [exec_decFrame hp hm harg, hpass]
  rfl

end

/-! What the end of a decode leaves of each register that R173 does not name. -/

@[simp] theorem finishDecode_lms (s : State) : (finishDecode s).lms = s.lms := by unfold finishDecode; split <;> rfl
@[simp] theorem finishDecode_pcmout (s : State) : (finishDecode s).pcmout = s.pcmout := by
  unfold finishDecode; split <;> rfl
@[simp] theorem finishDecode_samplePos (s : State) : (finishDecode s).samplePos = s.samplePos := by
  unfold finishDecode; split <;> rfl
@[simp] theorem finishDecode_bsinPos (s : State) : (finishDecode s).bsinPos = s.bsinPos := by
  unfold finishDecode; split <;> rfl
@[simp] theorem finishDecode_err (s : State) : (finishDecode s).err = s.err := by unfold finishDecode; split <;> rfl

/-- Settles O33: the checks find the error that is raised; without one the frame is decoded, which touches no `ERR`. -/
theorem decFrameRaisesFirstFailingCheck : Obligations.DecFrameRaisesFirstFailingCheck := by
  intro s hp hm harg
  refine ⟨fun e he => ?_, fun hpass => ?_⟩
  · rw [exec_decFrame hp hm harg, he]
    rfl
  · refine ⟨_, exec_decFrame_passed hp hm harg hpass, ?_, ?_⟩
    · rw [State.returns_phase]
      exact decodeFrameBody_phase_ne_error (by simp [hp]) _
    · rw [State.returns_err, decodeFrameBody_eq, finishDecode_err]
      rfl

/-! ### Cursors, phase and samples -/

/-- The units of a frame write the frame's locations of `PCMOUT` and no other (R54, R68). -/
theorem frameUnits_pcmout (n : Nat) {s : State} (hC : s.channels.toNat ≤ 8) :
    let u := decodeUnits (frameUnits s.bsinPos.toNat s.channels.toNat n) s
    (∀ i, i < s.samplePos.toNat * s.channels.toNat ∨ (s.samplePos.toNat + n) * s.channels.toNat ≤ i →
      Memory.read u.pcmout i = Memory.read s.pcmout i) ∧
    (∀ i, s.samplePos.toNat * s.channels.toNat ≤ i → i < (s.samplePos.toNat + n) * s.channels.toNat →
      (Memory.read u.pcmout i).isSome = true) := by
  obtain hzero | hpos := Nat.eq_zero_or_pos s.channels.toNat
  · have hunits : frameUnits s.bsinPos.toNat s.channels.toNat n = [] := by
      simp [hzero, frameUnits, slicePositions, channelList]
    rw [hunits, hzero]
    exact ⟨fun _ _ => rfl, by omega⟩
  · obtain ⟨hother, hown⟩ := decodeUnits_pcmout (frameUnits s.bsinPos.toNat s.channels.toNat n) s hpos
    refine ⟨fun i hi => hother i fun u hu hw => ?_, fun i h1 h2 => hown i ?_⟩
    · obtain ⟨h1, h2⟩ := (frameUnits_writes s n hpos hC i).mp ⟨u, hu, hw⟩
      omega
    · exact (frameUnits_writes s n hpos hC i).mpr ⟨h1, h2⟩

/-- The cursors after a frame of `n` samples per channel, where checks 6 and 7 of R171 keep them in their registers. -/
theorem afterUnits_cursors {s : State} {n : Nat} (hsamples : s.samplePos.toNat + n ≤ s.samples.toNat)
    (hbytes : frameBytes s.channels.toNat n ≤ s.bsinLen.toNat - s.bsinPos.toNat) :
    (s.afterUnits n).bsinPos.toNat = s.bsinPos.toNat + frameBytes s.channels.toNat n ∧
    (s.afterUnits n).samplePos.toNat = s.samplePos.toNat + n := by
  have hlen := s.bsinLen.isLt
  have htotal := s.samples.isLt
  have hheader : 8 ≤ frameBytes s.channels.toNat n := by rw [frameBytes]; omega
  exact ⟨Nat.mod_eq_of_lt (by omega), Nat.mod_eq_of_lt (by omega)⟩

/-- Whether the decode goes on after a frame, on the cursors as numbers (R173). -/
theorem finishDecode_phase (s : State) :
    if (finishDecode s).samplePos.toNat < s.samples.toNat ∧ (finishDecode s).bsinPos.toNat < s.bsinLen.toNat
    then (finishDecode s).phase = s.phase ∧ (finishDecode s).samples = s.samples
    else (finishDecode s).phase = .done ∧ (finishDecode s).samples = (finishDecode s).samplePos := by
  obtain ⟨hmore, hinput, h⟩ | ⟨hend, h⟩ := finishDecode_cases s
  · rw [h]
    exact (if_pos ⟨hmore, hinput⟩).mpr ⟨rfl, rfl⟩
  · rw [h]
    exact (if_neg hend).mpr ⟨rfl, rfl⟩

theorem headerFsamples_headerWord (s : State) :
    (headerFsamples s.headerWord).toNat = memRead s.bsinByte s.bsinPos.toNat 8 / 2 ^ 16 % 2 ^ 16 := by
  rw [headerFsamples_toNat, State.headerWord, bsinWord_toNat]

theorem checkFrame_passed {s : State} (hpass : frameError s = none) : checkFrame s = .ok () := by
  rw [checkFrame_eq, hpass]
  rfl

/-- Settles O34: the units give the registers and samples, the checks' bounds the cursors, R173 the phase. -/
theorem decFrameMovesTheCursors : Obligations.DecFrameMovesTheCursors := by
  intro s hp hm harg hC hpass C n
  have hn : (headerFsamples s.headerWord).toNat = n := headerFsamples_headerWord s
  have hexec := exec_decFrame_passed hp hm harg hpass
  obtain ⟨hsamples, hbytes⟩ := checkFrame_bounds (checkFrame_passed hpass)
  rw [hn] at hexec hsamples hbytes
  rw [decodeFrameBody_eq] at hexec
  clear_value n
  obtain ⟨hbsin, hsample⟩ := afterUnits_cursors hsamples hbytes
  obtain ⟨hother, hown⟩ := frameUnits_pcmout n hC
  refine ⟨_, hexec, ?frame, ?bsinPos, ?samplePos, ?phase, ?channels, ?outside, ?inside⟩
  case frame =>
    obtain ⟨-, -, h⟩ | ⟨-, h⟩ := finishDecode_cases (s.afterUnits n) <;> rw [h] <;> rfl
  case bsinPos =>
    rw [State.returns_bsinPos, finishDecode_bsinPos, hbsin, frameBytes_eq_slices, ← Nat.add_assoc, ← Nat.add_assoc]
  case samplePos => rw [State.returns_samplePos, finishDecode_samplePos, hsample]
  case phase =>
    rw [State.returns_samplePos, State.returns_bsinPos, State.returns_phase, State.returns_samples, ← hp]
    exact finishDecode_phase (s.afterUnits n)
  case channels =>
    intro c hc
    rw [State.returns_lms, finishDecode_lms]
    exact decodeUnits_lms_other _ c (frameUnits_other_channel hc) s
  case outside => rw [State.returns_pcmout, finishDecode_pcmout]; exact hother
  case inside => rw [State.returns_pcmout, finishDecode_pcmout]; exact hown

/-! ### A frame is its wire words (R172, R174) -/

/-- The instruction a unit of the input decodes to at its place. -/
def unitInstructions (s : State) (u : Nat × WirePos) : List Instr := (decodeWire u.2 (s.bsinWord u.1)).toOption.toList

/-- The places whose words have an effect inside a frame. -/
def isFrameUnit : WirePos → Prop
  | .fileHeader => False
  | .frameHeader _ => False
  | .history _ => True
  | .weights _ => True
  | .slice _ => True

theorem frameUnits_isFrameUnit {base channels n : Nat} : ∀ u ∈ frameUnits base channels n, isFrameUnit u.2 := by
  intro u hu
  simp only [frameUnits, List.mem_append, List.mem_flatMap, List.mem_map, List.mem_cons, List.not_mem_nil,
    or_false] at hu
  obtain ⟨c, -, rfl | rfl⟩ | ⟨p, -, rfl⟩ := hu <;> trivial

/-- The instructions of a frame are those of its units, in stream order. -/
theorem frameInstructions_eq (s : State) :
    frameInstructions s =
      (frameUnits s.bsinPos.toNat s.channels.toNat (headerFsamples s.headerWord).toNat).flatMap
        (unitInstructions s) := by
  rw [headerFsamples_toNat, frameUnits, slicePositions, ceilDiv_twenty]
  simp only [List.flatMap_append, List.flatMap_assoc, List.flatMap_map, List.map_flatMap, List.map_map]
  rfl

/-- A word of a frame, executed where a decode is running, has the effect of its place. -/
theorem exec_frameUnit {s : State} {p : WirePos} (hp : s.phase = .needFrame) (hm : s.mode = .dec)
    (hunit : isFrameUnit p) (w : WireWord) : ∃ i, decodeWire p w = .ok i ∧ exec i s = .next (applyWord p w s) := by
  cases p with
  | fileHeader => exact hunit.elim
  | frameHeader role => exact hunit.elim
  | history c => exact ⟨_, rfl, consume_inFrame hp hm _⟩
  | weights c => exact ⟨_, rfl, consume_inFrame hp hm _⟩
  | slice p =>
    have hword : slicePack (sliceSf w) (sliceIndices w) = w := slicePack_fields w
    refine ⟨_, rfl, ?_⟩
    calc exec (.slice p (sliceSf w) (sliceIndices w)) s
        = .next (applySlice p (slicePack (sliceSf w) (sliceIndices w)) s) := consume_inFrame hp hm _
      _ = _ := by rw [hword]; rfl

theorem execAll_cons {i : Instr} {s t : State} (h : exec i s = .next t) (is : List Instr) :
    execAll (i :: is) s = execAll is t := by
  rw [execAll, h, thenDo_next]

/-- Executing the units' instructions one after another is consuming the units. -/
theorem execAll_units {us : List (Nat × WirePos)} (hus : ∀ u ∈ us, isFrameUnit u.2) {s : State}
    (hp : s.phase = .needFrame) (hm : s.mode = .dec) :
    execAll (us.flatMap (unitInstructions s)) s = .next (decodeUnits us s) := by
  induction us generalizing s with
  | nil => rfl
  | cons u us ih =>
    obtain ⟨i, hi, hexec⟩ := exec_frameUnit hp hm (hus u (by simp)) (s.bsinWord u.1)
    have hframe := applyWord_frame u.2 (s.bsinWord u.1) s
    have hrest := ih (fun v hv => hus v (by simp [hv])) (s := applyWord u.2 (s.bsinWord u.1) s)
      (by rw [hframe]; exact hp) (by rw [hframe]; exact hm)
    have hsame : unitInstructions (applyWord u.2 (s.bsinWord u.1) s) = unitInstructions s := by rw [hframe]; rfl
    rw [hsame] at hrest
    have hhead : unitInstructions s u = [i] := by rw [unitInstructions, hi]; rfl
    rw [List.flatMap_cons, hhead, decodeUnits_cons]
    exact (execAll_cons hexec _).trans hrest

/-- The header of a frame that passes the checks has no effect of its own. -/
theorem exec_header_passed {s : State} (hp : s.phase = .needFrame) (hm : s.mode = .dec) (hpass : frameError s = none) :
    exec (.frameHeader .frame (headerChannels s.headerWord) (headerSampleRate s.headerWord)
      (headerFsamples s.headerWord) (headerFsize s.headerWord)) s = .next s := by
  obtain ⟨⟨⟩, hprelude, -⟩ := bind_eq_ok.mp (checkFrame_passed hpass)
  have hrem : 8 + 16 * s.channels.toNat ≤ s.remainingBytes := of_decide_eq_true (require_eq_ok.mp hprelude)
  rw [exec_frameHeader_frame hp hm (frameHeaderPack_fields _).symm hrem, hpass]
  rfl

/-- Settles O35: the header passes, and the words after it consume the frame's units. -/
theorem decFrameIsItsWireWordsInOrder : Obligations.DecFrameIsItsWireWordsInOrder := by
  intro s hp hm harg hpass
  have hwords := execAll_units (frameUnits_isFrameUnit (base := s.bsinPos.toNat) (channels := s.channels.toNat)
    (n := (headerFsamples s.headerWord).toNat)) hp hm
  have hframe := decodeUnits_frame
    (frameUnits s.bsinPos.toNat s.channels.toNat (headerFsamples s.headerWord).toNat) s
  rw [← frameInstructions_eq] at hwords
  refine ⟨_, _, rfl, ?words, _, exec_decFrame_passed hp hm harg hpass, ?lms, ?pcmout, hframe⟩
  case words => exact (execAll_cons (exec_header_passed hp hm hpass) _).trans hwords
  case lms => rw [State.returns_lms, decodeFrameBody_eq, finishDecode_lms]; rfl
  case pcmout => rw [State.returns_pcmout, decodeFrameBody_eq, finishDecode_pcmout]; rfl

/-! ### Nothing of earlier frames is left (R175) -/

/-- The states differ in the LMS registers alone, and not in those of the channels of `P`. -/
structure AgreeOn (P : Fin 8 → Prop) (s t : State) : Prop where
  frame : t = { s with lms := t.lms }
  channels : ∀ c, P c → s.lms.get c = t.lms.get c

namespace AgreeOn

variable {P : Fin 8 → Prop} {s t : State} (h : AgreeOn P s t)
include h

theorem mono {Q : Fin 8 → Prop} (hQ : ∀ c, Q c → P c) : AgreeOn Q s t :=
  ⟨h.frame, fun c hc => h.channels c (hQ c hc)⟩

theorem bsinWord (a : Nat) : t.bsinWord a = s.bsinWord a := by rw [h.frame]; rfl

theorem ignoringLms (l : Bank Lms) : { s with lms := l } = { t with lms := l } := by rw [h.frame]

theorem returns (r : List Int) : AgreeOn P (s.returns r) (t.returns r) := ⟨by rw [h.frame]; rfl, h.channels⟩

/-- A channel that takes the same LMS value in both states joins those they agree on. -/
theorem setLms (c : Fin 8) (l : Lms) : AgreeOn (fun d => P d ∨ d = c) (s.setLms c l) (t.setLms c l) where
  frame := by rw [h.frame]; rfl
  channels d hd := by
    rw [State.setLms_lms, State.setLms_lms, Bank.get_set, Bank.get_set]
    split
    · rfl
    · next hne => exact h.channels d (hd.resolve_right hne)

theorem sampleWrite (i : Nat) (v : Sample) : AgreeOn P (s.sampleWrite i v) (t.sampleWrite i v) :=
  ⟨by rw [h.frame]; rfl, h.channels⟩

theorem writeSamples (c : Fin 8) (n : Nat) (vs : List Sample) :
    AgreeOn P (writeSamples c n vs s) (writeSamples c n vs t) := by
  induction vs generalizing n s t with
  | nil => exact h
  | cons v vs ih =>
    have hindex : t.channels = s.channels := by rw [h.frame]
    rw [Machine.writeSamples, Machine.writeSamples, hindex]
    exact ih (h.sampleWrite _ v) (n + 1)

/-- A slice of a channel the states agree on has the same effect in both. -/
theorem applySlice (p : SlicePos) (hp : P p.c) (w : WireWord) : AgreeOn P (applySlice p w s) (applySlice p w t) := by
  have hpos : t.samplePos = s.samplePos := by rw [h.frame]
  rw [Machine.applySlice, Machine.applySlice, hpos, h.channels p.c hp]
  exact ((h.setLms p.c _).mono fun _ => .inl).writeSamples _ _ _

/-- Slices of channels the states agree on. -/
theorem decodeSlices {us : List (Nat × WirePos)} (hus : ∀ u ∈ us, ∃ p, u.2 = .slice p ∧ P p.c) :
    AgreeOn P (decodeUnits us s) (decodeUnits us t) := by
  induction us generalizing s t with
  | nil => exact h
  | cons u us ih =>
    obtain ⟨p, hu, hp⟩ := hus u (by simp)
    rw [decodeUnits_cons, decodeUnits_cons, hu, h.bsinWord]
    exact ih (h.applySlice p hp _) fun v hv => hus v (by simp [hv])

theorem advanceInput (n : Nat) : AgreeOn P (advanceInput n s) (advanceInput n t) :=
  ⟨by rw [h.frame]; rfl, h.channels⟩

/-- Whether the decode goes on does not depend on the LMS registers. -/
theorem finishDecode : AgreeOn P (finishDecode s) (finishDecode t) where
  frame := by
    rw [finishDecode_lms, h.frame]
    obtain ⟨hmore, hinput, hs⟩ | ⟨hend, hs⟩ := finishDecode_cases s <;> rw [hs]
    · exact if_pos ⟨hmore, hinput⟩
    · exact if_neg hend
  channels := by rw [finishDecode_lms, finishDecode_lms]; exact h.channels

end AgreeOn

theorem bank_set_set {α : Type} (b : Bank α) (c : Fin 8) (x y : α) : (b.set c x).set c y = b.set c y := by
  apply Bank.ext_get
  intro d
  simp only [Bank.get_set]
  split <;> rfl

/-- The two words of a channel give it the same registers whatever it held. -/
theorem decodeUnits_lmsWords (c : Fin 8) (a b : Nat) (us : List (Nat × WirePos)) (s : State) :
    decodeUnits ((a, .history c) :: (b, .weights c) :: us) s =
      decodeUnits us (s.setLms c ⟨unpack4 (s.bsinWord a), unpack4 (s.bsinWord b)⟩) := by
  have hload : loadWeights c (unpack4 (s.bsinWord b)) (loadHistory c (unpack4 (s.bsinWord a)) s) =
      s.setLms c ⟨unpack4 (s.bsinWord a), unpack4 (s.bsinWord b)⟩ := by
    rw [loadWeights, loadHistory, State.setLms_lms, Bank.get_set_same, State.setLms, State.setLms_lms, bank_set_set]
    rfl
  rw [decodeUnits_cons, decodeUnits_cons, ← hload]
  rfl

/-- The units of the LMS words of a frame that starts at `base`. -/
def lmsUnits (base : Nat) (cs : List (Fin 8)) : List (Nat × WirePos) :=
  cs.flatMap fun c => [(base + 8 + 16 * c.val, .history c), (base + 16 + 16 * c.val, .weights c)]

/-- The units of the slices of a frame that starts at `base`. -/
def sliceUnits (base channels n : Nat) : List (Nat × WirePos) :=
  (slicePositions channels n).map fun p => (base + 8 + 16 * channels + 8 * (p.s * channels + p.c.val), .slice p)

theorem frameUnits_eq (base channels n : Nat) :
    frameUnits base channels n = lmsUnits base (channelList channels) ++ sliceUnits base channels n := rfl

/-- The slices of a frame are of the stream's channels. -/
theorem sliceUnits_channel {base channels n : Nat} :
    ∀ u ∈ sliceUnits base channels n, ∃ p, u.2 = .slice p ∧ p.c.val < channels := by
  intro u hu
  obtain ⟨p, hp, rfl⟩ := List.mem_map.mp hu
  exact ⟨p, rfl, (mem_slicePositions.mp hp).2.1⟩

/-- The LMS words of channels make the states agree on them. -/
theorem AgreeOn.decodeLmsWords (base : Nat) (cs : List (Fin 8)) {P : Fin 8 → Prop} {s t : State} (h : AgreeOn P s t) :
    AgreeOn (fun d => P d ∨ d ∈ cs) (decodeUnits (lmsUnits base cs) s) (decodeUnits (lmsUnits base cs) t) := by
  induction cs generalizing P s t with
  | nil => exact h.mono fun c hc => hc.resolve_right List.not_mem_nil
  | cons c cs ih =>
    have hcons : lmsUnits base (c :: cs) =
        (base + 8 + 16 * c.val, .history c) :: (base + 16 + 16 * c.val, .weights c) :: lmsUnits base cs := rfl
    rw [hcons, decodeUnits_lmsWords, decodeUnits_lmsWords, h.bsinWord, h.bsinWord]
    exact (ih (h.setLms c _)).mono fun d hd => by rwa [or_assoc, ← List.mem_cons]

/-- A frame makes the states agree on the channels of the stream. -/
theorem AgreeOn.decodeFrameBody {P : Fin 8 → Prop} {s t : State} (h : AgreeOn P s t) (n : Nat) :
    AgreeOn (fun c => c.val < s.channels.toNat) (decodeFrameBody n s) (decodeFrameBody n t) := by
  have hunits : frameUnits t.bsinPos.toNat t.channels.toNat n = frameUnits s.bsinPos.toNat s.channels.toNat n := by
    rw [h.frame]
  have hloaded := (h.decodeLmsWords s.bsinPos.toNat (channelList s.channels.toNat)).mono
    fun c hc => .inr (mem_channelList.mpr hc)
  have hdecoded := hloaded.decodeSlices (sliceUnits_channel (base := s.bsinPos.toNat) (n := n))
  rw [← decodeUnits_append, ← decodeUnits_append, ← frameUnits_eq] at hdecoded
  rw [Machine.decodeFrameBody, Machine.decodeFrameBody, hunits]
  exact (hdecoded.advanceInput n).finishDecode

/-- Settles O36: the LMS words replace whatever the stream's channels held before any slice is decoded. -/
theorem decFrameForgetsEarlierRegisters : Obligations.DecFrameForgetsEarlierRegisters := by
  intro s l hp hm harg hpass
  have hstart : AgreeOn (fun _ => False) s { s with lms := l } := ⟨rfl, fun _ hc => hc.elim⟩
  have hheader : State.headerWord { s with lms := l } = s.headerWord := hstart.bsinWord _
  have hexec := exec_decFrame_passed hp hm harg hpass
  have hexec' := exec_decFrame_passed (s := { s with lms := l }) hp hm harg hpass
  rw [hheader] at hexec'
  have hend := (hstart.decodeFrameBody (headerFsamples s.headerWord).toNat).returns []
  exact ⟨_, _, hexec, hexec', hend.ignoringLms l, hend.channels⟩

end Sys2Proof.Machine

/-! ## Reading a register, and opening a stream (44_stream.md R190 to R193) -/

namespace Sys2Proof.Machine

open Sys2Proof.Claims

/-! ### `NOP` and `RDREG` -/

/-- Settles O44: the one test of `NOP`, that it has no operand, passes. -/
theorem nopDoesNothing : Obligations.NopDoesNothing := fun _ harg => execNop_ok harg

/-- A register on `RES` reads as its number: it is zero-extended (R192). -/
theorem wordResult_setWidth {n : Nat} (hn : n ≤ 64) (b : BitVec n) : wordResult (b.setWidth 64) = (b.toNat : Int) := by
  have hlt : b.toNat < 2 ^ 64 := Nat.lt_of_lt_of_le b.isLt (Nat.pow_le_pow_right (by decide) hn)
  rw [wordResult, BitVec.toNat_setWidth, Nat.mod_eq_of_lt hlt]

/-- `RDREG` of a number that selects a register returns what the register reads as. -/
theorem exec_rdreg {s : State} {r : BitVec 16} {w : BitVec 64} {v : Int} (harg : s.arg = [])
    (hr : s.readRegister r = some w) (hv : wordResult w = v) : exec (.rdreg r) s = .next { s with res := [v] } := by
  subst hv
  exact execRdreg_ok hr harg

theorem readRegister_prevSf (s : State) (c : Fin 8) :
    s.readRegister (BitVec.ofNat 16 (0x10 + c.val)) = some ((s.prevSf.get c).setWidth 64) := by
  fin_cases c <;> rfl

theorem wordResult_statusWord (s : State) :
    wordResult s.statusWord =
      (match s.phase with | .needHeader => 0 | .needFrame => 1 | .done => 2 | .error => 3) +
      4 * (match s.mode with | .none => 0 | .enc => 1 | .dec => 2) +
      16 * (s.err.toNat : Int) + 256 * (s.errInfo.toNat : Int) := by
  have hphase : (s.phase.code.toNat : Int) =
      (match s.phase with | .needHeader => 0 | .needFrame => 1 | .done => 2 | .error => 3) := by
    cases s.phase <;> rfl
  have hmode : (s.mode.code.toNat : Int) = (match s.mode with | .none => 0 | .enc => 1 | .dec => 2) := by
    cases s.mode <;> rfl
  rw [← hphase, ← hmode, wordResult, statusWord_toNat]
  push_cast
  ring

/-- Settles O43: each number of R31 selects its register; any other fails the one test of `RDREG` on its immediate. -/
theorem rdregReadsTheNumberedRegisters : Obligations.RdregReadsTheNumberedRegisters := by
  intro s harg
  refine ⟨exec_rdreg harg rfl (wordResult_statusWord s), fun r v hrv => ?listed, fun c => ?prevSf, fun r hr => ?reserved⟩
  case listed =>
    simp only [List.mem_cons, Prod.mk.injEq, List.not_mem_nil, or_false] at hrv
    obtain ⟨rfl, rfl⟩ | ⟨rfl, rfl⟩ | ⟨rfl, rfl⟩ | ⟨rfl, rfl⟩ | ⟨rfl, rfl⟩ | ⟨rfl, rfl⟩ | ⟨rfl, rfl⟩ | ⟨rfl, rfl⟩ |
      ⟨rfl, rfl⟩ | ⟨rfl, rfl⟩ := hrv
    · exact exec_rdreg harg rfl (wordResult_setWidth (by decide) s.channels)
    · exact exec_rdreg harg rfl (wordResult_setWidth (by decide) s.sampleRate)
    · exact exec_rdreg harg rfl (wordResult_setWidth (by decide) s.samples)
    · exact exec_rdreg harg rfl (wordResult_setWidth (by decide) s.samplePos)
    · exact exec_rdreg harg rfl rfl
    · exact exec_rdreg harg rfl rfl
    · exact exec_rdreg harg rfl rfl
    · exact exec_rdreg harg rfl rfl
    · exact exec_rdreg harg rfl rfl
    · exact exec_rdreg harg rfl rfl
  case prevSf => exact exec_rdreg harg (readRegister_prevSf s c) (wordResult_setWidth (by decide) _)
  case reserved =>
    have herror : registerOperand r s = .error (illegal 4) := (registerOperand_tests r s).error_of_not hr
    calc exec (.rdreg r) s = settle s (registerOperand r s >>= fun v => noOperand s.arg >>= fun _ =>
          .ok (s.returns [wordResult v])) := rfl
      _ = _ := by rw [herror, error_bind, settle_error]; rfl

/-! ### `ENC.OPEN` -/

theorem ne_error_of_opens {s : State} (h : s.phase = .needHeader ∨ s.phase = .done) : s.phase ≠ .error := by
  rcases h with h | h <;> simp [h]

theorem firstError_eq_ok {o : Option Cause} : firstError o = .ok () ↔ o = none := by
  cases o <;> simp [firstError]

/-- The operands of `ENC.OPEN` as they stand on `ARG`. -/
def EncOpenOperands.arg (p : EncOpenOperands) : List Int := [p.sampleRate, p.channels, p.samples, p.pcmLen]

theorem encOpenOperands_arg {p : EncOpenOperands} (h : ∀ v ∈ p.arg, word64 v) : encOpenOperands p.arg = .ok p := by
  obtain ⟨q, hq⟩ := (encOpenOperands_tests p.arg).ok_of ⟨rfl, h⟩
  rw [hq]
  simp only [encOpenOperands, EncOpenOperands.arg] at hq
  split at hq
  · cases hq; rfl
  · cases hq

/-- Four operands in range are those of some call of `ENC.OPEN`. -/
theorem exists_encOpenOperands {sr ch n len : Int} (hsr : word64 sr) (hch : word64 ch) (hn : word64 n)
    (hlen : word64 len) : ∃ p : EncOpenOperands, [sr, ch, n, len] = p.arg ∧ ∀ v ∈ p.arg, word64 v := by
  lift sr to Nat using hsr.1
  lift ch to Nat using hch.1
  lift n to Nat using hn.1
  lift len to Nat using hlen.1
  refine ⟨⟨sr, ch, n, len⟩, rfl, ?_⟩
  simp [EncOpenOperands.arg, hsr, hch, hn, hlen]

/-- The first check of R190 that the operands fail. -/
def EncOpenOperands.error (p : EncOpenOperands) : Option Cause := parameterError p.sampleRate p.channels p.samples p.pcmLen

theorem checkParameters_eq (p : EncOpenOperands) : checkParameters p = firstError p.error := by
  refine require_bind_eq_firstError ?channels <| require_bind_eq_firstError ?rate <|
    require_bind_eq_firstError ?samples <| require_eq_firstError ?length
  case channels => simp only [Bool.and_eq_true, decide_eq_true_eq]; omega
  case rate => simp only [Bool.and_eq_true, decide_eq_true_eq]; omega
  case samples => simp only [Bool.and_eq_true, decide_eq_true_eq]; omega
  case length => rw [decide_eq_true_eq, Int.not_lt]; norm_cast

section
variable {s : State} {p : EncOpenOperands}

/-- `ENC.OPEN` raises the error its checks find, and without one it starts the encode. -/
theorem exec_encOpen (hphase : s.phase = .needHeader ∨ s.phase = .done) (harg : s.arg = p.arg)
    (hp : ∀ v ∈ p.arg, word64 v) :
    exec .encOpen s = .next (p.error.elim ((openEncoder p s).returns []) s.raise) := by
  have hrunning := ne_error_of_opens hphase
  calc exec .encOpen s = settle s (encOpenOperands s.arg >>= fun p => require (opensAdmitted s) (illegal 6) >>= fun _ =>
        checkParameters p >>= fun _ => .ok ((openEncoder p s).returns [])) := operate_eq_settle hrunning _
    _ = settle s (firstError p.error >>= fun _ => .ok ((openEncoder p s).returns [])) := by
      rw [harg, encOpenOperands_arg hp, ok_bind, opensAdmitted_iff.mpr hphase, require_true, ok_bind, checkParameters_eq]
    _ = _ := settle_firstError hrunning _ _

theorem checkParameters_passed (hpass : p.error = none) : checkParameters p = .ok () := by
  rw [checkParameters_eq, firstError_eq_ok, hpass]

/-- Legal parameters fit the descriptor's registers (10_state.md R26). -/
theorem openEncoder_descriptor (hpass : p.error = none) (s : State) :
    (openEncoder p s).channels.toNat = p.channels ∧ (openEncoder p s).sampleRate.toNat = p.sampleRate ∧
    (openEncoder p s).samples.toNat = p.samples ∧
    (openEncoder p s).outTotal.toNat = encodedLength p.channels p.samples := by
  obtain ⟨⟨-, hc8⟩, ⟨-, hr⟩, ⟨-, hn⟩, -⟩ := checkParameters_eq_ok.mp (checkParameters_passed hpass)
  have htotal : encodedLength p.channels p.samples < 2 ^ 34 := encodedLength_lt hc8 (by omega)
  exact ⟨Nat.mod_eq_of_lt (by omega), Nat.mod_eq_of_lt (by omega), Nat.mod_eq_of_lt (by omega),
    Nat.mod_eq_of_lt (by omega)⟩

/-- `ENC.OPEN` writes the file header at the start of `BSOUT`. -/
theorem openEncoder_holds_fileHeader (p : EncOpenOperands) (s : State) :
    HoldsWord (openEncoder p s).bsout 0 (fileHeaderPack (openEncoder p s).samples).toNat :=
  fun i hi => memWrite_read_inside s.bsout 0 8 _ i hi

end

/-- The encoded length, as R190 writes it. -/
theorem encodedLength_eq (channels samples : Nat) :
    encodedLength channels samples =
      8 + 8 * ((samples + 5119) / 5120) + 16 * channels * ((samples + 5119) / 5120) + 8 * channels * ((samples + 19) / 20) := by
  simp only [encodedLength, ceilDiv, Nat.add_succ_sub_one]

theorem ints_seed : ints Lms.seed.h = [0, 0, 0, 0] ∧ ints Lms.seed.w = [0, 0, -8192, 16384] := by decide

/-- Settles O38: the checks find the error that is raised; without one `ENC.OPEN` leaves what it is defined to write. -/
theorem encOpenStartsAnEncode : Obligations.EncOpenStartsAnEncode := by
  intro s sr ch n len hphase harg hsr hch hn hlen
  obtain ⟨p, harg', hp⟩ := exists_encOpenOperands hsr hch hn hlen
  obtain ⟨rfl, rfl, rfl, rfl⟩ : sr = p.sampleRate ∧ ch = p.channels ∧ n = p.samples ∧ len = p.pcmLen := by
    simpa [EncOpenOperands.arg] using harg'
  have hexec := exec_encOpen hphase harg hp
  refine ⟨fun e (he : p.error = some e) => ?raised, fun (hpass : p.error = none) => ?opened⟩
  case raised =>
    rw [hexec, he]
    rfl
  case opened =>
    rw [hpass, Option.elim_none] at hexec
    obtain ⟨hchannels, hrate, hsamples, htotal⟩ := openEncoder_descriptor hpass s
    have hheader := openEncoder_holds_fileHeader p s
    have hpcmLen : (openEncoder p s).pcminLen.toNat = p.pcmLen :=
      Nat.mod_eq_of_lt (by have := hlen.2; omega)
    refine ⟨_, hexec, rfl, congrArg _ hchannels, congrArg _ hrate, congrArg _ hsamples, congrArg _ hpcmLen, ?total,
      fun c => ?registers, ?header, fun a ha => ?rest⟩
    case total =>
      refine (congrArg _ htotal).trans ?_
      rw [encodedLength_eq]
      push_cast
      rfl
    case registers =>
      have hlms : (openEncoder p s).lms.get c = Lms.seed := allChannels_get _ c
      have hsf : (openEncoder p s).prevSf.get c = 0 := allChannels_get _ c
      exact ⟨hlms ▸ ints_seed.1, hlms ▸ ints_seed.2, hsf⟩
    case header =>
      rw [bsoutWord_of_holds (s := (openEncoder p s).returns []) hheader, fileHeaderPack_toNat, hsamples]
      rfl
    case rest => exact memWrite_read_outside _ _ _ _ _ (.inr ha)

/-! ### `DEC.OPEN` -/

/-- The checks of R191, in order, on the bytes of the two header words. -/
theorem checkStream_eq (len : Nat) (s : State) : checkStream len s = firstError (streamError s len) := by
  unfold streamError
  rw [← bsinWord_toNat, ← bsinWord_toNat]
  refine require_bind_eq_firstError ?size <| require_bind_eq_firstError ?magic <|
    require_bind_eq_firstError ?samples <| require_bind_eq_firstError ?channels <|
    require_bind_eq_firstError ?rate <| require_eq_firstError ?most
  case size => rw [decide_eq_true_eq, Nat.not_lt]
  case magic => rw [decide_eq_true_eq, not_ne_iff, ← fileHeaderMagic_toNat, ← BitVec.toNat_inj]; rfl
  case samples => rw [bne_iff_ne, ← fileHeaderSamples_toNat, Ne, ← BitVec.toNat_inj]; rfl
  case channels => rw [bne_iff_ne, ← headerChannels_toNat, Ne, ← BitVec.toNat_inj]; rfl
  case rate => rw [bne_iff_ne, ← headerSampleRate_toNat, Ne, ← BitVec.toNat_inj]; rfl
  case most => rw [decide_eq_true_eq, ← headerChannels_toNat, gt_iff_lt, Nat.not_lt]

section
variable {s : State} {len : Nat}

/-- `DEC.OPEN` raises the error its checks find, and without one it starts the decode. -/
theorem exec_decOpen (hphase : s.phase = .needHeader ∨ s.phase = .done) (harg : s.arg = [(len : Int)])
    (hlen : len < 2 ^ 64) :
    exec .decOpen s = .next ((streamError s len).elim ((openDecoder len s).returns []) s.raise) := by
  have hrunning := ne_error_of_opens hphase
  calc exec .decOpen s = settle s (oneOperand isUnsigned64 s.arg >>= fun n => require (opensAdmitted s) (illegal 6) >>=
        fun _ => checkStream n.toNat s >>= fun _ => .ok ((openDecoder n.toNat s).returns [])) :=
        operate_eq_settle hrunning _
    _ = settle s (firstError (streamError s len) >>= fun _ => .ok ((openDecoder len s).returns [])) := by
      rw [harg, oneOperand_word hlen, ok_bind, opensAdmitted_iff.mpr hphase, require_true, ok_bind, Int.toNat_natCast,
        checkStream_eq]
    _ = _ := settle_firstError hrunning _ _

/-- `DEC.OPEN` takes the descriptor from the two headers (R191). -/
theorem openDecoder_descriptor (len : Nat) (s : State) :
    (openDecoder len s).channels.toNat = memRead s.bsinByte 8 8 / 2 ^ 56 ∧
    (openDecoder len s).sampleRate.toNat = memRead s.bsinByte 8 8 / 2 ^ 32 % 2 ^ 24 ∧
    (openDecoder len s).samples.toNat = memRead s.bsinByte 0 8 % 2 ^ 32 := by
  rw [← bsinWord_toNat, ← bsinWord_toNat]
  exact ⟨headerChannels_toNat _, headerSampleRate_toNat _, fileHeaderSamples_toNat _⟩

theorem streamError_eq_none : streamError s len = none ↔ checkStream len s = .ok () := by
  rw [checkStream_eq, firstError_eq_ok]

end

/-- Settles O39: the checks find the error that is raised; without one `DEC.OPEN` leaves what it is defined to write. -/
theorem decOpenStartsADecode : Obligations.DecOpenStartsADecode := by
  intro s len hphase harg hlen
  have hexec := exec_decOpen hphase harg hlen
  refine ⟨fun e he => ?raised, fun hpass => ?opened⟩
  case raised =>
    rw [hexec, he]
    rfl
  case opened =>
    rw [hpass, Option.elim_none] at hexec
    obtain ⟨hchannels, hrate, hsamples⟩ := openDecoder_descriptor len s
    refine ⟨_, hexec, rfl, hchannels, hrate, hsamples, Nat.mod_eq_of_lt hlen, fun c => ?_, fun _ => rfl⟩
    have hlms : (openDecoder len s).lms.get c = Lms.seed := allChannels_get _ c
    exact ⟨hlms ▸ ints_seed.1, hlms ▸ ints_seed.2⟩

end Sys2Proof.Machine

/-! ## The host programs (44_stream.md R194 to R196, R200) -/

namespace Sys2Proof.Machine

open Sys2Proof.Claims

/-- A stream is opened where none is running. -/
theorem not_running_of_opens {s : State} {m : Mode} (h : s.phase = .needHeader ∨ s.phase = .done) :
    ¬ (s.phase = .needFrame ∧ s.mode = m) := by
  rintro ⟨hp, -⟩
  rcases h with h | h <;> simp [h] at hp

/-! ### Opening a decode of bytes -/

/-- The state in which a program issues the `DEC.OPEN` of these bytes. -/
def State.givenBytes (s : State) (bytes : List Byte) : State :=
  { s with bsin := Memory.ofList bytes, arg := [(bytes.length : Int)] }

section
variable {s : State} {bytes : List Byte} (hphase : s.phase = .needHeader ∨ s.phase = .done)
  (hlen : bytes.length < 2 ^ 64)
include hphase hlen

theorem hostOpensDecode_eq :
    hostOpensDecode bytes s = .next ((streamError (s.givenBytes bytes) bytes.length).elim
      ((openDecoder bytes.length (s.givenBytes bytes)).returns []) (s.givenBytes bytes).raise) := by
  rw [hostOpensDecode, hostDoes_fillBsin (not_running_of_opens hphase), thenDo_next, hostDoes_command decode_decOpen]
  exact exec_decOpen (s := s.givenBytes bytes) hphase rfl hlen

/-- `DECODE_HEADER` answers the descriptor of the two headers where they pass the checks of R191. -/
theorem hostDecodeHeader_passed (hpass : streamError (s.givenBytes bytes) bytes.length = none) :
    ∃ t, hostDecodeHeader bytes s = .next ⟨t, .ok
      ⟨(headerChannels ((s.givenBytes bytes).bsinWord 8)).toNat, (headerSampleRate ((s.givenBytes bytes).bsinWord 8)).toNat,
        (fileHeaderSamples ((s.givenBytes bytes).bsinWord 0)).toNat⟩⟩ ∧ t.phase = .needFrame := by
  rw [hostDecodeHeader, hostOpensDecode_eq hphase hlen, hpass, thenDo_next, Option.elim_none,
    hostEnds_there ((phase_code_eq _).1.mpr rfl), hostReadsDescriptor_eq]
  exact ⟨_, rfl, rfl⟩

theorem hostDecodeHeader_failed {e : Cause} (he : streamError (s.givenBytes bytes) bytes.length = some e) :
    ∃ t, hostDecodeHeader bytes s = .next ⟨t, .error e.code.code⟩ ∧ t.phase = .error := by
  rw [hostDecodeHeader, hostOpensDecode_eq hphase hlen, he, thenDo_next, Option.elim_some,
    hostEnds_elsewhere (mt (phase_code_eq _).1.mp (by simp))]
  exact ⟨_, rfl, rfl⟩

end

/-! ### The headers of an encode, read back (R200 (1)) -/

/-- The bounds on the cursors under which a frame of an encode is due. -/
theorem FrameDue.of_bounds {s : State} (hC : s.channels.toNat ≤ 8) (hpos : s.samplePos.toNat ≤ s.samples.toNat)
    (hout : s.bsoutPos.toNat < 2 ^ 34) : FrameDue s := by
  have hlength : s.nextFrameLength ≤ 5120 := Nat.min_le_left _ _
  have hrest : s.nextFrameLength ≤ s.samples.toNat - s.samplePos.toNat := Nat.min_le_right _ _
  have hbytes := frameBytes_lt hC hlength
  have hlt := s.samples.isLt
  exact ⟨hC, hlength, Nat.mod_eq_of_lt (by omega), by omega⟩

/-- A word of the prelude of a frame stays while the slices are encoded. -/
theorem FrameDue.prelude_kept {s : State} (h : FrameDue s) {a v : Nat} (hw : HoldsWord s.afterPrelude.bsout a v)
    (ha : a + 8 ≤ s.bsoutPos.toNat + 8 + 16 * s.channels.toNat) : HoldsWord s.afterEncode.bsout a v := by
  have hroom := h.room
  rw [frameBytes_eq_words] at hroom
  have hprelude := (afterPrelude_appends s h.channels (by omega)).pos
  have hkept : HoldsWord (encodeFrameBody s).bsout a v := hw.kept h.slicesAppended (by omega)
  exact hkept

/-- The header of a frame stands where the frame begins. -/
theorem FrameDue.header_holds {s : State} (h : FrameDue s) :
    HoldsWord s.afterEncode.bsout s.bsoutPos.toNat s.nextFrameHeader.toNat :=
  h.prelude_kept h.prelude_holds.1 (by omega)

/-- Words that stand in one space stand in another that has the same bytes there. -/
theorem HoldsWord.copied {m m' : Memory Byte} {a b v : Nat} (h : HoldsWord m a v)
    (hcopy : ∀ i < 8, Memory.read m' (b + i) = Memory.read m (a + i)) : HoldsWord m' b v :=
  fun i hi => (hcopy i hi).trans (h i hi)

/-- The state in which `ENC.OPEN` leaves the block, for the first `ENC.FRAME`. -/
def openedEncode (p : EncOpenOperands) (s : State) : State := { (openEncoder p s).returns [] with arg := [] }

section
variable {p : EncOpenOperands} (hpass : p.error = none) (s : State)
include hpass

theorem openedEncode_frameDue : FrameDue (openedEncode p s) := by
  obtain ⟨hchannels, -⟩ := openEncoder_descriptor hpass s
  obtain ⟨⟨-, hC⟩, -⟩ := checkParameters_eq_ok.mp (checkParameters_passed hpass)
  exact .of_bounds (hchannels.trans_le hC) (Nat.zero_le _) (by decide : (8 : BitVec 64).toNat < 2 ^ 34)

variable {s}

/-- The first sixteen bytes of an encode are the file header and the header of the first frame. -/
theorem bsinWord_headers {u : State}
    (hcopy : ∀ a, a < 16 → Memory.read u.bsin a = Memory.read (openedEncode p s).afterEncode.bsout a) :
    u.bsinWord 0 = fileHeaderPack (openEncoder p s).samples ∧ u.bsinWord 8 = (openedEncode p s).nextFrameHeader := by
  have hdue := openedEncode_frameDue hpass s
  have hfile : HoldsWord (openedEncode p s).afterEncode.bsout 0 (fileHeaderPack (openEncoder p s).samples).toNat :=
    HoldsWord.kept hdue.appended (openEncoder_holds_fileHeader p s) (Nat.le_refl 8)
  have hframe : HoldsWord (openedEncode p s).afterEncode.bsout 8 (openedEncode p s).nextFrameHeader.toNat :=
    hdue.header_holds
  exact ⟨bsinWord_of_holds (hfile.copied fun i hi => hcopy _ (by omega)),
    bsinWord_of_holds (hframe.copied fun i hi => hcopy _ (by omega))⟩

/-- Headers of legal parameters pass the checks of R191. -/
theorem checkStream_headers {u : State} {len : Nat} (hlen : 16 ≤ len)
    (hfile : u.bsinWord 0 = fileHeaderPack (openEncoder p s).samples)
    (hframe : u.bsinWord 8 = (openedEncode p s).nextFrameHeader) : checkStream len u = .ok () := by
  obtain ⟨hchannels, hrate, hsamples, -⟩ := openEncoder_descriptor hpass s
  obtain ⟨⟨hC1, hC8⟩, ⟨hr1, -⟩, ⟨hn1, -⟩, -⟩ := checkParameters_eq_ok.mp (checkParameters_passed hpass)
  have nonzero {w : Nat} {x : BitVec w} {v : Nat} (hx : x.toNat = v) (hv : 1 ≤ v) : x ≠ 0 := by
    rintro rfl
    simp only [BitVec.ofNat_eq_ofNat, BitVec.toNat_zero] at hx
    omega
  rw [checkStream_eq_ok, hfile, hframe, fileHeaderMagic_pack, fileHeaderSamples_pack, State.nextFrameHeader,
    headerChannels_pack, headerSampleRate_pack]
  exact ⟨hlen, rfl, nonzero hsamples hn1, nonzero hchannels hC1, nonzero hrate hr1, hchannels.trans_le hC8⟩

/-- The descriptor read back from the headers is that of the parameters. -/
theorem descriptor_headers {u : State} (hfile : u.bsinWord 0 = fileHeaderPack (openEncoder p s).samples)
    (hframe : u.bsinWord 8 = (openedEncode p s).nextFrameHeader) :
    (headerChannels (u.bsinWord 8)).toNat = p.channels ∧ (headerSampleRate (u.bsinWord 8)).toNat = p.sampleRate ∧
    (fileHeaderSamples (u.bsinWord 0)).toNat = p.samples := by
  obtain ⟨hchannels, hrate, hsamples, -⟩ := openEncoder_descriptor hpass s
  rw [hfile, hframe, fileHeaderSamples_pack, State.nextFrameHeader, headerChannels_pack, headerSampleRate_pack]
  exact ⟨hchannels, hrate, hsamples⟩

end

/-- Settles O40: `ENC.OPEN` and the first frame write the two headers, which `DEC.OPEN` reads back as they were packed. -/
theorem headerRoundTrip : Obligations.HeaderRoundTrip := by
  rintro s u sr ch n len hphase harg hsr hch hn hlen (hpass : _ = none) huphase ⟨k, huarg, hk16, hk⟩
  obtain ⟨p, harg', hp⟩ := exists_encOpenOperands hsr hch hn hlen
  obtain ⟨rfl, rfl, rfl, rfl⟩ : sr = p.sampleRate ∧ ch = p.channels ∧ n = p.samples ∧ len = p.pcmLen := by
    simpa [EncOpenOperands.arg] using harg'
  change p.error = none at hpass
  have hopen := exec_encOpen hphase harg hp
  rw [hpass, Option.elim_none] at hopen
  have hframe := exec_encFrame (s := openedEncode p s) rfl rfl rfl
  refine ⟨_, _, hopen, hframe, fun hcopy => ?decOpen, fun bytes hbytes hcopy => ?program⟩
  case decOpen =>
    obtain ⟨hfile, hfirst⟩ := bsinWord_headers hpass hcopy
    have hdec := exec_decOpen huphase huarg hk
    rw [streamError_eq_none.mpr (checkStream_headers hpass hk16 hfile hfirst), Option.elim_none] at hdec
    obtain ⟨hchannels, hrate, hsamples⟩ := descriptor_headers hpass hfile hfirst
    exact ⟨_, hdec, rfl, congrArg _ hchannels, congrArg _ hrate, congrArg _ hsamples⟩
  case program =>
    obtain ⟨hfile, hfirst⟩ := bsinWord_headers hpass (u := u.givenBytes bytes)
      fun a ha => (Memory.read_ofList bytes a).trans (hcopy a ha)
    have h16 : 15 < bytes.length := by
      have hlast : (Memory.read (openedEncode p s).afterEncode.bsout 15).isSome = true :=
        (openedEncode_frameDue hpass s).appended.inside 15 (by decide : 8 ≤ 15) (show 15 < 8 + 8 * _ by omega)
      have hread : (bytes[15]?).isSome = true := (congrArg Option.isSome (hcopy 15 (by decide))).trans hlast
      simpa using hread
    obtain ⟨t, ht, htphase⟩ := hostDecodeHeader_passed huphase hbytes
      (streamError_eq_none.mpr (checkStream_headers hpass h16 hfile hfirst))
    obtain ⟨hchannels, hrate, hsamples⟩ := descriptor_headers hpass hfile hfirst
    rw [hchannels, hrate, hsamples] at ht
    exact ⟨t, ht, htphase⟩

end Sys2Proof.Machine

namespace Sys2Proof.Machine

open Sys2Proof.Claims

/-! ### The loop over the frames -/

section
variable {s : State} {w : CommandWord}

/-- A turn of the loop: the frame operation, and the loop again. -/
theorem whileNeedFrame_turn {i : Instr} {t : State} (hd : decodeCommand w = .ok i) (hp : s.phase = .needFrame)
    (hexec : exec i (s.showing s.statusWord) = .next t) (fuel : Nat) :
    whileNeedFrame w (fuel + 1) s = whileNeedFrame w fuel t := by
  have hdoes : hostDoes (.command w []) (s.showing s.statusWord) = .next t :=
    (hostDoes_command hd [] (s.showing s.statusWord)).trans hexec
  rw [whileNeedFrame_again hp, hdoes, thenDo_next]

/-- Where an error was raised a program ends without another frame and answers the error. -/
theorem hostEnds_error {α : Type} (hp : s.phase = .error) (fuel : Nat) (k : State → HostAnswer α) :
    ∃ t, thenDo (whileNeedFrame w (fuel + 1) s) (hostEnds 2 k) = .next ⟨t, .error s.err⟩ ∧ t.phase = .error := by
  have hdone (v : BitVec 64) : ((s.showing v).phase.code.toNat : Int) ≠ 2 := mt (phase_code_eq _).2.mp (by simp [hp])
  rw [whileNeedFrame_ends (by simp [hp]), thenDo_next, hostEnds_elsewhere (hdone _)]
  exact ⟨_, rfl, hp⟩

end

/-! ### `ENCODE` (R194) -/

/-- An encode of `n` samples of each of `C` channels, running or at its end: what it has written, and where it stands
(20_memory.md R52, R53, R62). -/
structure Encoding (C n : Nat) (s : State) : Prop where
  mode : s.mode = .enc
  channels : s.channels.toNat = C
  samples : s.samples.toNat = n
  total : s.outTotal.toNat = encodedLength C n
  output : s.bsoutPos.toNat = encodedLength C s.samplePos.toNat
  written : s.bsoutWritten
  phase : (s.phase = .needFrame ∧ s.samplePos.toNat < n ∧ s.samplePos.toNat % 5120 = 0) ∨
    (s.phase = .done ∧ s.samplePos = s.samples)

section
variable {C n : Nat} {s : State}

/-- The ports are no part of an encode. -/
theorem Encoding.ports (h : Encoding C n s) (arg res : List Int) : Encoding C n { s with arg := arg, res := res } :=
  ⟨h.mode, h.channels, h.samples, h.total, h.output, h.written, h.phase⟩

theorem Encoding.samplePos_le (h : Encoding C n s) : s.samplePos.toNat ≤ s.samples.toNat := by
  obtain ⟨-, hlt, -⟩ | ⟨-, hend⟩ := h.phase
  · exact h.samples ▸ Nat.le_of_lt hlt
  · rw [hend]

theorem Encoding.frameDue (h : Encoding C n s) (hC : C ≤ 8) : FrameDue s := by
  have hlen := encodedLength_lt hC s.samplePos.isLt
  exact .of_bounds (h.channels.trans_le hC) h.samplePos_le (h.output.trans_lt hlen)

/-- A frame takes an encode on by its samples. -/
theorem Encoding.afterEncode (h : Encoding C n s) (hC : C ≤ 8) (hp : s.phase = .needFrame) :
    Encoding C n s.afterEncode := by
  obtain ⟨-, hlt, hfull⟩ := h.phase.resolve_right (by simp [hp])
  have hdue := h.frameDue hC
  have happended := hdue.appended
  obtain ⟨hend, hone, hmax, hle, hwhole⟩ := frameEnd_bounds (h.samples.symm ▸ hlt) hfull
  obtain ⟨hdone, hmore⟩ := afterEncode_phase hp
  rw [h.samples] at hle hwhole
  refine ⟨h.mode, h.channels, h.samples, h.total, ?output, fun _ => happended.written (h.written h.mode), ?phase⟩
  case output =>
    show s.afterEncode.bsoutPos.toNat = encodedLength C s.frameEnd.toNat
    rw [happended.pos, hend, encodedLength_add_frame _ _ _ hfull hone hmax, h.output, frameBytes_eq_words, ceilDiv_twenty,
      h.channels]
  case phase =>
    by_cases hlast : s.frameEnd = s.samples
    · exact .inr ⟨hdone.mpr hlast, hlast⟩
    · have hne : s.frameEnd.toNat ≠ n := fun he => hlast (BitVec.eq_of_toNat_eq (he.trans h.samples.symm))
      exact .inl ⟨hmore.mpr hlast, Nat.lt_of_le_of_ne hle hne, hwhole.resolve_right hne⟩

/-- `ENC.FRAME` takes an encode on by a whole frame, or to its end. -/
theorem Encoding.encFrame (h : Encoding C n s) (hC : C ≤ 8) (hp : s.phase = .needFrame) (harg : s.arg = []) :
    ∃ t, exec .encFrame s = .next t ∧ Encoding C n t ∧ min n (s.samplePos.toNat + 5120) ≤ t.samplePos.toNat := by
  have hlength : s.nextFrameLength = min 5120 (s.samples.toNat - s.samplePos.toNat) := rfl
  have hsamples := h.samples
  refine ⟨_, exec_encFrame hp h.mode harg, (h.afterEncode hC hp).ports _ _, ?_⟩
  show _ ≤ s.frameEnd.toNat
  rw [(h.frameDue hC).frameEnd]
  omega

/-- The loop of `ENCODE` ends at the last sample, where its bound leaves a turn for each frame and one for its test. -/
theorem Encoding.loop (hC : C ≤ 8) (fuel : Nat) (h : Encoding C n s) (hfuel : n ≤ s.samplePos.toNat + 5120 * fuel) :
    ∃ t, whileNeedFrame (commandWord 0x41 0 0 0) (fuel + 1) s = .next t ∧ Encoding C n t ∧ t.phase = .done := by
  induction fuel generalizing s with
  | zero =>
    obtain ⟨-, hlt, -⟩ | ⟨hp, -⟩ := h.phase
    · omega
    · exact ⟨_, whileNeedFrame_ends (by simp [hp]) _ _, h.ports _ _, hp⟩
  | succ fuel ih =>
    obtain ⟨hp, -⟩ | ⟨hp, -⟩ := h.phase
    · obtain ⟨t, hexec, hnext, (hpos : min n (s.samplePos.toNat + 5120) ≤ t.samplePos.toNat)⟩ :=
        Encoding.encFrame (s := s.showing s.statusWord) (h.ports _ _) hC hp rfl
      rw [whileNeedFrame_turn decode_encFrame hp hexec]
      exact ih hnext (by omega)
    · exact ⟨_, whileNeedFrame_ends (by simp [hp]) _ _, h.ports _ _, hp⟩

/-- At its end an encode answers the bytes of `BSOUT` below `OUT_TOTAL`. -/
theorem Encoding.answer (h : Encoding C n s) (hp : s.phase = .done) :
    ∃ (t : State) (bytes : List Byte),
      hostEnds 2 (hostReads 0x0A fun total s => .next ⟨s, .ok (hostBuffer s.bsout total.toNat)⟩) s =
        .next ⟨t, .ok (bytes.map some)⟩ ∧
      Encoding C n t ∧ t.phase = .done ∧ t.bsoutPos = t.outTotal ∧ bytes.length = t.outTotal.toNat ∧
      ∀ a, a < t.outTotal.toNat → Memory.read t.bsout a = bytes[a]? := by
  have hend : s.samplePos = s.samples := (h.phase.resolve_left (by simp [hp])).2
  have hout : s.bsoutPos = s.outTotal := by
    apply BitVec.eq_of_toNat_eq
    rw [h.output, h.total, hend, h.samples]
  obtain ⟨bytes, hbuffer, hlength, hbytes⟩ := hostBuffer_of_isSome (hout ▸ h.written h.mode)
  refine ⟨(s.showing s.statusWord).showing s.outTotal, bytes, ?_, h.ports _ _, hp, hout, hlength, hbytes⟩
  rw [hostEnds_there ((phase_code_eq _).2.mpr hp), hostReads_eq (v := s.outTotal) rfl, ← hbuffer]
  rfl

end

theorem openEncoder_encoding {p : EncOpenOperands} (hpass : p.error = none) (s : State) :
    Encoding p.channels p.samples ((openEncoder p s).returns []) := by
  obtain ⟨hchannels, -, hsamples, htotal⟩ := openEncoder_descriptor hpass s
  obtain ⟨-, -, ⟨hn1, -⟩, -⟩ := checkParameters_eq_ok.mp (checkParameters_passed hpass)
  exact ⟨rfl, hchannels, hsamples, htotal, (encodedLength_zero _).symm, openEncoder_bsoutWritten p s,
    .inl ⟨rfl, hn1, rfl⟩⟩

/-- `ENCODE` up to its loop. -/
theorem hostEncode_eq {s : State} {p : EncOpenOperands} {pcm : List Sample}
    (hphase : s.phase = .needHeader ∨ s.phase = .done) (hpcm : p.pcmLen = pcm.length) (hp : ∀ v ∈ p.arg, word64 v) :
    let given : State := { s with pcmin := Memory.ofList pcm, arg := p.arg }
    hostEncode p.sampleRate p.channels p.samples pcm s =
      thenDo (whileNeedFrame (commandWord 0x41 0 0 0) (ceilDiv p.samples 5120 + 1)
          (p.error.elim ((openEncoder p given).returns []) given.raise))
        (hostEnds 2 (hostReads 0x0A fun total s => .next ⟨s, .ok (hostBuffer s.bsout total.toNat)⟩)) := by
  intro given
  have hopen : exec .encOpen given = .next (p.error.elim ((openEncoder p given).returns []) given.raise) :=
    exec_encOpen hphase rfl hp
  rw [hostEncode, hostDoes_fillPcmin (not_running_of_opens hphase), thenDo_next, hostDoes_command decode_encOpen, ← hpcm]
  exact congrArg (thenDo · _) hopen

/-- Settles O41: `ENC.OPEN` raises the error its checks find; without one the loop runs to the last sample, and every byte
below `OUT_TOTAL` is written. -/
theorem encodeProgramEndsDone : Obligations.EncodeProgramEndsDone := by
  intro s sr ch n pcm hphase hlen hsr hch hn
  obtain ⟨p, hp⟩ : ∃ p : EncOpenOperands, p = ⟨sr, ch, n, pcm.length⟩ := ⟨_, rfl⟩
  obtain ⟨rfl, rfl, rfl, hpcm⟩ : p.sampleRate = sr ∧ p.channels = ch ∧ p.samples = n ∧ p.pcmLen = pcm.length := by
    simp [hp]
  have hwords : ∀ v ∈ p.arg, word64 v := by
    simp only [EncOpenOperands.arg, List.mem_cons, List.not_mem_nil, or_false, forall_eq_or_imp, forall_eq, word64]
    omega
  rw [hostEncode_eq hphase hpcm hwords, ← hpcm]
  refine ⟨fun e (he : p.error = some e) => ?failed, fun (hpass : p.error = none) => ?passed⟩
  case failed =>
    rw [he]
    exact hostEnds_error (s := State.raise _ e) rfl _ _
  case passed =>
    obtain ⟨⟨-, hC⟩, -⟩ := checkParameters_eq_ok.mp (checkParameters_passed hpass)
    have hframes : p.samples ≤ 0 + 5120 * ceilDiv p.samples 5120 := by rw [ceilDiv]; omega
    obtain ⟨u, hloop, hu, hdone⟩ := (openEncoder_encoding hpass _).loop hC _ hframes
    obtain ⟨t, bytes, hanswer, ht, htdone, hout, hlength, hbytes⟩ := hu.answer hdone
    rw [hpass, Option.elim_none, hloop, thenDo_next]
    exact ⟨t, bytes, hanswer, htdone, ht.mode, (ht.phase.resolve_left (by simp [htdone])).2, ht.samples, hout,
      ht.total.trans (encodedLength_eq _ _), hlength, hbytes⟩

end Sys2Proof.Machine

namespace Sys2Proof.Machine

open Sys2Proof.Claims

/-! ### `DECODE` and `DECODE_HEADER` (R195, R196) -/

/-- A decode that goes on: a frame is due, and `PCMOUT` holds the samples emitted so far (20_memory.md R54). -/
structure DecodeRunning (s : State) : Prop where
  phase : s.phase = .needFrame
  mode : s.mode = .dec
  channels_pos : 1 ≤ s.channels.toNat
  channels_le : s.channels.toNat ≤ 8
  pcmout : s.pcmoutExact

/-- A decode at its end: it holds `SAMPLES` samples of each channel. -/
structure DecodeDone (s : State) : Prop where
  phase : s.phase = .done
  pcmout : ∀ i, (Memory.read s.pcmout i).isSome = true ↔ i < s.samples.toNat * s.channels.toNat

/-- A decode that has ended, in an error or at its last sample (R173, R195). -/
def DecodeEnded (s : State) : Prop := s.phase = .error ∨ DecodeDone s

section
variable {s : State}

theorem DecodeEnded.ports (h : DecodeEnded s) (arg res : List Int) : DecodeEnded { s with arg := arg, res := res } :=
  h.imp id fun hdone => ⟨hdone.phase, hdone.pcmout⟩

theorem DecodeEnded.not_needFrame (h : DecodeEnded s) : s.phase ≠ .needFrame := by
  rcases h with hp | hdone
  · simp [hp]
  · simp [hdone.phase]

/-- A space that held values below `a` alone and was written from `a` up to `b` holds values below `b` alone. -/
theorem isSome_read_extended {α : Type} {m m' : Memory α} {a b : Nat} (hab : a ≤ b)
    (hold : ∀ i, (Memory.read m i).isSome = true ↔ i < a)
    (houtside : ∀ i, i < a ∨ b ≤ i → Memory.read m' i = Memory.read m i)
    (hinside : ∀ i, a ≤ i → i < b → (Memory.read m' i).isSome = true) (i : Nat) :
    (Memory.read m' i).isSome = true ↔ i < b := by
  by_cases hi : a ≤ i ∧ i < b
  · exact iff_of_true (hinside i hi.1 hi.2) hi.2
  · rw [houtside i (by omega), hold]
    omega

/-- `DEC.FRAME` ends the decode, or takes it on by a frame of at least 24 bytes: a header and a channel's LMS words. -/
theorem DecodeRunning.decFrame (h : DecodeRunning s) (harg : s.arg = []) :
    ∃ t, exec .decFrame s = .next t ∧
      (DecodeEnded t ∨ (DecodeRunning t ∧ t.remainingBytes + 24 ≤ s.remainingBytes)) := by
  obtain ⟨hraises, -⟩ := decFrameRaisesFirstFailingCheck s h.phase h.mode harg
  cases hfound : frameError s with
  | some e => exact ⟨_, hraises e hfound, .inl (.inl rfl)⟩
  | none =>
    obtain ⟨-, hbytes⟩ := checkFrame_bounds (checkFrame_passed hfound)
    obtain ⟨t, hexec, hframe, hbsin, hpos, hphase, -, houtside, hinside⟩ :=
      decFrameMovesTheCursors s h.phase h.mode harg h.channels_le hfound
    rw [frameBytes_eq_slices, headerFsamples_headerWord] at hbytes
    generalize memRead s.bsinByte s.bsinPos.toNat 8 / 2 ^ 16 % 2 ^ 16 = n at hbytes hbsin hpos houtside hinside
    have hchannels : t.channels = s.channels := by rw [hframe]
    have hmode : t.mode = .dec := by rw [hframe]; exact h.mode
    have hlen : t.bsinLen = s.bsinLen := by rw [hframe]
    have hpcmout : ∀ i, (Memory.read t.pcmout i).isSome = true ↔ i < t.samplePos.toNat * t.channels.toNat := by
      rw [hpos, hchannels]
      exact isSome_read_extended (Nat.mul_le_mul_right _ (Nat.le_add_right _ _)) (h.pcmout h.mode) houtside hinside
    refine ⟨t, hexec, ?_⟩
    split at hphase
    · obtain ⟨hp, -⟩ := hphase
      refine .inr ⟨⟨hp, hmode, hchannels ▸ h.channels_pos, hchannels ▸ h.channels_le, fun _ => hpcmout⟩, ?_⟩
      have hC := h.channels_pos
      rw [State.remainingBytes, State.remainingBytes, hlen, hbsin]
      omega
    · obtain ⟨hp, hsamples⟩ := hphase
      exact .inl (.inr ⟨hp, by rw [hsamples]; exact hpcmout⟩)

/-- The loop of `DECODE` ends, where its bound leaves a turn for each 24 bytes begun and one for its test. -/
theorem DecodeRunning.loop (fuel : Nat) (h : DecodeRunning s) (hfuel : s.remainingBytes < 24 * fuel) :
    ∃ t, whileNeedFrame (commandWord 0x49 0 0 0) (fuel + 1) s = .next t ∧ DecodeEnded t := by
  induction fuel generalizing s with
  | zero => omega
  | succ fuel ih =>
    have hshown : DecodeRunning (s.showing s.statusWord) := ⟨h.phase, h.mode, h.channels_pos, h.channels_le, h.pcmout⟩
    obtain ⟨t, hexec, hended | ⟨hrunning, hbytes⟩⟩ := hshown.decFrame rfl
    all_goals rw [whileNeedFrame_turn decode_decFrame h.phase hexec]
    · exact ⟨_, whileNeedFrame_ends hended.not_needFrame _ _, hended.ports _ _⟩
    · change t.remainingBytes + 24 ≤ s.remainingBytes at hbytes
      exact ih hrunning (by omega)

/-- The end of `DECODE`: the descriptor and the samples at Done, else the error alone (R195). -/
theorem DecodeEnded.answer (h : DecodeEnded s) :
    ∃ (t : State) (answer : Except (BitVec 4) (StreamDescriptor × List (Option Sample))),
      hostEnds 2 (hostReadsDescriptor fun d s => .next ⟨s, .ok (d, hostBuffer s.pcmout (d.samples * d.channels))⟩) s =
        .next ⟨t, answer⟩ ∧
      ((t.phase = .error ∧ answer = .error t.err) ∨
       (t.phase = .done ∧
        (∃ samples : List Sample,
          answer = .ok (⟨t.channels.toNat, t.sampleRate.toNat, t.samples.toNat⟩, samples.map some) ∧
          samples.length = t.samples.toNat * t.channels.toNat ∧ ∀ i, Memory.read t.pcmout i = samples[i]?))) := by
  obtain hp | hdone := h
  · exact ⟨_, _, hostEnds_elsewhere (mt (phase_code_eq _).2.mp (by simp [hp])) _, .inl ⟨hp, rfl⟩⟩
  · obtain ⟨samples, hbuffer, hlength, hsamples⟩ := hostBuffer_of_isSome fun i => (hdone.pcmout i).mpr
    rw [hostEnds_there ((phase_code_eq _).2.mpr hdone.phase), hostReadsDescriptor_eq]
    refine ⟨_, _, rfl, .inr ⟨hdone.phase, samples, ?answer, hlength, fun i => ?sample⟩⟩
    case answer => rw [← hbuffer]
    case sample =>
      obtain hi | hi := Nat.lt_or_ge i (s.samples.toNat * s.channels.toNat)
      · exact hsamples i hi
      · rw [List.getElem?_eq_none (hlength.trans_le hi)]
        exact Option.not_isSome_iff_eq_none.mp (mt (hdone.pcmout i).mp (by omega))

end

/-- `DEC.OPEN` starts a decode where the first frame is due. -/
theorem openDecoder_running {s : State} {len : Nat} (hpass : streamError s len = none) :
    DecodeRunning ((openDecoder len s).returns []) := by
  obtain ⟨-, -, -, hchannels, -, hC8⟩ := checkStream_eq_ok.mp (streamError_eq_none.mp hpass)
  refine ⟨rfl, rfl, BitVec.toNat_pos_of_ne_zero hchannels, hC8, fun _ i => ?_⟩
  simp [openDecoder]

/-- `DECODE` ends, and answers by the phase it ends in. -/
theorem hostDecode_ends {s : State} {bytes : List Byte} (hphase : s.phase = .needHeader ∨ s.phase = .done)
    (hlen : bytes.length < 2 ^ 64) :
    ∃ u, DecodeEnded u ∧ hostDecode bytes s = hostEnds 2
      (hostReadsDescriptor fun d s => .next ⟨s, .ok (d, hostBuffer s.pcmout (d.samples * d.channels))⟩) u := by
  rw [hostDecode, hostOpensDecode_eq hphase hlen, thenDo_next]
  cases hfound : streamError (s.givenBytes bytes) bytes.length with
  | none =>
    have hbytes : State.remainingBytes ((openDecoder bytes.length (s.givenBytes bytes)).returns []) =
        bytes.length - 8 := congrArg (· - 8) (Nat.mod_eq_of_lt hlen)
    obtain ⟨u, hloop, hended⟩ := (openDecoder_running hfound).loop (bytes.length / 24 + 1) (by omega)
    rw [Option.elim_none, hloop, thenDo_next]
    exact ⟨u, hended, rfl⟩
  | some e =>
    rw [Option.elim_some, whileNeedFrame_ends (by simp), thenDo_next]
    exact ⟨_, .inl rfl, rfl⟩

/-- Settles O42: the loop of `DECODE` ends in an error or at Done; `DECODE_HEADER` answers what `DEC.OPEN` finds. -/
theorem decodeProgramEnds : Obligations.DecodeProgramEnds := by
  intro s bytes hphase hlen
  refine ⟨?decode, fun e he => hostDecodeHeader_failed hphase hlen he, fun hpass => ?header⟩
  case decode =>
    obtain ⟨u, hended, hdecode⟩ := hostDecode_ends hphase hlen
    rw [hdecode]
    exact hended.answer
  case header =>
    obtain ⟨t, ht, hp⟩ := hostDecodeHeader_passed hphase hlen hpass
    rw [headerChannels_toNat, headerSampleRate_toNat, fileHeaderSamples_toNat, bsinWord_toNat, bsinWord_toNat] at ht
    exact ⟨t, ht, hp⟩

end Sys2Proof.Machine

/-! ## A decoder follows the encoder through a frame (44_stream.md R200 (3), 43_frame.md R169, R172) -/

namespace Sys2Proof.Machine

open Sys2Proof.Claims

/-! ### The bytes of the frame in the decoder's input -/

/-- A decoder `u` stands where the frame that `s` encodes next begins: with the descriptor and the sample position of
`s`, and the bytes the frame appends to `BSOUT` in its own input from `BSIN_POS` on. -/
structure AtFrameOf (s u : State) : Prop where
  channels : u.channels = s.channels
  sampleRate : u.sampleRate = s.sampleRate
  samples : u.samples = s.samples
  samplePos : u.samplePos = s.samplePos
  bytes : ∀ k < frameBytes s.channels.toNat s.nextFrameLength,
    Memory.read u.bsin (u.bsinPos.toNat + k) = Memory.read s.afterEncode.bsout (s.bsoutPos.toNat + k)
  room : u.bsinPos.toNat + frameBytes s.channels.toNat s.nextFrameLength ≤ u.bsinLen.toNat

/-- The checks of 43_frame.md R171. -/
theorem checkFrame_eq_ok {s : State} {u : Unit} :
    checkFrame s = .ok u ↔
      8 + 16 * s.channels.toNat ≤ s.remainingBytes ∧ headerChannels s.headerWord = s.channels ∧
      headerSampleRate s.headerWord = s.sampleRate ∧ (headerFsize s.headerWord).toNat ≤ s.remainingBytes ∧
      8 + 16 * s.channels.toNat ≤ (headerFsize s.headerWord).toNat ∧
      (headerFsamples s.headerWord).toNat * s.channels.toNat ≤
        ((headerFsize s.headerWord).toNat - 8 - 16 * s.channels.toNat) / 8 * 20 ∧
      s.samplePos.toNat + (headerFsamples s.headerWord).toNat ≤ s.samples.toNat ∧
      frameBytes s.channels.toNat (headerFsamples s.headerWord).toNat ≤ s.remainingBytes := by
  simp [checkFrame, checkPrelude, checkFrameHeader, bind_eq_ok, require_eq_ok]

/-- The slices of a frame hold all its samples: check 5 of R171 on the true size. -/
theorem frame_samples_le_slices (channels n : Nat) :
    n * channels ≤ (frameBytes channels n - 8 - 16 * channels) / 8 * 20 := by
  have hcount : (frameBytes channels n - 8 - 16 * channels) / 8 = slices n * channels := by
    rw [frameBytes_eq_slices, Nat.mul_assoc]
    omega
  have hcover : n ≤ slices n * 20 := by rw [slices]; omega
  calc n * channels ≤ slices n * 20 * channels := Nat.mul_le_mul_right _ hcover
    _ = _ := by rw [hcount, Nat.mul_right_comm]

section
variable {s u : State} (hat : AtFrameOf s u)
include hat

/-- A word of the frame is read by the decoder where the encoder put it. -/
theorem AtFrameOf.bsinWord {k : Nat} {w : WireWord}
    (hw : HoldsWord s.afterEncode.bsout (s.bsoutPos.toNat + k) w.toNat)
    (hk : k + 8 ≤ frameBytes s.channels.toNat s.nextFrameLength) : u.bsinWord (u.bsinPos.toNat + k) = w := by
  refine bsinWord_of_holds (hw.copied fun i hi => ?_)
  rw [Nat.add_assoc, Nat.add_assoc]
  exact hat.bytes (k + i) (by omega)

variable (hdue : FrameDue s)
include hdue

theorem AtFrameOf.headerWord : u.headerWord = s.nextFrameHeader :=
  hat.bsinWord (k := 0) hdue.header_holds (by rw [frameBytes]; omega)

theorem AtFrameOf.headerFsamples : (headerFsamples u.headerWord).toNat = s.nextFrameLength := by
  have hlength := hdue.length
  rw [hat.headerWord hdue, State.nextFrameHeader, headerFsamples_pack]
  exact Nat.mod_eq_of_lt (by omega)

/-- The LMS words the decoder reads are the encoder's registers before the frame. -/
theorem AtFrameOf.lmsWords {c : Fin 8} (hc : c.val < s.channels.toNat) :
    u.bsinWord (u.bsinPos.toNat + 8 + 16 * c.val) = pack4 (s.lms.get c).h ∧
    u.bsinWord (u.bsinPos.toNat + 16 + 16 * c.val) = pack4 (s.lms.get c).w := by
  obtain ⟨hhistory, hweights⟩ := hdue.prelude_holds.2 c hc
  replace hhistory := hdue.prelude_kept hhistory (by omega)
  replace hweights := hdue.prelude_kept hweights (by omega)
  rw [Nat.add_assoc] at hhistory hweights ⊢
  rw [Nat.add_assoc]
  have hsize := frameBytes_eq_words s.channels.toNat s.nextFrameLength
  exact ⟨hat.bsinWord hhistory (by omega), hat.bsinWord hweights (by omega)⟩

/-- The frame passes the decoder's checks (R171). -/
theorem AtFrameOf.passes (hle : s.samplePos.toNat ≤ s.samples.toNat) : checkFrame u = .ok () := by
  have hrest : s.nextFrameLength ≤ s.samples.toNat - s.samplePos.toNat := Nat.min_le_right _ _
  have hsize := frameBytes_lt hdue.channels hdue.length
  have hfsize : (headerFsize u.headerWord).toNat = frameBytes s.channels.toNat s.nextFrameLength := by
    rw [hat.headerWord hdue, State.nextFrameHeader, headerFsize_pack]
    exact Nat.mod_eq_of_lt hsize
  have hrem : frameBytes s.channels.toNat s.nextFrameLength ≤ u.remainingBytes :=
    Nat.le_sub_of_add_le' hat.room
  have hprelude : 8 + 16 * s.channels.toNat ≤ frameBytes s.channels.toNat s.nextFrameLength := by rw [frameBytes]; omega
  rw [checkFrame_eq_ok, hfsize, hat.headerFsamples hdue, hat.channels, hat.sampleRate, hat.samplePos, hat.samples,
    hat.headerWord hdue, State.nextFrameHeader, headerChannels_pack, headerSampleRate_pack]
  exact ⟨by omega, rfl, rfl, hrem, hprelude, frame_samples_le_slices _ _, by omega, hrem⟩

/-- The slice words the decoder reads are those `ENC.SLICE` returns for the frame, in order. -/
theorem AtFrameOf.sliceWord (hp : s.phase = .needFrame) {j : Nat} {v : WireWord}
    (hj : (frameByCommands s).words[j]? = some (wordResult v)) :
    u.bsinWord (u.bsinPos.toNat + 8 + 16 * s.channels.toNat + 8 * j) = v := by
  have hagree := hdue.slicesAgree hp
  have hend : (encodeFrameBody s).bsoutPos.toNat = _ := hdue.appended.pos
  have hpos := hagree.pos
  have hlt := (List.getElem?_eq_some_iff.mp hj).1
  have hsize := frameBytes_eq_words s.channels.toNat s.nextFrameLength
  rw [ceilDiv_twenty] at hsize
  obtain ⟨w, hw, hholds⟩ := hagree.words j _ hj
  obtain rfl : v = w := by rw [← wordOperand_wordResult v, hw, wordOperand_wordResult]
  rw [Nat.add_assoc, Nat.add_assoc] at hholds ⊢
  exact hat.bsinWord hholds (by omega)

end

/-! ### The LMS words -/

/-- The LMS words of channels give them the registers the words pack. -/
theorem decodeUnits_lmsUnits (base : Nat) (l : Bank Lms) (cs : List (Fin 8)) {d : State}
    (hwords : ∀ c ∈ cs, d.bsinWord (base + 8 + 16 * c.val) = pack4 (l.get c).h ∧
      d.bsinWord (base + 16 + 16 * c.val) = pack4 (l.get c).w)
    {c : Fin 8} (hc : c ∈ cs ∨ d.lms.get c = l.get c) : (decodeUnits (lmsUnits base cs) d).lms.get c = l.get c := by
  induction cs generalizing d with
  | nil => exact hc.resolve_left List.not_mem_nil
  | cons e cs ih =>
    obtain ⟨hhistory, hweights⟩ := hwords e List.mem_cons_self
    have hcons : lmsUnits base (e :: cs) =
        (base + 8 + 16 * e.val, .history e) :: (base + 16 + 16 * e.val, .weights e) :: lmsUnits base cs := rfl
    rw [hcons, decodeUnits_lmsWords, hhistory, hweights, unpack4_pack4, unpack4_pack4]
    refine ih (d := d.setLms e _) (fun f hf => hwords f (List.mem_cons_of_mem e hf)) ?_
    rw [State.setLms_lms, Bank.get_set]
    split
    · next heq => exact .inr (heq ▸ rfl)
    · next hne => exact hc.imp_left fun hmem => (List.mem_cons.mp hmem).resolve_left hne

end Sys2Proof.Machine

namespace Sys2Proof.Machine

open Sys2Proof.Claims

/-! ### One slice -/

section
variable {p : SlicePos} {w : WireWord} {d : State}

/-- A slice's sample `k` stands at its index (R54, R68). -/
theorem applySlice_read_inside (hC : 0 < d.channels.toNat) {k : Nat} (hk : k < p.len) :
    Memory.read (applySlice p w d).pcmout ((d.samplePos.toNat + 20 * p.s + k) * d.channels.toNat + p.c.val) =
      (decSlice (d.lms.get p.c) w p.len).1[k]? :=
  writeSamples_inside p.c _ _ (d.setLms p.c _) k hC (by rwa [decSlice_length])

theorem applySlice_read_outside {i : Nat}
    (hi : ∀ k < p.len, i ≠ (d.samplePos.toNat + 20 * p.s + k) * d.channels.toNat + p.c.val) :
    Memory.read (applySlice p w d).pcmout i = Memory.read d.pcmout i :=
  writeSamples_outside p.c _ _ (d.setLms p.c _) i (by rwa [decSlice_length])

end

theorem trialSamples_length (sf : BitVec 4) (l : Lms) (xs : List Sample) : (trialSamples sf l xs).length = xs.length := by
  induction xs generalizing l with
  | nil => rfl
  | cons x xs ih => rw [trialSamples, List.length_cons, List.length_cons, ih]

/-- Decoding the word the search answers replays the trial it committed. -/
theorem decSlice_search (m : Config.SearchMetric) (l : Lms) (prev : BitVec 4) {xs : List Sample} (h : xs.length ≤ 20) :
    let b := search m l prev xs
    decSlice l b.word xs.length = (trialSamples b.sf l xs, b.lms) := by
  obtain ⟨i, -, hbest, -⟩ := search_chain (m := m) (l := l) (prev := prev) h 15
  have hsearch : search m l prev xs = trialBest l prev xs i := hbest
  rw [hsearch]
  exact decSlice_encTrial l (BitVec.ofNat 4 ((i + prev.toNat) % 16)) h

theorem decSlice_searchFor (s : State) (c : Fin 8) {xs : List Sample} (h : xs.length ≤ 20) :
    decSlice (s.lms.get c) (s.searchFor c xs).word xs.length =
      (trialSamples (s.searchFor c xs).sf (s.lms.get c) xs, (s.searchFor c xs).lms) :=
  decSlice_search s.params.searchMetric (s.lms.get c) (s.prevSf.get c) h

/-! ### The places of a frame in order -/

/-- The slice number of the frame at `SAMPLE_POS` that a sample index belongs to (R68). -/
def State.sliceNumber (s : State) (i : Nat) : Nat :=
  (i / s.channels.toNat - s.samplePos.toNat) / 20 * s.channels.toNat + i % s.channels.toNat

theorem sliceNumber_sliceIndex {s : State} {p : Nat × Fin 8} {k : Nat} (hc : p.2.val < s.channels.toNat) (hk : k < 20) :
    s.sliceNumber (sliceIndex s p k) = p.1 * s.channels.toNat + p.2.val := by
  have hdiv : sliceIndex s p k / s.channels.toNat = s.samplePos.toNat + 20 * p.1 + k := by
    rw [sliceIndex, Nat.add_comm, Nat.add_mul_div_right _ _ (Nat.zero_lt_of_lt hc), Nat.div_eq_of_lt hc, Nat.zero_add]
  have hmod : sliceIndex s p k % s.channels.toNat = p.2.val := by
    rw [sliceIndex, Nat.mul_add_mod_self_right, Nat.mod_eq_of_lt hc]
  have hslice : (s.samplePos.toNat + 20 * p.1 + k - s.samplePos.toNat) / 20 = p.1 := by omega
  rw [State.sliceNumber, hdiv, hmod, hslice]

theorem channelList_val {n i : Nat} (h : n ≤ 8) {c : Fin 8} (hc : (channelList n)[i]? = some c) : c.val = i := by
  have hi : i < n := channelList_length h ▸ (List.getElem?_eq_some_iff.mp hc).1
  have hfound := channelList_getElem? h (c := ⟨i, by omega⟩) hi
  rw [hc] at hfound
  cases hfound
  rfl

/-- The places of the first `m` slice rows stand in the order of their slice numbers (R174). -/
theorem places_number {C m j : Nat} (hC : C ≤ 8) {p : Nat × Fin 8}
    (hj : ((List.range m).flatMap fun k => (channelList C).map fun c => (k, c))[j]? = some p) :
    p.1 * C + p.2.val = j := by
  induction m with
  | zero => simp at hj
  | succ m ih =>
    have hlen : ((List.range m).flatMap fun k => (channelList C).map fun c => (k, c)).length = m * C := by
      simp [List.length_flatMap, channelList_length hC]
    rw [List.range_succ, List.flatMap_append, List.flatMap_singleton] at hj
    obtain hlt | hge := Nat.lt_or_ge j (m * C)
    · rw [List.getElem?_append_left (hlen.symm ▸ hlt)] at hj
      exact ih hj
    · rw [List.getElem?_append_right (hlen.trans_le hge), hlen, List.getElem?_map, Option.map_eq_some_iff] at hj
      obtain ⟨c, hc, rfl⟩ := hj
      have hval := channelList_val hC hc
      show m * C + c.val = j
      omega

/-! ### The slices -/

/-- The decoder `d`, started from `u`, has decoded the slices of the frame of `s` that the commands in `acc` have encoded. -/
structure SlicesFollow (s u : State) (acc : EncodedFrame) (d : State) : Prop where
  frame : d = { u with lms := d.lms, pcmout := d.pcmout }
  phase : acc.state.phase = s.phase
  lms : ∀ c : Fin 8, c.val < s.channels.toNat → d.lms.get c = acc.state.lms.get c
  samples : ∀ i x, (i, x) ∈ acc.samples → Memory.read d.pcmout i = some x
  earlier : ∀ i x, (i, x) ∈ acc.samples → s.sliceNumber i < acc.words.length

/-- The place is that of a slice of the frame of `s`. -/
def InFrame (s : State) (p : Nat × Fin 8) : Prop := 20 * p.1 < s.nextFrameLength ∧ p.2.val < s.channels.toNat

/-- One slice more, by the command and by the decoder given its word. -/
theorem SlicesFollow.next {s u d : State} {acc : EncodedFrame} (h : SlicesFollow s u acc d) (hat : AtFrameOf s u)
    (hp : s.phase = .needFrame) {p : Nat × Fin 8} (hplace : InFrame s p)
    (hnumber : p.1 * s.channels.toNat + p.2.val = acc.words.length) :
    SlicesFollow s u (sliceByCommand s acc p)
      (applySlice (s.sliceAt p) (acc.state.searchFor p.2 (s.sliceSamples (s.sliceAt p))).word d) := by
  obtain ⟨hrow, hchannel⟩ := hplace
  have hlen : (s.sliceSamples (s.sliceAt p)).length = (s.sliceAt p).len := sliceSamples_length s _
  have hlen20 : (s.sliceAt p).len ≤ 20 := Nat.min_le_left _ _
  have hreplay := decSlice_searchFor acc.state p.2 (hlen.trans_le hlen20)
  rw [sliceByCommand_eq (by simp [h.phase, hp]) hrow]
  rw [hlen] at hreplay
  generalize s.sliceSamples (s.sliceAt p) = xs at hlen hreplay ⊢
  generalize acc.state.searchFor p.2 xs = b at hreplay ⊢
  rw [← h.lms p.2 hchannel] at hreplay ⊢
  have hindex (k : Nat) : (d.samplePos.toNat + 20 * p.1 + k) * d.channels.toNat + p.2.val = sliceIndex s p k := by
    rw [h.frame, hat.samplePos, hat.channels]
    rfl
  have hC : 0 < d.channels.toNat := by
    rw [h.frame, hat.channels]
    exact Nat.zero_lt_of_lt hchannel
  have hnew {i : Nat} {x : Sample} (hx : (i, x) ∈ (trialSamples b.sf (d.lms.get p.2) xs).mapIdx
      fun k x => (sliceIndex s p k, x)) :
      ∃ k < (s.sliceAt p).len, i = sliceIndex s p k ∧ (trialSamples b.sf (d.lms.get p.2) xs)[k]? = some x := by
    obtain ⟨k, hk, heq⟩ := List.mem_mapIdx.mp hx
    cases heq
    exact ⟨k, hlen ▸ trialSamples_length _ _ _ ▸ hk, rfl, List.getElem?_eq_getElem hk⟩
  refine ⟨?frame, h.phase, fun c hc => ?lms, fun i x hx => ?samples, fun i x hx => ?earlier⟩
  case frame =>
    have hframe := applyWord_frame (.slice (s.sliceAt p)) b.word d
    exact hframe.trans (by rw [h.frame]; rfl)
  case lms =>
    have hset : (applySlice (s.sliceAt p) b.word d).lms = d.lms.set p.2 b.lms := by
      rw [applySlice_lms]
      exact congrArg (fun out => d.lms.set p.2 (Prod.snd out)) hreplay
    rw [hset, State.returns_lms, State.commit_lms, Bank.get_set, Bank.get_set, h.lms c hc]
  case samples =>
    rcases List.mem_append.mp hx with hold | hx
    · rw [applySlice_read_outside, h.samples i x hold]
      rintro k hk rfl
      have hearlier := h.earlier _ x hold
      rw [show (s.sliceAt p).s = p.1 from rfl, show (s.sliceAt p).c = p.2 from rfl, hindex,
        sliceNumber_sliceIndex hchannel (by omega), hnumber] at hearlier
      exact Nat.lt_irrefl _ hearlier
    · obtain ⟨k, hk, rfl, hvalue⟩ := hnew hx
      have hread := applySlice_read_inside (w := b.word) hC hk
      rw [← hindex k, ← hvalue]
      exact hread.trans (congrArg (fun out => (Prod.fst out)[k]?) hreplay)
  case earlier =>
    rw [List.length_append, List.length_singleton]
    rcases List.mem_append.mp hx with hold | hx
    · exact Nat.lt_succ_of_lt (h.earlier i x hold)
    · obtain ⟨k, hk, rfl, -⟩ := hnew hx
      rw [sliceNumber_sliceIndex hchannel (by omega), hnumber]
      exact Nat.lt_succ_self _

/-- The unit of the slice at the place `p`, in a frame of `s` that starts at `base`. -/
def State.sliceUnit (s : State) (base : Nat) (p : Nat × Fin 8) : Nat × WirePos :=
  (base + 8 + 16 * s.channels.toNat + 8 * (p.1 * s.channels.toNat + p.2.val), .slice (s.sliceAt p))

theorem sliceUnits_eq (s : State) (base : Nat) :
    sliceUnits base s.channels.toNat s.nextFrameLength = s.framePlaces.map (s.sliceUnit base) := by
  rw [sliceUnits, slicePositions_eq, List.map_map]
  rfl

/-- The commands keep the words returned before and add theirs behind. -/
theorem words_prefix (s : State) (ps : List (Nat × Fin 8)) (acc : EncodedFrame) :
    acc.words <+: (ps.foldl (sliceByCommand s) acc).words := by
  induction ps generalizing acc with
  | nil => exact List.prefix_rfl
  | cons p ps ih =>
    refine List.IsPrefix.trans ?_ (ih _)
    unfold sliceByCommand
    dsimp only
    split
    · exact List.prefix_append _ _
    · exact List.prefix_rfl

/-- The slices of a frame one after another: each place's number is the count of the words before it, and the decoder
reads at its unit the word the command returned. -/
theorem SlicesFollow.fold {s u : State} (hat : AtFrameOf s u) (hp : s.phase = .needFrame) (base : Nat)
    (ps : List (Nat × Fin 8)) {acc : EncodedFrame} {d : State} (h : SlicesFollow s u acc d)
    (hplaces : ∀ p ∈ ps, InFrame s p)
    (hnumbers : ∀ j p, ps[j]? = some p → p.1 * s.channels.toNat + p.2.val = acc.words.length + j)
    (hwords : ∀ j v, (ps.foldl (sliceByCommand s) acc).words[j]? = some (wordResult v) →
      u.bsinWord (base + 8 + 16 * s.channels.toNat + 8 * j) = v) :
    SlicesFollow s u (ps.foldl (sliceByCommand s) acc) (decodeUnits (ps.map (s.sliceUnit base)) d) := by
  induction ps generalizing acc d with
  | nil => exact h
  | cons p ps ih =>
    have hplace := hplaces p List.mem_cons_self
    have hnumber : p.1 * s.channels.toNat + p.2.val = acc.words.length := hnumbers 0 p rfl
    have hnext := h.next hat hp hplace hnumber
    have hacc := congrArg EncodedFrame.words (sliceByCommand_eq (acc := acc) (p := p) (by simp [h.phase, hp]) hplace.1)
    generalize acc.state.searchFor p.2 (s.sliceSamples (s.sliceAt p)) = b at hnext hacc
    have hword : u.bsinWord (s.sliceUnit base p).1 = b.word := by
      rw [State.sliceUnit, hnumber]
      refine hwords acc.words.length b.word ?_
      obtain ⟨rest, hrest⟩ := words_prefix s ps (sliceByCommand s acc p)
      rw [List.foldl_cons, ← hrest, hacc]
      simp
    have hread : d.bsinWord (s.sliceUnit base p).1 = b.word := by rw [h.frame]; exact hword
    rw [List.map_cons, decodeUnits_cons, hread]
    refine ih hnext (fun q hq => hplaces q (List.mem_cons_of_mem p hq)) (fun j q hj => ?_) hwords
    rw [hacc, List.length_append, List.length_singleton, hnumbers (j + 1) q hj]
    omega

theorem inFrame_of_mem_framePlaces (s : State) : ∀ p ∈ s.framePlaces, InFrame s p := by
  intro p hp
  obtain ⟨k, -, hk⟩ := List.mem_flatMap.mp hp
  obtain ⟨c, hc, rfl⟩ := List.mem_map.mp hk
  exact ⟨framePlaces_inFrame _ hp, mem_channelList.mp hc⟩

/-- The decoder's registers after the units of the frame are those the commands left, and every sample a trial
reconstructed stands at its index. -/
theorem AtFrameOf.decoded {s u : State} (hat : AtFrameOf s u) (hdue : FrameDue s) (hp : s.phase = .needFrame) :
    SlicesFollow s u (frameByCommands s)
      (decodeUnits (frameUnits u.bsinPos.toNat s.channels.toNat s.nextFrameLength) u) := by
  rw [frameUnits_eq, decodeUnits_append, sliceUnits_eq, frameByCommands_eq]
  refine SlicesFollow.fold hat hp _ _ ?start (inFrame_of_mem_framePlaces s) (fun j p hj => ?number) (fun j v hj => ?word)
  case start =>
    refine ⟨decodeUnits_frame _ _, rfl, fun c hc => ?_, nofun, nofun⟩
    exact decodeUnits_lmsUnits _ s.lms _ (fun c hc => hat.lmsWords hdue (mem_channelList.mp hc))
      (.inl (mem_channelList.mpr hc))
  case number => rw [List.length_nil, Nat.zero_add]; exact places_number hdue.channels hj
  case word => exact hat.sliceWord hdue hp hj

/-! ### Every sample of the frame is reconstructed -/

theorem map_fst_mapIdx {α : Type} (f : Nat → Nat) (xs : List α) :
    (xs.mapIdx fun k x => (f k, x)).map Prod.fst = (List.range xs.length).map f := by
  apply List.ext_getElem <;> simp

/-- The indices of the samples the commands reconstruct: those of each slice in turn. -/
theorem sample_indices {s : State} (hp : s.phase = .needFrame) (ps : List (Nat × Fin 8)) {acc : EncodedFrame}
    (hacc : acc.state.phase = s.phase) (hps : ∀ p ∈ ps, InFrame s p) :
    (ps.foldl (sliceByCommand s) acc).samples.map Prod.fst =
      acc.samples.map Prod.fst ++ ps.flatMap fun p => (List.range (s.sliceAt p).len).map (sliceIndex s p) := by
  induction ps generalizing acc with
  | nil => simp
  | cons p ps ih =>
    have hslice := sliceByCommand_eq (acc := acc) (p := p) (by simp [hacc, hp]) (hps p List.mem_cons_self).1
    rw [List.foldl_cons, ih (by rw [hslice]; exact hacc) fun q hq => hps q (List.mem_cons_of_mem p hq), hslice,
      List.flatMap_cons, List.map_append, List.append_assoc, map_fst_mapIdx, trialSamples_length, sliceSamples_length]

/-- Every index of the frame is that of a sample some trial reconstructs (R68). -/
theorem FrameDue.sample_exists {s : State} (hdue : FrameDue s) (hp : s.phase = .needFrame)
    (hC : 0 < s.channels.toNat) {i : Nat} (h1 : s.samplePos.toNat * s.channels.toNat ≤ i)
    (h2 : i < (s.samplePos.toNat + s.nextFrameLength) * s.channels.toNat) : ∃ x, (i, x) ∈ (frameByCommands s).samples := by
  have hindices := sample_indices hp s.framePlaces (acc := ⟨{ s with prevSf := allChannels 0 }, [], []⟩) rfl
    (inFrame_of_mem_framePlaces s)
  rw [← frameByCommands_eq, List.map_nil, List.nil_append] at hindices
  have hmem : i ∈ (frameByCommands s).samples.map Prod.fst := by
    obtain ⟨unit, hunit, hwrites⟩ := (frameUnits_writes s _ hC hdue.channels i).mpr ⟨h1, h2⟩
    rw [frameUnits_eq, sliceUnits_eq, List.mem_append] at hunit
    rcases hunit with hlms | hslice
    · obtain ⟨c, -, hc⟩ := List.mem_flatMap.mp hlms
      simp only [List.mem_cons, List.not_mem_nil, or_false] at hc
      rcases hc with rfl | rfl <;> exact hwrites.elim
    · obtain ⟨p, hplace, rfl⟩ := List.mem_map.mp hslice
      obtain ⟨k, hk, rfl⟩ := hwrites
      rw [hindices]
      exact List.mem_flatMap.mpr ⟨p, hplace, List.mem_map.mpr ⟨k, List.mem_range.mpr hk, rfl⟩⟩
  obtain ⟨⟨j, x⟩, hx, rfl⟩ := List.mem_map.mp hmem
  exact ⟨x, hx⟩

/-- Settles O37: the decoder reads the encoder's words, whose header passes the checks, whose LMS words are the encoder's
registers, and whose slices replay the trials that were committed. -/
theorem decFrameFollowsEncFrame : Obligations.DecFrameFollowsEncFrame := by
  intro s u hinv hp hm harg hup hum huarg hchannels hrate hsamples hpos t ht hbytes hroom
  have hdue := hinv.frameDue hp hm
  obtain rfl := Host.Outcome.next.inj ((exec_encFrame hp hm harg).symm.trans ht)
  have hsize : s.afterEncode.bsoutPos.toNat - s.bsoutPos.toNat = frameBytes s.channels.toNat s.nextFrameLength := by
    rw [hdue.appended.pos, frameBytes_eq_words, ceilDiv_twenty, Nat.add_sub_cancel_left]
  rw [State.returns_bsoutPos, hsize] at hbytes hroom ⊢
  have hat : AtFrameOf s u := ⟨hchannels, hrate, hsamples, hpos, hbytes, hroom⟩
  have hcheck := hat.passes hdue hinv.samplePos_le
  have hexec : exec .decFrame u = .next _ :=
    execDecFrame_ok (by simp [hup]) (noOperand_eq_ok.mpr huarg) (frameAdmitted_iff.mpr ⟨hup, hum⟩) hcheck
  obtain ⟨hfits, hinput⟩ := checkFrame_bounds hcheck
  rw [hat.headerFsamples hdue] at hexec hfits hinput
  have hdecoded := hat.decoded hdue hp
  obtain ⟨hlms, -, -⟩ := (hdue.slicesAgree hp).registers
  obtain ⟨hcursor, -⟩ := afterUnits_cursors hfits hinput
  rw [← hchannels] at hdecoded
  refine ⟨_, hexec, ?phase, ?position, ?cursor, fun c hc => ?registers, fun i x hx => ?samples, fun i h1 h2 => ?all⟩
  case phase =>
    rw [State.returns_phase]
    exact decodeFrameBody_phase_ne_error (by simp [hup]) _
  case position =>
    rw [State.returns_samplePos, decodeFrameBody_eq, finishDecode_samplePos, State.afterUnits, hpos]
    rfl
  case cursor => rw [State.returns_bsinPos, decodeFrameBody_eq, finishDecode_bsinPos, hcursor, hchannels]
  case registers =>
    rw [State.returns_lms, decodeFrameBody_eq, finishDecode_lms]
    exact (hdecoded.lms c hc).trans (congrArg (Bank.get · c) hlms.symm)
  case samples =>
    rw [State.returns_pcmout, decodeFrameBody_eq, finishDecode_pcmout]
    exact hdecoded.samples i x hx
  case all =>
    obtain ⟨hC, -⟩ := hinv.descriptor (by simp [hm])
    exact hdue.sample_exists hp hC h1 (hdue.frameEnd ▸ h2)

end Sys2Proof.Machine

/-! ## Errors (60_exceptions.md) -/

namespace Sys2Proof.Machine

open Sys2Proof.Claims

/-! ### The errors of each command (R220) -/

/-- The codes an instruction may raise: `IllegalCommand`, and those of the checks of `DEC.OPEN`, `ENC.OPEN` and
`DEC.FRAME`. -/
def Instr.mayRaise (i : Instr) (c : ErrorCode) : Prop :=
  c = .illegalCommand ∨
  (i = .decOpen ∧ (c = .fileTooSmall ∨ c = .badMagic ∨ c = .noSamples ∨ c = .invalidStreamHeader)) ∨
  (i = .encOpen ∧ (c = .invalidParameters ∨ c = .sampleCountMismatch)) ∨
  (i = .decFrame ∧ (c = .frameTooSmall ∨ c = .invalidFrame))

/-- The verdict is a state outside the error phase, or an error that `i` may raise. -/
def EndsAs (i : Instr) (v : Verdict) : Prop := (∀ t, v = .ok t → t.phase ≠ .error) ∧ RaisesOnly (Instr.mayRaise i) v

section
variable {i : Instr} {α : Type} {x : Except Cause α} {f : α → Verdict}

theorem endsAs_returns {t : State} (h : t.phase ≠ .error) (r : List Int) : EndsAs i (.ok (t.returns r)) :=
  ⟨fun _ ht => by cases ht; exact h, nofun⟩

theorem EndsAs.bind (hx : RaisesOnly (Instr.mayRaise i) x) (hf : ∀ a, x = .ok a → EndsAs i (f a)) :
    EndsAs i (x >>= f) := by
  refine ⟨fun t ht => ?_, fun e he => ?_⟩
  · obtain ⟨a, ha, ht⟩ := bind_eq_ok.mp ht
    exact (hf a ha).1 t ht
  · rcases bind_eq_error.mp he with he | ⟨a, ha, he⟩
    · exact hx e he
    · exact (hf a ha).2 e he

/-- Every command may raise what a test of R72 (c) to (f) raises. -/
theorem EndsAs.test {P : Prop} {n : BitVec 4} (hx : Tests x P (illegal n)) (hf : ∀ a, x = .ok a → EndsAs i (f a)) :
    EndsAs i (x >>= f) :=
  .bind (fun e he => .inl (congrArg Cause.code ((hx e).mp he).2)) hf

end

/-- Outside the error phase a command settles a verdict whose error, if any, is one the command may raise. -/
theorem exec_endsAs {i : Instr} {s : State} (hi : isCommand i = true) (hp : s.phase ≠ .error) :
    ∃ v, exec i s = settle s v ∧ EndsAs i v := by
  have operated (v : Verdict) : operate s v = settle s v := operate_eq_settle hp v
  have done {i : Instr} {t : State} {r : List Int} (ht : t.phase = s.phase) : EndsAs i (.ok (t.returns r)) :=
    endsAs_returns (ht ▸ hp) r
  have channel (c : BitVec 4) : Tests (channelOperand c) (c.toNat < 8) (illegal 3) := fun _ => by
    rw [channelOperand_eq_error, Nat.not_lt]
  cases i with
  | nop => exact ⟨_, rfl, .test (noOperand_tests _) fun _ _ => ⟨fun _ ht => by cases ht; exact hp, nofun⟩⟩
  | rdreg r => exact ⟨_, rfl, .test (registerOperand_tests r s) fun _ _ => .test (noOperand_tests _) fun _ _ => done rfl⟩
  | fnClamp => exact ⟨_, operated _, .test (clampOperands_tests _) fun _ _ => done rfl⟩
  | fnClamps16 => exact ⟨_, operated _, .test (oneOperand_tests isInt64_iff _) fun _ _ => done rfl⟩
  | fnDivide sf => exact ⟨_, operated _, .test (oneOperand_tests isResidual_iff _) fun _ _ => done rfl⟩
  | tblRecip sf => exact ⟨_, operated _, .test (noOperand_tests _) fun _ _ => done rfl⟩
  | tblQuant i => exact ⟨_, operated _, .test (indexOperand_tests i 16) fun _ _ =>
      .test (noOperand_tests _) fun _ _ => done rfl⟩
  | tblDequant sf q => exact ⟨_, operated _, .test (indexOperand_tests q 7) fun _ _ =>
      .test (noOperand_tests _) fun _ _ => done rfl⟩
  | lmsInit => exact ⟨_, operated _, .test (noOperand_tests _) fun _ _ => done rfl⟩
  | lmsLoad c => exact ⟨_, operated _, .test (channel c) fun _ _ =>
      .test (twoOperands_tests isUnsigned64_iff _) fun _ _ => done rfl⟩
  | lmsStore c => exact ⟨_, operated _, .test (channel c) fun _ _ => .test (noOperand_tests _) fun _ _ => done rfl⟩
  | lmsPredict c => exact ⟨_, operated _, .test (channel c) fun _ _ => .test (noOperand_tests _) fun _ _ => done rfl⟩
  | lmsUpdate c => exact ⟨_, operated _, .test (channel c) fun _ _ =>
      .test (twoOperands_tests isInt16_iff _) fun _ _ => done rfl⟩
  | decSlice c len => exact ⟨_, operated _, .test (channel c) fun _ _ => .test (lenOperand_tests len) fun _ _ =>
      .test (oneOperand_tests isUnsigned64_iff _) fun _ _ => done rfl⟩
  | encTrial c sf len => exact ⟨_, operated _, .test (channel c) fun _ _ => .test (lenOperand_tests len) fun _ hn =>
      .test (samplesOperand_tests hn _) fun _ _ => done rfl⟩
  | encSlice c len => exact ⟨_, operated _, .test (channel c) fun _ _ => .test (lenOperand_tests len) fun _ hn =>
      .test (samplesOperand_tests hn _) fun _ _ => done rfl⟩
  | encOpen => exact ⟨_, operated _, .test (encOpenOperands_tests _) fun p _ =>
      .test (require_tests opensAdmitted_iff) fun _ _ =>
      .bind ((checkParameters_raisesOnly p).mono fun _ hc => .inr (.inr (.inl ⟨rfl, hc⟩))) fun _ _ =>
      endsAs_returns (by simp [openEncoder]) []⟩
  | encFrame => exact ⟨_, operated _, .test (noOperand_tests _) fun _ _ =>
      .test (require_tests frameAdmitted_iff) fun _ _ => endsAs_returns (finishEncode_phase_ne_error hp _) []⟩
  | decOpen => exact ⟨_, operated _, .test (oneOperand_tests isUnsigned64_iff _) fun n _ =>
      .test (require_tests opensAdmitted_iff) fun _ _ =>
      .bind ((checkStream_raisesOnly n.toNat s).mono fun _ hc => .inr (.inl ⟨rfl, hc⟩)) fun _ _ =>
      endsAs_returns (by simp [openDecoder]) []⟩
  | decFrame => exact ⟨_, operated _, .test (noOperand_tests _) fun _ _ =>
      .test (require_tests frameAdmitted_iff) fun _ _ =>
      .bind ((checkFrame_raisesOnly s).mono fun _ hc => .inr (.inr (.inr ⟨rfl, hc⟩))) fun _ _ =>
      endsAs_returns (decodeFrameBody_phase_ne_error hp _) []⟩
  | fileHeader samples => cases hi
  | frameHeader role ch sr n z => cases hi
  | lmsHistory c h0 h1 h2 h3 => cases hi
  | lmsWeights c w0 w1 w2 w3 => cases hi
  | slice p sf qs => cases hi

/-- Settles O48: a command's verdict is an error it may raise, and a wire word that is not turned away keeps the phase. -/
theorem errorsArePrecise : Obligations.ErrorsArePrecise := by
  intro i s t h hp ht
  cases hi : isCommand i with
  | true =>
    obtain ⟨v, hexec, hok, herror⟩ := exec_endsAs hi hp
    cases v with
    | ok u =>
      obtain rfl := Host.Outcome.next.inj (hexec.symm.trans h)
      exact absurd ht (hok u rfl)
    | error e =>
      obtain rfl := Host.Outcome.next.inj ((hexec.trans (settle_eq_raise hp)).symm.trans h)
      exact ⟨e, rfl, fun _ => herror e rfl⟩
  | false =>
    rcases exec_not_command_cases hi h with hst | hframe
    · obtain rfl | ⟨-, e, rfl⟩ := State.stopped_cases hst
      · exact absurd ht hp
      · exact ⟨e, rfl, nofun⟩
    · rw [hframe] at ht
      exact absurd ht hp

/-! ### In the error phase (R223, R226, R233) -/

theorem State.stopped.eq_of_error {s t : State} (h : s.stopped t) (hp : s.phase = .error) : t = s :=
  (State.stopped_cases h).resolve_right fun hne => hne.1 hp

/-- The error phase ignores every command but `RDREG`. -/
theorem exec_error_phase {i : Instr} {s : State} (hi : isCommand i = true) (hp : s.phase = .error)
    (hr : ∀ r, i ≠ .rdreg r) : exec i s = .next s := by
  cases i with
  | rdreg r => exact absurd rfl (hr r)
  | nop =>
    obtain ⟨t, ht⟩ := exec_answers .nop s
    rcases execNop_next ht with hst | rfl
    · rw [ht, hst.eq_of_error hp]
    · exact ht
  | fileHeader samples => cases hi
  | frameHeader role ch sr n z => cases hi
  | lmsHistory c h0 h1 h2 h3 => cases hi
  | lmsWeights c w0 w1 w2 w3 => cases hi
  | slice p sf qs => cases hi
  | _ => exact operate_error_phase hp _

/-- The word of an `RDREG` has its `op` byte (R73). -/
theorem op_of_decodeCommand_rdreg {w : CommandWord} {r : BitVec 16} (h : decodeCommand w = .ok (.rdreg r)) :
    w.toNat / 2 ^ 24 = 1 := by
  have hop : ∀ row ∈ commandTable, ∀ c sf imm, .rdreg r = row.build c sf imm → row.op = 1 := by simp [commandTable]
  obtain ⟨row, hrow, hrowop, -, hbuild⟩ := decodeCommand_eq_ok h
  rw [← opField_toNat, ← hrowop, hop row hrow _ _ _ hbuild]
  rfl

/-- Settles O49: a word that does not decode raises nothing here, and one that does is no `RDREG`. -/
theorem errorPhaseIgnoresCommands : Obligations.ErrorPhaseIgnoresCommands := by
  intro s w arg rest hpending hp hop
  rw [step_command hpending]
  cases hd : decodeCommand w with
  | error e => rw [issue_error hd, if_pos hp]
  | ok i =>
    rw [issue_ok hd]
    refine exec_error_phase (decodeCommand_isCommand hd) hp fun r hr => hop ?_
    exact op_of_decodeCommand_rdreg (hr ▸ hd)

/-- What a command can do in the error phase: nothing, or `RDREG` shows a register on `RES`. -/
theorem exec_error_phase_cases {i : Instr} {s t : State} (hi : isCommand i = true) (h : exec i s = .next t)
    (hp : s.phase = .error) : t = s ∨ ∃ r, t = s.returns r := by
  by_cases hr : ∃ r, i = .rdreg r
  · obtain ⟨r, rfl⟩ := hr
    rcases execRdreg_next h with hst | ⟨v, -, -, rfl⟩
    · exact .inl (hst.eq_of_error hp)
    · exact .inr ⟨_, rfl⟩
  · have hignored := exec_error_phase hi hp fun r hi => hr ⟨r, hi⟩
    exact .inl (Host.Outcome.next.inj (h.symm.trans hignored))

/-- Settles O50: of all that a step can do only `RESET` writes the three registers in the error phase. -/
theorem onlyResetLeavesTheErrorPhase : Obligations.OnlyResetLeavesTheErrorPhase := by
  intro s t hp hnoreset h
  obtain ⟨-, rfl⟩ | ⟨w, arg, rest, -, ⟨i, hd, ht⟩ | ⟨e, -, ht⟩⟩ | ⟨rest, hreset, -⟩ | ⟨bytes, rest, -, -, rfl⟩ |
    ⟨samples, rest, -, -, rfl⟩ := step_cases h
  · exact ⟨hp, rfl, rfl⟩
  · obtain rfl | ⟨r, rfl⟩ := exec_error_phase_cases (decodeCommand_isCommand hd) ht hp <;> exact ⟨hp, rfl, rfl⟩
  · obtain rfl := ht.eq_of_error hp
    exact ⟨hp, rfl, rfl⟩
  · exact absurd (congrArg List.head? hreset) hnoreset
  · exact ⟨hp, rfl, rfl⟩
  · exact ⟨hp, rfl, rfl⟩

end Sys2Proof.Machine
